-- ==== Sys2Proof/Word.lean ====
section
/-! DEFINITION. The word types of MMLSYNTH: the byte of the notation space (20_memory.md R52), the u32 of the
registers (00_scope.md R19) and the 16-bit sample of the sink (20_memory.md R57). -/

namespace Sys2Proof

/-- One byte of the notation space (R52). -/
abbrev Byte := BitVec 8

/-- A u32 (R19): the width of POS, CNT, RATE, PHASE and of the register window. Also the bit pattern of a binary32
value (R19, R98). -/
abbrev Word := BitVec 32

/-- One sample of the sink, a 16-bit two's-complement word (R57). -/
abbrev Sample := BitVec 16

end Sys2Proof
end

