-- ==== Sys2Proof/Syntax.lean ====
section
/-! DEFINITION. The notation command language: one constructor per row of spec/opcode_table.json (30_encoding.md R75).
An operand byte is carried as `Fetch` returns it, folded (20_memory.md R52, R54); whether it is a legal digit is
decided by the command itself (41_sequencer.md R114). -/

namespace Sys2Proof

/-- The modifier of a note (30_encoding.md R73). `#` and `+` are two spellings of one modifier (R80), kept apart so
that the encoder gives back the byte that stood in the text. -/
inductive Modifier where
  /-- no modifier byte: the next byte is the digit -/
  | natural
  /-- `#`, 0x23: a semitone up -/
  | hash
  /-- `+`, 0x2B: a semitone up -/
  | plus
  /-- `-`, 0x2D: a semitone down -/
  | minus
deriving DecidableEq, Repr

/-- The seven note letters (R75; 41_sequencer.md R123). -/
inductive Letter where
  | c | d | e | f | g | a | b
deriving DecidableEq, Repr

/-- The commands of the notation language (R75). `digit` is the operand byte of formats FD and FN (R71, R72). -/
inductive Instr where
  /-- END, the NUL sentinel (R116) -/
  | endText
  /-- WS.HT (R117) -/
  | wsHt
  /-- WS.LF (R117) -/
  | wsLf
  /-- WS.VT (R117) -/
  | wsVt
  /-- WS.FF (R117) -/
  | wsFf
  /-- WS.CR (R117) -/
  | wsCr
  /-- WS.SP (R117) -/
  | wsSp
  /-- OCTUP, `>` (R118) -/
  | octUp
  /-- OCTDN, `<` (R119) -/
  | octDn
  /-- OCT, `O` and a digit byte (R120) -/
  | oct (digit : Byte)
  /-- TEMPO, `T` and a digit byte (R121) -/
  | tempo (digit : Byte)
  /-- REST, `R` and a digit byte (R124) -/
  | rest (digit : Byte)
  /-- NOTE.C (R125) -/
  | noteC (m : Modifier) (digit : Byte)
  /-- NOTE.D (R126) -/
  | noteD (m : Modifier) (digit : Byte)
  /-- NOTE.E (R127) -/
  | noteE (m : Modifier) (digit : Byte)
  /-- NOTE.F (R128) -/
  | noteF (m : Modifier) (digit : Byte)
  /-- NOTE.G (R129) -/
  | noteG (m : Modifier) (digit : Byte)
  /-- NOTE.A (R130) -/
  | noteA (m : Modifier) (digit : Byte)
  /-- NOTE.B (R131) -/
  | noteB (m : Modifier) (digit : Byte)
deriving DecidableEq, Repr

/-- The commands that end the scan: END, REST and the notes (41_sequencer.md R113). -/
def Instr.endsScan : Instr → Bool
  | .endText => true
  | .wsHt => false
  | .wsLf => false
  | .wsVt => false
  | .wsFf => false
  | .wsCr => false
  | .wsSp => false
  | .octUp => false
  | .octDn => false
  | .oct _ => false
  | .tempo _ => false
  | .rest _ => true
  | .noteC _ _ => true
  | .noteD _ _ => true
  | .noteE _ _ => true
  | .noteF _ _ => true
  | .noteG _ _ => true
  | .noteA _ _ => true
  | .noteB _ _ => true

end Sys2Proof
end

