-- ==== Sys2Proof/WellFormed.lean ====
section
/-! DEFINITION. Which terms of `Instr` some text decodes to. Two checks: an operand byte is a byte that `Fetch` can
return, so no lowercase letter (20_memory.md R54); and the digit byte of a note without a modifier is no modifier
byte, which the lookahead would have consumed (30_encoding.md R73). Whether the digit is legal is no matter of form:
an illegal one raises RANGE_ERROR when the command runs (41_sequencer.md R114). -/

namespace Sys2Proof

/-- `b` is a byte that `Fold` leaves as it is: no lowercase letter (R54). -/
def isFolded (b : Byte) : Bool := b.toNat < 0x61 || 0x7A < b.toNat

/-- `b` is one of the three modifier bytes (R73). -/
def isModifierByte (b : Byte) : Bool := b == 0x23 || b == 0x2B || b == 0x2D

/-- The operands of a note: the digit byte is folded and, without a modifier, is no modifier byte. -/
def noteWellFormed (m : Modifier) (digit : Byte) : Bool :=
  isFolded digit && (m != .natural || !isModifierByte digit)

/-- The form check of a command. -/
def Instr.wellFormed : Instr → Bool
  | .endText => true
  | .wsHt => true
  | .wsLf => true
  | .wsVt => true
  | .wsFf => true
  | .wsCr => true
  | .wsSp => true
  | .octUp => true
  | .octDn => true
  | .oct digit => isFolded digit
  | .tempo digit => isFolded digit
  | .rest digit => isFolded digit
  | .noteC m digit => noteWellFormed m digit
  | .noteD m digit => noteWellFormed m digit
  | .noteE m digit => noteWellFormed m digit
  | .noteF m digit => noteWellFormed m digit
  | .noteG m digit => noteWellFormed m digit
  | .noteA m digit => noteWellFormed m digit
  | .noteB m digit => noteWellFormed m digit

end Sys2Proof
end

