-- ==== Sys2Proof/Decode.lean ====
section
/-! DEFINITION. Case folding (20_memory.md R54), the decoder and the encoder of the notation language (30_encoding.md
R70 to R78). The decoder is total on any list of raw bytes and rejects by name. -/

namespace Sys2Proof

/-- `Fold(b)`: the 26 ASCII lowercase letters fold to uppercase, every other byte stays (R54). -/
def fold (b : Byte) : Byte := if isFolded b then b else b - 0x20

/-- Why a byte string holds no command at its start. -/
inductive Reject where
  /-- there is no byte at all -/
  | noByte
  /-- the folded command byte `c` is in the illegal space (R76); the scan raises SYNTAX_ERROR on it (R132) -/
  | illegal (c : Byte)
deriving DecidableEq, Repr

/-- The folded operand byte at offset `k` after the command byte. Past the end of the list it reads as 0 here; a
command never uses such a byte, since its own bounds check raises NO_TERMINATOR first (R52, R114; log 10). -/
def operandByte (operands : List Byte) (k : Nat) : Byte := fold (operands.getD k 0)

/-- The modifier that the byte after a note letter stands for; any other byte is not consumed (R73). -/
def modifierOf (b : Byte) : Modifier :=
  if b = 0x23 then .hash else if b = 0x2B then .plus else if b = 0x2D then .minus else .natural

/-- The number of bytes a modifier takes (R73). -/
def modifierLength : Modifier → Nat
  | .natural => 0
  | .hash => 1
  | .plus => 1
  | .minus => 1

/-- Format FN (R71): an optional modifier byte and then the digit byte. -/
def decodeNote (note : Modifier → Byte → Instr) (operands : List Byte) : Instr :=
  note (modifierOf (operandByte operands 0))
    (operandByte operands (modifierLength (modifierOf (operandByte operands 0))))

/-- The opcode map over the folded command byte (R75); every other byte is illegal (R76). -/
def decodeCommand (c : Byte) (operands : List Byte) : Except Reject Instr :=
  match c with
  | 0x00#8 => .ok .endText
  | 0x09#8 => .ok .wsHt
  | 0x0A#8 => .ok .wsLf
  | 0x0B#8 => .ok .wsVt
  | 0x0C#8 => .ok .wsFf
  | 0x0D#8 => .ok .wsCr
  | 0x20#8 => .ok .wsSp
  | 0x3E#8 => .ok .octUp
  | 0x3C#8 => .ok .octDn
  | 0x4F#8 => .ok (.oct (operandByte operands 0))
  | 0x54#8 => .ok (.tempo (operandByte operands 0))
  | 0x52#8 => .ok (.rest (operandByte operands 0))
  | 0x43#8 => .ok (decodeNote .noteC operands)
  | 0x44#8 => .ok (decodeNote .noteD operands)
  | 0x45#8 => .ok (decodeNote .noteE operands)
  | 0x46#8 => .ok (decodeNote .noteF operands)
  | 0x47#8 => .ok (decodeNote .noteG operands)
  | 0x41#8 => .ok (decodeNote .noteA operands)
  | 0x42#8 => .ok (decodeNote .noteB operands)
  | c => .error (.illegal c)

/-- The command at the start of a list of raw notation bytes (R70). -/
def decode : List Byte → Except Reject Instr
  | [] => .error .noByte
  | c :: operands => decodeCommand (fold c) operands

/-- The length of a command in bytes (R78). -/
def Instr.length : Instr → Nat
  | .endText => 1
  | .wsHt => 1
  | .wsLf => 1
  | .wsVt => 1
  | .wsFf => 1
  | .wsCr => 1
  | .wsSp => 1
  | .octUp => 1
  | .octDn => 1
  | .oct _ => 2
  | .tempo _ => 2
  | .rest _ => 2
  | .noteC m _ => 2 + modifierLength m
  | .noteD m _ => 2 + modifierLength m
  | .noteE m _ => 2 + modifierLength m
  | .noteF m _ => 2 + modifierLength m
  | .noteG m _ => 2 + modifierLength m
  | .noteA m _ => 2 + modifierLength m
  | .noteB m _ => 2 + modifierLength m

/-- The bytes of a modifier (R73). -/
def encodeModifier : Modifier → List Byte
  | .natural => []
  | .hash => [0x23]
  | .plus => [0x2B]
  | .minus => [0x2D]

/-- Format FN (R71) after the letter: the modifier and the digit byte. -/
def encodeNote (letter : Byte) (m : Modifier) (digit : Byte) : List Byte :=
  letter :: encodeModifier m ++ [digit]

/-- The bytes of a command, letters in upper case (R71, R75). -/
def encode : Instr → List Byte
  | .endText => [0x00]
  | .wsHt => [0x09]
  | .wsLf => [0x0A]
  | .wsVt => [0x0B]
  | .wsFf => [0x0C]
  | .wsCr => [0x0D]
  | .wsSp => [0x20]
  | .octUp => [0x3E]
  | .octDn => [0x3C]
  | .oct digit => [0x4F, digit]
  | .tempo digit => [0x54, digit]
  | .rest digit => [0x52, digit]
  | .noteC m digit => encodeNote 0x43 m digit
  | .noteD m digit => encodeNote 0x44 m digit
  | .noteE m digit => encodeNote 0x45 m digit
  | .noteF m digit => encodeNote 0x46 m digit
  | .noteG m digit => encodeNote 0x47 m digit
  | .noteA m digit => encodeNote 0x41 m digit
  | .noteB m digit => encodeNote 0x42 m digit

/-- The three bytes of an instruction word as the opcode table numbers its bits: byte 0 is bits 7..0. Bits at or
above `nbits` are 0. -/
def tableWordBytes (nbits w : Nat) : List Byte :=
  [BitVec.ofNat 8 (w % 2 ^ nbits), BitVec.ofNat 8 (w % 2 ^ nbits / 2 ^ 8), BitVec.ofNat 8 (w % 2 ^ nbits / 2 ^ 16)]

/-- The command the decoder reads from a table word, none where it rejects. -/
def decodeTableWord (nbits w : Nat) : Option Instr :=
  match decode (tableWordBytes nbits w) with
  | .ok i => some i
  | .error _ => none

end Sys2Proof
end

