-- ==== Sys2Proof/Config.lean ====
section
/-! DEFINITION. The implementation parameters of the block (00_scope.md R6 to R18) and its three built tables
(10_state.md R41). Both are plain data that `State` carries: the model takes every parameter as an argument, and a
statement over all states holds for all configurations (log 1). -/

namespace Sys2Proof

/-- A non-negative rational number, for the frequencies and tolerances that R9, R11 and R94 give as reals
(DESIGN CHOICE, log 3). -/
structure Ratio where
  num : Nat
  den : Nat
deriving DecidableEq, Repr

/-- The parameters, fixed while the block is out of reset (R6 to R18, 70_reset_and_hazards.md R200). -/
structure Config where
  /-- SAMPLE_RATE, samples a second (R6) -/
  sampleRate : Nat
  /-- N_LEVELS, the number of mip levels (R7) -/
  nLevels : Nat
  /-- TABLE_BITS, log2 of the length of a mip table (R8) -/
  tableBits : Nat
  /-- BASE_FREQ in hertz (R9) -/
  baseFreq : Ratio
  /-- CUTOFF_FREQ in hertz (R9) -/
  cutoffFreq : Ratio
  /-- NOTE0_FREQ to the twelfth power: exact for the REF value 440 * 2^(-33/12) (R11; log 3) -/
  note0Pow12 : Ratio
  /-- LEN[0..9], the duration table (R12) -/
  len : List Word
  /-- DEFAULT_TEMPO (R13) -/
  defaultTempo : BitVec 4
  /-- DEFAULT_OCTAVE (R13) -/
  defaultOctave : BitVec 3
  /-- TICK_SAMPLES, output samples in a tick (R14) -/
  tickSamples : Nat
  /-- OUT_CAPACITY; `none` is the unbounded sink (R17) -/
  outCapacity : Option Nat
  /-- the contents of WT_ROM, binary32 bit patterns, taken as data (R18; 40_wavetable.md R91, R94) -/
  wtRom : List (List Word)
  /-- WT_TOL, the distance from the R91 reference that R94 (d) allows -/
  wtTol : Ratio
deriving DecidableEq, Repr

/-- The tables that Build fills at reset (R41; 40_wavetable.md R90). LEN stays in `Config` and SEMI is a constant
function of the letter, since both are constants of the configuration (R90). -/
structure Roms where
  /-- WT_ROM[k][i], binary32 bit patterns (R92) -/
  wtRom : List (List Word)
  /-- THR[k], the threshold phase-rates (R93) -/
  thr : List Word
  /-- NOTE_RATE[n], the note table (R99) -/
  noteRate : List Word
deriving DecidableEq, Repr

end Sys2Proof
end

