-- ==== Sys2Proof/Machine/Binary32.lean ====
section
/-! DEFINITION. IEEE 754 binary32 arithmetic with round-to-nearest-even (00_scope.md R19), on bit patterns. A finite
value is an integer multiple of 2^-149, so each operation is exact in the integers and rounds once. Only finite
operands occur: a sample step refuses a WT_ROM entry outside [-1, 1] before it computes (log 13). -/

namespace Sys2Proof.Machine

/-- The sign bit of a binary32 pattern. -/
def f32Neg (x : Word) : Bool := x.msb

/-- |x| in units of 2^-149, exactly, for a finite x. -/
def f32Magnitude (x : Word) : Nat :=
  if x.toNat / 2 ^ 23 % 256 = 0 then x.toNat % 2 ^ 23
  else (2 ^ 23 + x.toNat % 2 ^ 23) * 2 ^ (x.toNat / 2 ^ 23 % 256 - 1)

/-- x in units of 2^-149, exactly, for a finite x. -/
def f32Exact (x : Word) : Int := if f32Neg x then - (f32Magnitude x : Int) else f32Magnitude x

/-- The power of two that the significand of m / 2^scale counts, as a shift of m: 24 bits of significand, and no
unit below 2^-149. -/
def f32Shift (m scale : Nat) : Nat := max (Nat.log2 m - 23) (scale - 149)

/-- m / 2^u to the nearest integer, ties to even. -/
def roundHalfEven (m u : Nat) : Nat :=
  if 2 ^ u < 2 * (m % 2 ^ u) ∨ (2 * (m % 2 ^ u) = 2 ^ u ∧ m / 2 ^ u % 2 = 1) then m / 2 ^ u + 1 else m / 2 ^ u

/-- The pattern, sign aside, of the binary32 nearest to m / 2^scale (scale at least 149), ties to even; past the
largest finite value it is infinity. -/
def f32RoundMagnitude (m scale : Nat) : Nat :=
  min 0x7F800000 ((f32Shift m scale - (scale - 149)) * 2 ^ 23 + roundHalfEven m (f32Shift m scale))

/-- The binary32 nearest to ±m / 2^scale, ties to even (R19). -/
def f32Round (neg : Bool) (m scale : Nat) : Word :=
  BitVec.ofNat 32 ((if neg then 2 ^ 31 else 0) + f32RoundMagnitude m scale)

/-- `x +f32 y` (R19). An exact zero sum is -0.0 only when both operands are negative. -/
def f32Add (x y : Word) : Word :=
  if f32Exact x + f32Exact y = 0 then f32Round (f32Neg x && f32Neg y) 0 149
  else f32Round (f32Exact x + f32Exact y < 0) (f32Exact x + f32Exact y).natAbs 149

/-- `x -f32 y` (R19): the sum with the sign of y changed. -/
def f32Sub (x y : Word) : Word := f32Add x (y ^^^ 0x80000000)

/-- `x *f32 y` (R19). -/
def f32Mul (x y : Word) : Word :=
  f32Round (f32Neg x != f32Neg y) (f32Magnitude x * f32Magnitude y) 298

/-- `f32(n)` for a natural number (R19). -/
def f32OfNat (n : Nat) : Word := f32Round false (n * 2 ^ 149) 149

/-- `f32(2^-k)` (40_wavetable.md R98). -/
def f32TwoPowNeg (k : Nat) : Word := f32Round false (2 ^ (149 - k)) 149

/-- `trunc(x)`: the integer part, toward zero (R19). -/
def f32Trunc (x : Word) : Int := (f32Exact x).tdiv (2 ^ 149)

/-- x is a binary32 value in [-1, 1] (40_wavetable.md R94 (a)). -/
def f32InUnit (x : Word) : Bool := x.toNat % 2 ^ 31 ≤ 0x3F800000

/-- |x| is 1.0 exactly (R94 (b)). -/
def f32IsPeak (x : Word) : Bool := x.toNat % 2 ^ 31 == 0x3F800000

end Sys2Proof.Machine
end

