-- ==== Sys2Proof/Machine/Build.lean ====
section
/-! DEFINITION. Build (40_wavetable.md R90): the tables THR and NOTE_RATE by their reference formulas, and WT_ROM as the
configuration's data. -/

namespace Sys2Proof.Machine

/-- NOTES_PER_OCTAVE (00_scope.md R10). -/
def notesPerOctave : Nat := 12
/-- NUM_OCTAVES (R10). -/
def numOctaves : Nat := 5
/-- MAX_OCTAVE (R10). -/
def maxOctave : Nat := numOctaves - 1
/-- NOTE_COUNT (R10). -/
def noteCount : Nat := numOctaves * notesPerOctave
/-- MAX_NOTE (R10). -/
def maxNote : Nat := noteCount - 1
/-- The threshold of the last level, the "infinity" of a u32 (R93). -/
def thrSentinel : Nat := 0xFFFFFFFF

/-- TABLE_SIZE (R8). -/
def tableSize (c : Config) : Nat := 2 ^ c.tableBits
/-- FRAC_BITS (R8). -/
def fracBits (c : Config) : Nat := 32 - c.tableBits

/-- The harmonic count H_k of level k (R95). -/
def harmonicCount (c : Config) : Nat → Nat
  | 0 => max 1 (c.cutoffFreq.num * c.baseFreq.den / (c.cutoffFreq.den * c.baseFreq.num))
  | k + 1 => max 1 (harmonicCount c k / 2)

/-- floor(BASE_FREQ * 2^k * 2^32 / SAMPLE_RATE), the threshold of a level below the last (R93). -/
def thresholdOf (c : Config) (k : Nat) : Nat :=
  c.baseFreq.num * 2 ^ k * 2 ^ 32 / (c.baseFreq.den * c.sampleRate)

/-- THR before it is narrowed to 32 bits (R93). -/
def thresholds (c : Config) : List Nat :=
  (List.range (c.nLevels - 1)).map (thresholdOf c) ++ [thrSentinel]

/-- The largest r below `acc + 2^bits` with r^12 * den ≤ num, given one at `acc`, found bit by bit. -/
def twelfthRoot (num den : Nat) : Nat → Nat → Nat
  | 0, acc => acc
  | bits + 1, acc =>
    if (acc + 2 ^ bits) ^ 12 * den ≤ num then twelfthRoot num den bits (acc + 2 ^ bits)
    else twelfthRoot num den bits acc

/-- floor(NOTE0_FREQ * 2^(n/12) * 2^32 / SAMPLE_RATE) (R99): the floor of the twelfth root of the twelfth power,
exact. It is cut off at 2^33 - 1, above every value R100 (b) allows. -/
def noteRateOf (c : Config) (n : Nat) : Nat :=
  twelfthRoot (c.note0Pow12.num * 2 ^ n * 2 ^ 384) (c.note0Pow12.den * c.sampleRate ^ 12) 33 0

/-- NOTE_RATE before it is narrowed to 32 bits (R99). -/
def noteRates (c : Config) : List Nat := (List.range noteCount).map (noteRateOf c)

/-- Build: fills WT_ROM, THR and NOTE_RATE from the parameters (R90). -/
def buildRoms (c : Config) : Roms where
  wtRom := c.wtRom
  thr := (thresholds c).map (BitVec.ofNat 32)
  noteRate := (noteRates c).map (BitVec.ofNat 32)

end Sys2Proof.Machine
end

