-- ==== Sys2Proof/Machine/Synthesis.lean ====
section
/-! DEFINITION. The reference table of a configuration (40_wavetable.md R91), computed far enough to decide R94 (d). The
sines are fixed-point natural numbers, `fixedBits` bits after the point; the bound on their error, `radius`, is proved
in Laws/Synthesis.lean, and so is that an accepted WT_ROM lies within WT_TOL of R91 over the reals
(`waveTablesNear_sound`). A reference entry that this precision does not round to one binary32 is not accepted
(DESIGN CHOICE, log 23). -/

namespace Sys2Proof.Machine

/-- The same wave in its negative half cycle; the exact zero stays +0.0. -/
def negated (x : Word) : Word := if x = 0 then 0 else x ^^^ 0x80000000

/-- A whole table from its first quarter: a sum of odd harmonics of a sine is symmetric about its quarter and
antisymmetric about its half (R91; DEDUCED). -/
def fullTable (quarter : List Word) : List Word :=
  quarter ++ quarter.dropLast.reverse.dropLast ++ (quarter ++ quarter.dropLast.reverse.dropLast).map negated

/-- A quarter of TABLE_SIZE: the index of the peak of sin(2π·i / TABLE_SIZE). -/
def quarterSize (c : Config) : Nat := 2 ^ (c.tableBits - 2)

/-- How many odd harmonics level k sums (R91): those from 1 to H_k. -/
def oddCount (c : Config) (k : Nat) : Nat := (harmonicCount c k + 1) / 2

/-- The bits that rounding errors can reach: an error grows by less than 4 in each of the `quarterSize` steps along the
quarter and in each of the `oddCount` steps along the harmonics. -/
def guardBits (c : Config) : Nat := 8 + 2 * quarterSize c + 2 * oddCount c 0

/-- Bits after the point of every fixed-point number below. -/
def fixedBits (c : Config) : Nat := guardBits c + 192

/-- The bound on the error of a harmonic sum, in units of 2^-fixedBits. -/
def radius (c : Config) : Nat := 2 ^ guardBits c

/-- 2·cos(π / 2^(n+1)) in fixed point, by halving the angle. -/
def twiceCosine (p : Nat) : Nat → Nat
  | 0 => 0
  | n + 1 => Nat.sqrt ((2 * 2 ^ p + twiceCosine p n) * 2 ^ p)

/-- The next of equally spaced values of a sinusoid from the last two, `t` and `t0`: (2 - q)·t - t0 + bias, with
q = 4·sin² of half the spacing. -/
def nextTerm (p q bias t t0 : Nat) : Nat := 2 * t + bias - (t0 + q * t / 2 ^ p)

/-- The cosines that follow `t0` and `t` at the same spacing, from `t` on. -/
def cosines (p q : Nat) : Nat → Nat → Nat → List Nat
  | 0, _, _ => []
  | n + 1, t, t0 => t :: cosines p q n (nextTerm p q 0 t t0) t

/-- sin(2π·i / TABLE_SIZE) in fixed point for i from 0 to `quarterSize`: the cosines of the quarter backwards. -/
def quarterSines (c : Config) : List Nat :=
  (2 ^ fixedBits c :: cosines (fixedBits c) (2 * 2 ^ fixedBits c - twiceCosine (fixedBits c) (c.tableBits - 2))
    (quarterSize c) (twiceCosine (fixedBits c) (c.tableBits - 2) / 2) (2 ^ fixedBits c)).reverse

/-- acc plus the sum of t_h / h over `n` odd harmonics from h on, where t_h = 1 + sin(h·x), q = 4·sin²(x), `t` is t_h
and `t0` is the term of the odd harmonic before h. -/
def sumHarmonics (p q : Nat) : Nat → Nat → Nat → Nat → Nat → Nat
  | 0, _, _, _, acc => acc
  | n + 1, h, t, t0, acc => sumHarmonics p q n (h + 2) (nextTerm p q q t t0) t (acc + t / h)

/-- The sum of (1 + sin(h·x)) / h over the first `n` odd h, where `s` is sin(x). -/
def indexSum (p n s : Nat) : Nat := sumHarmonics p (4 * s * s / 2 ^ p) n 1 (2 ^ p + s) (2 ^ p - s) 0

/-- The sums of level k at the indices of the first quarter. -/
def levelSums (c : Config) (k : Nat) : List Nat :=
  (quarterSines c).map (indexSum (fixedBits c) (oddCount c k))

/-- The sum of 1 / h over the first `n` odd h: what `levelSums` holds too much. -/
def harmonicSum (p : Nat) : Nat → Nat
  | 0 => 0
  | n + 1 => harmonicSum p n + 2 ^ p / (2 * n + 1)

/-- The binary32 next to the smallest value that raw / m can have, where `sum` - `excess` is raw, `peak` - `excess` is m,
and both are off by `r` at most. -/
def entryBelow (r excess peak sum : Nat) : Word :=
  f32Round false ((sum - (excess + r)) * 2 ^ 256 / (peak + r - excess)) 256

/-- The binary32 next to the largest value that raw / m can have. -/
def entryAbove (r excess peak sum : Nat) : Word :=
  f32Round false ((sum + 3 * r - excess) * 2 ^ 256 / (peak - (excess + r)) + 1) 256

/-- The entry of R91 is known: no rounding error can change it. -/
def entryKnown (r excess peak sum : Nat) : Bool :=
  excess ≤ sum + r && entryBelow r excess peak sum == entryAbove r excess peak sum

/-- An entry lies within WT_TOL of a reference entry (R94 (d)). -/
def withinTolerance (c : Config) (reference entry : Word) : Bool :=
  entry == reference
    || (f32Exact entry - f32Exact reference).natAbs * c.wtTol.den ≤ c.wtTol.num * 2 ^ 149

/-- R94 (d) for one table of WT_ROM, from the sums of its level and their excess. -/
def tableNear (c : Config) (excess : Nat) (sums : List Nat) (table : List Word) : Bool :=
  excess + radius c < sums.foldl max 0
    && sums.all (entryKnown (radius c) excess (sums.foldl max 0))
    && ((fullTable (sums.map (entryBelow (radius c) excess (sums.foldl max 0)))).zip table).all
      (fun e => withinTolerance c e.1 e.2)

/-- R94 (d): every entry of WT_ROM lies within WT_TOL of the R91 value. -/
def waveTablesNear (c : Config) : Bool :=
  (List.range c.nLevels).all fun k =>
    tableNear c (harmonicSum (fixedBits c) (oddCount c k)) (levelSums c k) (c.wtRom.getD k [])

end Sys2Proof.Machine
end

