-- ==== Sys2Proof/Machine/Validity.lean ====
section
/-! DEFINITION. The validity of a configuration (40_wavetable.md R100). -/

namespace Sys2Proof.Machine

/-- Each entry is below the next. -/
def strictlyIncreasing : List Nat → Bool
  | [] => true
  | [_] => true
  | a :: b :: rest => a < b && strictlyIncreasing (b :: rest)

/-- The parameter ranges of 00_scope.md R6 to R17 (R100 (c)). TICK_SAMPLES fits the 32 bits of SUBCNT (10_state.md
R29; DEDUCED, log 14). -/
def parametersInRange (c : Config) : Bool :=
  1 ≤ c.sampleRate && 2 ≤ c.nLevels && c.nLevels ≤ 32 && 2 ≤ c.tableBits && c.tableBits ≤ 31
    && 1 ≤ c.baseFreq.num && 1 ≤ c.baseFreq.den && 1 ≤ c.cutoffFreq.den
    && c.baseFreq.num * c.cutoffFreq.den ≤ c.cutoffFreq.num * c.baseFreq.den
    && 1 ≤ c.note0Pow12.num && 1 ≤ c.note0Pow12.den && 1 ≤ c.wtTol.den
    && c.len.length == 10 && c.len.all (fun l => 1 ≤ l.toNat && l.toNat * 10 ≤ 2 ^ 32 - 1)
    && c.defaultTempo.toNat ≤ 9 && c.defaultOctave.toNat ≤ maxOctave
    && 1 ≤ c.tickSamples && c.tickSamples ≤ 2 ^ 32 - 1

/-- One table of WT_ROM: its length, and R94 (a), (b) and (c). -/
def waveTableOk (c : Config) (t : List Word) : Bool :=
  t.length == tableSize c && t.all f32InUnit && t.any f32IsPeak && t.head? == some 0

/-- WT_ROM has N_LEVELS tables, each as R94 (a) to (c) say. -/
def waveTablesOk (c : Config) : Bool := c.wtRom.length == c.nLevels && c.wtRom.all (waveTableOk c)

/-- A valid configuration (R100): (a) THR strictly increases, (b) no note is silent and every rate fits 32 bits,
(c) the ranges, (d) WT_ROM as R94 says: (a) to (c) by `waveTablesOk`, (d) by `waveTablesNear` (log 23). -/
def configValid (c : Config) : Bool :=
  parametersInRange c && strictlyIncreasing (thresholds c)
    && (noteRates c).all (fun r => 1 ≤ r && r ≤ 0xFFFFFFFF) && waveTablesOk c && waveTablesNear c

end Sys2Proof.Machine
end

