-- ==== Sys2Proof/Machine/Reference.lean ====
section
/-! DEFINITION. The reference configuration REF (00_scope.md R6 to R18), with the WT_ROM of the reference definition
(40_wavetable.md R91) under REF: R91 over the real numbers, each entry rounded once to the nearest binary32
(DESIGN CHOICE of the model, log 2). A literal holds 64 entries, the first in its lowest 32 bits; `refQuarter<k>` is
level k at indices 0 to 512, the first quarter of the cycle. -/

namespace Sys2Proof.Machine

/-- The lowest `n` 32-bit words of a number, lowest first. -/
def wordsOf : Nat → Nat → List Word
  | 0, _ => []
  | n + 1, packed => BitVec.ofNat 32 packed :: wordsOf n (packed / 2 ^ 32)

/-- WT_ROM[0][0..512] under REF, harmonic count 500 (R91, R95). -/
def refQuarter0 : List Word :=
  wordsOf 64 0x3F5A48C33F5845C83F5816BD3F5A27063F5A7F203F5863923F57E0143F5A04B13F5AB5EF3F588AA73F57A9443F59D8A03F5AEC9A3F58BBF73F5772E33F59A1C83F5B228C3F58F8AC3F573D843F595ED43F5B57373F5942523F5709AD3F590DF23F5B8A1C3F599B153F56D7D43F58AC843F5BBAD23F5A06273F56A8503F5836963F5BE91C3F5A887E3F567B403F57A5D93F5C15053F5B2A3C3F5650573F56EFA43F5C3F343F5BF99A3F5626683F5600933F5C69AA3F5D11B43F55FA1C3F54B1A43F5C9A0F3F5EACBA3F55C1913F52A80F3F5CE28C3F6160AB3F5558A23F4ED8373F5D93D83F6741A23F53E8883F445ECA3F61B59D3F8000003F3A4BB900000000 ++
  wordsOf 64 0x3F5882FB3F5930663F59F97B3F5958553F5880343F5913D33F59FA4A3F59756E3F58816D3F58F6543F59F6F83F5993313F5886E53F58D86E3F59EF4F3F59B1153F5890C93F58BAB13F59E3293F59CE863F589F363F589DB43F59D2713F59EAE93F58B23B3F5882133F59BD223F5A059F3F58C9D23F5868703F59A3483F5A1E053F58E5E73F5851703F5985013F5A33753F5906543F583DB93F59627C3F5A45493F592AE03F582DF13F593BFB3F5A52DC3F5953423F5822BE3F5911CE3F5A5B883F597F223F581CC33F58E4553F5A5EAA3F59AE193F581CA23F58B3FD3F5A5B9F3F59DFB33F5823003F5881423F5A51C63F5A136E3F58307E3F584CA83F5A4078 ++
  wordsOf 64 0x3F5994B83F599E713F58EC3B3F58D53D3F59876F3F59ABD23F58FA9D3F58C8C53F5978023F59B74E3F590B053F58BE5B3F5966AF3F59C0933F591D313F58B64D3F5953BF3F59C7593F5930D13F58B0DE3F593F843F59CB623F59458E3F58AE483F592A5D3F59CC7A3F595B063F58AEB83F5914AF3F59CA7A3F5970CF3F58B24E3F58FEE63F59C5483F59867B3F58B91E3F58E9753F59BCDA3F599B953F58C3293F58D4CF3F59B1343F59AFA93F58D0653F58C16C3F59A26A3F59C23E3F58E0B53F58AFC13F5990A03F59D2E13F58F3ED3F58A0423F597C083F59E1213F5909D23F58935D3F5964E83F59EC913F5922183F58897B3F594B923F59F4CD3F593C67 ++
  wordsOf 64 0x3F5940CA3F58D8CB3F59325C3F59A19E3F594FB43F58D9B23F59236A3F599FA03F595E9A3F58DCC93F5914A53F599B703F596D2A3F58E20E3F59065D3F5995183F597B143F58E9753F58F8E53F598CA93F5988083F58F2E43F58EC893F5982433F5993B93F58FE373F58E1953F59760F3F599DDE3F590B3E3F58D84F3F5968423F59A6363F5919C13F58D0F43F59591A3F59AC863F59297C3F58CBBC3F5948DE3F59B09B3F593A253F58C8D43F5937DD3F59B24D3F594B6A3F58C85F3F59266B3F59B1803F595CF23F58CA733F5914E33F59AE213F596E633F58CF1C3F5903A23F59A82E3F597F5C3F58D6583F58F3073F599FAF3F598F813F58E0163F58E371 ++
  wordsOf 64 0x3F58FEDA3F59753D3F5980203F590A0C3F58F6673F596B883F5987E63F59145C3F58EF593F5960A83F598E313F591FBE3F58E9DC3F5954D33F5992D73F592BF83F58E6143F5948443F5995B93F5938CB3F58E41F3F593B3D3F5996BD3F5945F53F58E40F3F592E013F5995D63F5953313F58E5EF3F5920D83F5992FE3F5960363F58E9BD3F5914093F598E3B3F596CBC3F58EF703F5907DC3F59879E3F59787E3F58F6F23F58FC973F597F3F3F5983373F5900253F58F27A3F5975423F598CA83F590AE03F58E9C43F5969D63F5994963F5916F13F58E2AC3F595D2E3F599ACC3F59241F3F58DD613F594F893F599F203F59322A3F58DA0D3F59412B3F59A16F ++
  wordsOf 64 0x3F5989FC3F5942E23F58F0D13F59320E3F5989253F594E273F58F27C3F5926E03F5986A83F59592E3F58F5C83F591C0F3F59828F3F5963BA3F58FAAA3F5911D73F597CEA3F596D913F59010C3F5908703F5975D43F59767A3F5908CE3F5900113F596D6F3F597E433F5911CB3F58F8EA3F5963E53F5984BD3F591BD63F58F3263F5959653F5989C13F5926BC3F58EEEA3F594E263F598D2F3F5932453F58EC503F5942633F598EEF3F593E343F58EB6E3F5936593F598EF13F594A4A3F58EC4F3F592A483F598D2E3F5956453F58EEF33F591E733F5989AA3F5961E43F58F3543F59131A3F5984703F596CE63F58F9613F59087D3F597D973F59770E3F5900FF ++
  wordsOf 64 0x3F590C1B3F5906943F596A843F5977693F59144C3F5900153F5961D73F597D483F591D693F58FADE3F5958543F5981CE3F5927443F58F70F3F594E2F3F5984E13F5931A73F58F4BD3F59439C3F59866E3F593C5B3F58F3F83F5938D53F59866A3F5947263F58F4C63F592E143F5984D23F5951CE3F58F7263F5923943F5981AC3F595C183F58FB0E3F59198E3F597D073F5965CC3F59006B3F5910393F5976F83F596EB43F5907243F5907CA3F596F9F3F59769E3F590F163F5900713F59671F3F597D5D3F5918183F58FA573F595DA53F5982C83F5921FE3F58F5A23F5953623F5986C13F592C913F58F26D3F59488B3F59892D3F59379C3F58F0CD3F593D5C ++
  wordsOf 64 0x3F593AB03F5983EA3F5945193F58F73F3F5930553F5982653F594F583F58F9833F5926413F597F643F5959343F58FD3D3F591CAA3F597AF73F5962793F5902583F5913C43F5975353F596AF43F5908B93F590BBF3F596E3D3F5972773F59103E3F5904C83F5966353F5978D83F5918BF3F58FF053F595D473F597DF53F59220D3F58FA963F5953A43F5981B13F592BF83F58F7933F5949803F5983F63F5936493F58F60F3F593F113F5984B83F5940C83F58F6113F59348F3F5983F13F594B3D3F58F79C3F592A353F5981A33F59556F3F58FAA93F5920393F597DDB3F595F263F58FF283F5916D33F5978AB3F59682E3F5905033F590E373F59722D3F597053 ++
  wordsOf 1 0x3F58F67C

/-- WT_ROM[1][0..512] under REF, harmonic count 250 (R91, R95). -/
def refQuarter1 : List Word :=
  wordsOf 64 0x3F5A586D3F5BEBF73F5C055F3F5A89D73F5843FC3F5678533F5630E83F57A4073F5A0DEE3F5C17423F5C93143F5B2BBC3F589BBD3F564E073F5596213F56EDBE3F59A6753F5C40D83F5D3E3C3F5BFB1D3F59163C3F5624AD3F54D5F73F55FEBB3F5914643F5C6AC03F5E1A103F5D13193F59C6503F55F8E53F53D4973F54AFF83F583CDD3F5C9AA93F5F50433F5EADE43F5AD3B13F55C0CB3F5250BB3F52A6AA3F56E2803F5CE2C33F614CF23F6161833F5CA2A13F5558323F4F892D3F4ED72F3F54554C3F5D93C63F6590783F6742153F6087E33F53E8523F47F86B3F445E2E3F4D9F6A3F61B5623F773B5C3F8000003F6E39153F3A4BA03ECD55C500000000 ++
  wordsOf 64 0x3F5AB1DC3F5A4DC03F594E403F5841283F57BE1E3F5811393F590EED3F5A2ABC3F5AC4EC3F5A845D3F5989F43F5860033F57ADFD3F57DA683F58CFF23F5A075B3F5AD1E23F5ABB3C3F59CC413F58881E3F57A4713F57A3A03F588A443F59DA4C3F5AD7BF3F5AF1CA3F5A15613F58BA613F57A28B3F576D703F583D9B3F59A28D3F5AD5613F5B27783F5A65B53F58F7F03F57A9833F5738663F57E9723F595ECE3F5AC9713F5B5BBF3F5ABDE93F5942513F57BAD53F5705023F578CEB3F590D413F5AB2433F5B8E253F5B1F1F3F599BAD3F57D86B3F56D3B23F5726913F58AB4D3F5A8DA13F5BBE4A3F5B8B373F5A07323F5804DD3F56A4C63F56B3F33F5834FE ++
  wordsOf 64 0x3F59A2053F58E2033F5853773F58470B3F58C4F63F5987B03F5A22513F5A3D733F59C8953F5904133F585DBA3F5833733F589E463F5963943F5A153A3F5A4F093F59EF3C3F592A293F586DB33F5824063F5877D33F593B993F5A02523F5A5C243F5A15503F5953F43F5883973F5819633F58524A3F5910173F59E9673F5A64283F5A3A203F5981133F589F913F5814263F582E613F58E1753F59CA573F5A66793F5A5CF43F59B11A3F58C1BE3F5814E73F580CD33F58B0263F59A5073F5A627F3F5A7D0B3F59E3923F58EA353F581C403F57EE653F587CA73F5979653F5A57A03F5A999E3F5A17F73F5919063F582ACB3F57D3E13F58477F3F5947613F5A4541 ++
  wordsOf 64 0x3F58B11D3F5873B43F58A70D3F592F053F59BFC23F5A08043F59DEBD3F595A633F58C4BB3F5871BB3F5890753F5910643F59AA4C3F5A07E03F59F4253F59796D3F58DBFB3F5874093F587C5F3F58F1123F5991503F5A035B3F5A06C93F5998E43F58F6A13F587ACF3F586B4D3F58D19B3F5975143F59FA4C3F5A16283F59B8373F59145D3F58862E3F585DBF3F58B2923F5955EE3F59EC993F5A21C63F59D6CE3F5934D43F5896373F58542D3F5894943F5934443F59DA393F5A29313F59F40D3F5957963F58AAEC3F584F043F58783D3F5910893F59C3353F5A2BFE3F5A0F533F597C293F58C43B3F584EAA3F585E2F3F58EB3F3F59A7A43F5A29D03F5A2801 ++
  wordsOf 64 0x3F589E6C3F58F64F3F59764A3F59D6B83F59E1583F598FD93F590F903F58A84A3F5894163F58DEA83F595E903F59CC413F59EA183F59A6F93F5928213F58B47C3F588CFF3F58C82E3F5945443F59BE5A3F59EF753F59BCAE3F59420C3F58C40E3F58896A3F58B35C3F592AD73F59AD283F59F1363F59D07E3F595CDD3F58D6D43F5889893F58A0AB3F590FC13F5998DF3F59EF2D3F59E1F33F5978183F58EC903F588D843F58908E3F58F4813F5981C33F59E93C3F59F09D3F59933B3F5904F73F58956F3F5883703F58D99D3F5968283F59DF553F59FC163F59ADBE3F591FAE3F58A1503F5879B53F58BF9E3F594C6E3F59D17B3F5A03FE3F59C7173F593C4E ++
  wordsOf 64 0x3F593A8A3F59A5E33F59D6C33F59B19A3F594B053F58DC5D3F58A3A93F58C0D93F5923CC3F5995363F59D5883F59C08D3F5961CC3F58EE333F58A6863F58B3173F590D183F59824A3F59D1083F59CD0B3F5978513F5902203F58ACA73F58A7F03F58F6DF3F596D723F59C9473F59D6C73F598E203F5917CC3F58B6033F589FAF3F58E1963F59570B3F59BE583F59DD7E3F59A2C73F592ED43F58C27D3F589A903F58CDAE3F593F7C3F59B05C3F59E0FA3F59B5D53F5946CE3F58D1EE3F5898C23F58BB953F5927343F599F843F59E1113F59C6DF3F595F483F58E41E3F589A683F58ABB43F590EA73F598C0F3F59DDA93F59D57F3F5977C93F58F8C53F589F94 ++
  wordsOf 64 0x3F59C1983F59C4933F597BA63F590F953F58BCE33F58B1EE3F58F4F43F5960803F59B85C3F59CB453F598E8A3F5924163F58C77F3F58ACAF3F58E2C43F594B903F59AC6A3F59CF0A3F599FEE3F59395B3F58D4B93F58AA6C3F58D2443F59360F3F599DF83F59CFC53F59AF733F594EFC3F58E4543F58AB3D3F58C3CF3F5920693F598D463F59CD673F59BCC53F59648B3F58F60A3F58AF273F58B7B33F590B0C3F597AA03F59C7F23F59C7983F59799B3F59098A3F58B6243F58AE3A3F58F6653F59665D3F59BF743F59CFAA3F598DBF3F591E773F58C01C3F58A79D3F58E2E03F5950DE3F59B40B3F59D4C53F59A08B3F59346E3F58CCEA3F58A40C3F58D0E6 ++
  wordsOf 64 0x3F59A3123F5942513F58DEA43F58AFDD3F58D02F3F592D813F5993933F59C93C3F59B06C3F5957063F58EF183F58B2D53F58C4013F5919013F59823F3F59C4CB3F59BB5D3F596B373F5901363F58B8B83F58BA593F5905383F596F6C3F59BD7D3F59C3AE3F597E7E3F5914A53F58C1683F58B36B3F58F28B3F595B7A3F59B3753F59C9313F5990783F5929033F58CCBE3F58AF5B3F58E15B3F5946CB3F59A6E13F59CBC83F59A0C83F593DE83F58DA813F58AE423F58D2013F5931C93F5997FF3F59CB603F59AF183F5952EC3F58EA703F58B02B3F58C4CE3F591CDE3F5987153F59C7F73F59BB1C3F5967A43F58FC3E3F58B5113F58BA093F5908743F597478 ++
  wordsOf 1 0x3F59CAB9

/-- WT_ROM[2][0..512] under REF, harmonic count 125 (R91, R95). -/
def refQuarter2 : List Word :=
  wordsOf 64 0x3F5549EF3F571E043F5950993F5B90643F5D87713F5EE7CD3F5F77643F5F19553F5DD3473F5BCDCB3F594F923F56B4053F545E6D3F52AB753F51E31E3F522D2B3F5389EE3F55D08F3F58B3673F5BC9F63F5E9F433F60C2B43F61D9083F61AAF23F602F133F5D8DAE3F5A1D323F5657D33F52CB453F5004CA3F4E7C233F4E80893F502A733F5354833F579D193F5C70BE3F611C883F64E6523F6727AA3F6767E53F6571853F615FB23F5BA13C3F54F0033F4E3D073F4892F83F44F26A3F442BFA3F46BD113F4CB3FD3F559F753F608C593F6C12E63F7672E13F7DBC333F8000003F7B84FB3F6EF9353F599BA93F3B58923F14D5043ECECFF63E5404B000000000 ++
  wordsOf 64 0x3F581BDD3F59330B3F5A4DA93F5B41BE3F5BEA683F5C2D643F5BFF243F5B64BF3F5A73723F594DBD3F581E773F5712973F56528F3F55FC373F561E323F56B57E3F57AD9B3F58E3493F5A29823F5B50013F5C2A5A3F5C96A93F5C82CB3F5BEF583F5AEFE33F59A8733F5848703F5703D43F560B863F5586063F5589833F5618383F571FB43F587B293F59F8883F5B5FA73F5C7A7E3F5D1D393F5D2CF43F5CA4193F5B93AD3F5A214A3F5881FC3F56F2B73F55AF793F54EA533F54C3BE3F5545583F565FEA3F57ED0C3F59B44C3F5B731C3F5CE6773F5DD4DA3F5E17123F5D9E8B3F5C782A3F5ACB223F58D3D93F56DB843F552D9D3F540CBD3F53A8683F54156A ++
  wordsOf 64 0x3F5930A43F59F0CF3F5A95D53F5B06FE3F5B33043F5B12B93F5AAA2B3F5A08283F5944293F587AE93F57CA323F574C793F5714E43F572C673F5790513F5832983F58FBCD3F59CE7F3F5A8B863F5B169D3F5B5A9C3F5B4CAA3F5AEDF83F5A4BB63F597D3A3F58A0AB3F57D69C3F573D3E3F56EBDE3F56EF5F3F5748323F57EA213F58BDFC3F59A4E43F5A7CCC3F5B257B3F5B85563F5B8D453F5B3B0A3F5A99C43F59C06D3F58CE993F57E7E43F572EB33F56BF193F56AA993F56F5693F5795A63F5874A13F59720C3F5A68AB3F5B33C23F5BB4903F5BD6F03F5B947E3F5AF5B43F5A10E43F5907133F57FF3C3F57209E3F568CE53F565B1D3F56941B3F5730F8 ++
  wordsOf 64 0x3F59C6D73F5A47173F5A9E7A3F5ABFCD3F5AA5CB3F5A53EE3F59D5F93F593E493F58A3293F581B8A3F57BBA23F5791E53F57A4DF3F57F2263F586EAE3F5908573F59A8933F5A37B43F5AA06A3F5AD2F03F5AC76A3F5A7F1E3F5A04533F5968DE3F58C3883F582CBD3F57BAEB3F577F343F5782D43F57C5B93F583E733F58DB853F5985F23F5A24943F5A9FD63F5AE52F3F5AE9F03F5AACE63F5A36983F59981A3F58E8973F5841EC3F57BCDE3F576D683F575FBF3F5796723F5809F53F58A9AA3F595E453F5A0D2F3F5A9C6F3F5AF6883F5B0DAA3F5ADDD73F5A6D873F59CCD13F59131C3F585BB53F57C1D03F575C823F573B453F5763A63F57D0523F5871CE ++
  wordsOf 64 0x3F5A1CDB3F5A662C3F5A81933F5A6AD23F5A25103F59BA6C3F593A823F58B8253F58469B3F57F6C13F57D48C3F57E53E3F5826993F588F2A3F590FA73F59952B3F5A0BFB3F5A62743F5A8BA63F5A81433F5A44963F59DE5D3F595D843F58D4FB3F5858EA3F57FBBA3F57CB5C3F57CF2E3F5806E23F586A7C3F58EB773F5976E53F59F8313F5A5C2E3F5A93EB3F5A96EE3F5A64803F5A03D03F5982EE3F58F4C03F586E3F3F58035B3F57C40B3F57B9EA3F57E6C03F58443A3F58C4C53F59558E3F59E13F3F5A53253F5A9A3F3F5AABCA3F5A84DF3F5A2AEE3F59AAFA3F5917BC3F5886E13F580DDD3F57BEBE3F57A5793F57C61F3F581C333F589B4B3F5930D7 ++
  wordsOf 64 0x3F5A469B3F5A5E7C3F5A49633F5A0A4E3F59AA743F5937E83F58C38B3F585E8E3F5817E73F57FA1D3F5809B33F58447C3F58A1E73F59143F3F598AAD3F59F3B53F5A3FC53F5A638C3F5A59A03F5A23583F59C8963F5956A83F58DE533F58715B3F581FE43F57F60D3F57FA263F582BB93F5883973F58F4E33F596EF23F59DFC13F5A369C3F5A66963F5A68773F5A3BD03F59E7123F5976A23F58FB073F58867B3F582A413F57F40F3F57EC0C3F5813903F5864EF3F58D4493F5951423F59C96E3F5A2B043F5A67813F5A75D03F5A53A83F5A05E63F5997DF3F5919B83F589E093F58371C3F57F4403F57DF7A3F57FC0D3F5845F03F58B2663F5931883F59B09E ++
  wordsOf 64 0x3F5A4C413F5A37C33F59FBF33F59A1993F5936033F58C90E3F586AD03F5829393F580E043F581D413F5854C03F58AC5F3F5917373F59858A3F59E70E3F5A2D563F5A4DF73F5A44113F5A11083F59BC563F59526F3F58E2EE3F587E483F5833613F580D523F5811CB3F5840363F5891CA3F58FA8C3F596B0B3F59D2AF3F5A22243F5A4DA23F5A4EAB3F5A25043F59D6BE3F596F583F58FE0A3F58938D3F583F9F3F580EB23F5808113F582CCE3F5877933F58DD693F594F533F59BC833F5A14D63F5A4B333F5A57803F5A37D33F59F0C03F598CB23F591A5F3F58AAA23F584E003F5812333F5800263F581A9C3F585DCA3F58BFDA3F5932643F59A4853F5A0560 ++
  wordsOf 64 0x3F5A31DA3F59F6BA3F599DED3F59348E3F58CA2A3F586E733F582EF43F58150C3F58248F3F585B353F58B0EF3F5919183F5984503F59E2C63F5A26883F5A45933F5A3B503F5A09403F59B6C23F5950003F58E4243F5883193F583B323F58170F3F581C093F58496A3F5898843F58FDAE3F5969FB3F59CD713F5A19603F5A428F3F5A42E43F5A1A4C3F59CEBF3F596B5E3F58FED03F58991B3F5849433F581B153F58156A3F5839203F5880F83F58E2613F594EFC3F59B6C53F5A0A673F5A3D863F5A488D3F5A29D23F59E5D53F5986963F591A1F3F58B06F3F5859233F5821223F5810BA3F582A623F586A5C3F58C7413F5933613F599ECA3F59F9A03F5A3674 ++
  wordsOf 1 0x3F5A4694

/-- WT_ROM[3][0..512] under REF, harmonic count 62 (R91, R95). -/
def refQuarter3 : List Word :=
  wordsOf 64 0x3F5036093F519B2E3F5354AB3F5555103F578BF13F59E6593F5C4F693F5EB1003F60F4783F6303723F64C8A03F6630943F672A7A3F67A8D03F67A1FC3F6710CC3F65F4D03F6452903F6233993F5FA6603F5CBDF43F59918A3F563BE13F52DA7E3F4F8CC93F4C73113F49AD7B3F475AE93F4597DB3F447D583F441FE33F448E903F45D22A3F47EC903F4AD8353F4E87D53F52E6613F57D72A3F5D36393F62D8EA3F688EBE3F6E22533F735A963F77FC133F7BCA5F3F7E899C3F8000003F7FF75C3F7E3E993F7AAB173F7519F53F6D71273F63A0593F57A1A03F4979E03F3938FE3F26F9BD3F12E1603EFA3E173ECBD5B33E9B09873E50CD323DD2104A00000000 ++
  wordsOf 64 0x3F562ED33F572A633F583D753F595E663F5A82ED3F5BA0773F5CAC863F5D9D163F5E68F73F5F08293F5F74283F5FA8303F5FA16F3F5F5F283F5EE2C33F5E2FC93F5D4BCC3F5C3E3C3F5B102D3F59CC0A3F587D393F572FB63F55EFAC3F54C9003F53C6E53F52F3703F5257393F51F8FF3F51DD653F5206BD3F5274E33F5325363F5412A33F5535C33F56851A3F57F55D3F5979D23F5B04C03F5C87E53F5DF4F83F5F3E2B3F6056AD3F6133263F61CA283F6214903F620DD63F61B4473F6109233F6010A73F5ED1F83F5D56F33F5BABE43F59DF253F5800A83F5621713F5452FF3F52A6B03F512D223F4FF5943F4F0D513F4E7F293F4E52FD3F4E8D5C3F4F2F48 ++
  wordsOf 64 0x3F588FBB3F5953353F5A180D3F5AD7253F5B89823F5C28903F5CAE5B3F5D15CB3F5D5AD73F5D7AA73F5D73B63F5D45E23F5CF2723F5C7C0A3F5BE69C3F5B37403F5A740F3F59A3E63F58CE2F3F57FA9B3F5730DA3F5678593F55D7F73F5555C73F54F6D53F54BEF63F54B09D3F54CCC73F5512E83F5580EC3F56134B3F56C5203F5790533F586DD23F5955CB3F5A3FF23F5B23CF3F5BF90C3F5CB7BF3F5D58B63F5DD5BE3F5E29DB3F5E517F3F5E4AAA3F5E15063F5DB1EE3F5D24663F5C71033F5B9DCB3F5AB1FE3F59B5D83F58B2493F57B0A33F56BA493F55D8533F55133D3F5472983F53FCB93F53B6853F53A3353F53C4393F54191E3F549F923F55536D ++
  wordsOf 64 0x3F59EC9A3F5A807C3F5B09ED3F5B83E23F5BE9DA3F5C38033F5C6B643F5C81F43F5C7AB23F5C55B03F5C14153F5BB80E3F5B44C43F5ABE3B3F5A29303F598AEF3F58E9233F58499F3F57B22D3F5728573F56B1313F56512E3F560BEF3F55E4283F55DB7E3F55F27B3F5628843F567BDE3F56E9BB3F576E533F5805053F58A87F3F5952EE3F59FE343F5AA4203F5B3EA63F5BC8163F5C3B563F5C940E3F5CCED13F5CE9443F5CE22E3F5CB98F3F5C70983F5C09AD3F5B88473F5AF0E13F5A48C63F5995EA3F58DEB03F5829B13F577D803F56E06D3F5658493F55EA303F559A5A3F556BED3F5560E53F5579F63F55B68B3F5614C33F5691823F57288B3F57D4A1 ++
  wordsOf 64 0x3F5AC7963F5B2D813F5B823D3F5BC2A83F5BEC583F5BFDB23F5BF5FD3F5BD5633F5B9CF63F5B4EA73F5AED313F5A7C043F59FF273F597B0D3F58F4773F58703E3F57F32C3F5781CF3F57204E3F56D2423F569A953F567B643F5675ED3F568A843F56B8883F56FE703F5759D33F57C77C3F58438D3F58C99B3F5954DB3F59E0493F5A66DD3F5AE3B23F5B52383F5BAE5D3F5BF4B43F5C22953F5C36363F5C2EC03F5C0C513F5BD0043F5B7BE33F5B12DA3F5A98963F5A116B3F59822C3F58EFFA3F58601B3F57D7C63F575BF43F56F1313F569B743F565DF43F563B0F3F56342F3F5649BF3F567B203F56C6B53F5729E93F57A1493F5828A43F58BB2C3F5953A7 ++
  wordsOf 64 0x3F5B495D3F5B81C53F5BA5AF3F5BB3C33F5BAB6E3F5B8CF03F5B59533F5B12663F5ABAAA3F5A553F3F59E5C63F59703D3F58F8DF3F5883F93F5815C83F57B2493F575D1E3F5719643F56E99A3F56CF8A3F56CC353F56DFCC3F5709AA3F57485F3F5799B73F57FAD13F5868373F58DE003F5957F23F59D1A83F5A46BC3F5AB2F13F5B12563F5B616E3F5B9D4F3F5BC3C13F5BD34C3F5BCB4D3F5BABFA3F5B765F3F5B2C583F5AD0803F5A66183F59F0EC3F59752C3F58F74B3F587BD43F58073F3F579DC83F57434A3F56FB183F56C7DF3F56AB8C3F56A73E3F56BB323F56E6C83F5728853F577E1E3F57E4903F5858383F58D4F63F5956503F59D7A13F5A543A ++
  wordsOf 64 0x3F5B81AA3F5B8D873F5B845C3F5B66783F5B34E73F5AF16D3F5A9E743F5A3EF33F59D65A3F59686C3F58F91D3F588C723F5826583F57CA813F577C413F573E703F57134F3F56FC763F56FABE3F570E413F5736533F5771893F57BDCA3F58185C3F587E003F58EB103F595BA03F59CBA03F5A37063F5A99EF3F5AF0C63F5B38623F5B6E263F5B90183F5B9CF73F5B943F3F5B76383F5B43EC3F5AFF213F5AAA4A3F5A486F3F59DD103F596C0A3F58F96E3F58895E3F581FE83F57C0DD3F576FB13F572F5C3F5702383F56E9F33F56E7773F56FAEA3F5723A43F5760393F57AE853F580BC03F5874943F58E5403F5959B73F59CDC73F5A3D3F3F5AA4153F5AFE8E ++
  wordsOf 64 0x3F5B775A3F5B58D13F5B27283F5AE4273F5A923A3F5A34533F59CDD73F5962763F58F6113F588C8F3F5829C03F57D1333F57861B3F574B2E3F57228E3F570DB23F570D5D3F5721933F57499C3F5784073F57CEBB3F5827083F5889C03F58F3543F595FF63F59CBBC3F5A32C13F5A914F3F5AE3FB3F5B27C73F5B5A403F5B79913F5B84953F5B7AE43F5B5CD53F5B2B783F5AE8933F5A968D3F5A38583F59D1583F5965423F58F7FC3F588D773F58298C3F57CFD53F5783933F5747883F571DE33F5708293F5707273F571AEB3F5742C33F577D463F57C85B3F5821503F5884F53F58EFB33F595DB23F59CAFC3F5A339E3F5A93D03F5AE8183F5B2D683F5B613A ++
  wordsOf 1 0x3F5B81A7

/-- WT_ROM[4][0..512] under REF, harmonic count 31 (R91, R95). -/
def refQuarter4 : List Word :=
  wordsOf 64 0x3F43F2AD3F4446493F44D2EA3F45990C3F4698A93F47D1323F49418D3F4AE8143F4CC2913F4ECE423F5107D83F536B793F55F4C33F589ED33F5B64473F5E3F473F61298B3F641C643F6710C63F69FF533F6CE0633F6FAC123F725A4E3F74E2DF3F773D7A3F7961CD3F7B478B3F7CE67C3F7E368E3F7F2FDD3F7FCACA3F8000003F7FC8883F7F1DD53F7DF9CE3F7C56DE3F7A2FFE3F7780BD3F74454F3F707A8F3F6C1E0F3F672E153F61A9AB3F5B90983F54E36D3F4DA3813F45D2F13F3D74A33F348C423F2B1E383F212FAD3F16C6803F0BE93C3F009F153EE9DFB83ED1C7E83EB9088C3E9FB46B3E85DF283E573A3F3E2206A23DD89CEC3D58F5FA00000000 ++
  wordsOf 64 0x3F4DFA173F4E242D3F4E6A623F4ECC753F4F49E23F4FE1DE3F5093593F515D033F523D4A3F53325D3F543A343F55528D3F5678F73F57AAD33F58E55A3F5A25A43F5B68B03F5CAB673F5DEAA63F5F23443F60521A3F6174093F6286043F6385183F646E6F3F653F5E3F65F5643F668E3A3F6707D13F67605D3F67965C3F67A8933F67961C3F675E643F6701303F667E9D3F65D7253F650B9E3F641D393F630D853F61DE673F60921D3F5F2B393F5DAC9A3F5C196D3F5A75223F58C3663F5708203F5547653F5385713F51C69D3F500F5B3F4E64223F4CC9713F4B43B73F49D7543F4888893F475B6C3F4653E23F4575923F44C3DC3F4441CF3F43F21E3F43D71B ++
  wordsOf 64 0x3F5161A93F517E863F51AE893F51F1693F5246AE3F52ADB33F5325A43F53AD823F5444243F54E83A3F5598503F5652D03F5716083F57E02B3F58AF553F5981943F5A54E73F5B27463F5BF6A53F5CC0FB3F5D84453F5E3E8C3F5EEDEB3F5F90913F6024C93F60A8F93F611BAF3F617B9D3F61C79E3F61FEBE3F6220373F622B773F6220203F61FE0D3F61C54D3F6176293F6111203F6096EA3F6008763F5F66E43F5EB3893F5DEFEB3F5D1DB93F5C3ECF3F5B552C3F5A62F03F596A573F586DB53F576F6E3F5671F43F5577BD3F5483413F5396F23F52B5373F51E0633F511AB53F50664C3F4FC5263F4F39183F4EC3CA3F4E66B33F4E23143F4DF9F43F4DEC1C ++
  wordsOf 64 0x3F53043C3F531ADB3F53406E3F5374B13F53B7383F5407783F5464C13F54CE413F5543073F55C2073F564A163F56D9F53F57704C3F580BB43F58AAB53F594BCC3F59ED6F3F5A8E0F3F5B2C1D3F5BC60F3F5C5A603F5CE7983F5D6C4D3F5DE7283F5E56E63F5EBA603F5F10893F5F58733F5F91523F5FBA7C3F5FD36F3F5FDBCE3F5FD3653F5FBA273F5F90333F5F55CF3F5F0B6D3F5EB1A43F5E49333F5DD3003F5D50133F5CC1953F5C28D13F5B87293F5ADE1D3F5A2F3E3F597C313F58C6A83F58105E3F575B153F56A88F3F55FA8D3F5552C53F54B2E53F541C893F53913B3F53126C3F52A1723F523F843F51EDB53F51ACF63F517E0E3F51619A3F51580D ++
  wordsOf 64 0x3F53EAE33F53FE183F541DF73F544A3F3F5482903F54C66D3F5515393F556E3F3F55D0AE3F563B9D3F56AE0F3F5726F13F57A5203F58276B3F58AC953F5933583F59BA693F5A407C3F5AC4443F5B447A3F5BBFDC3F5C35333F5CA3583F5D09323F5D65BA3F5DB8003F5DFF2E3F5E3A853F5E69643F5E8B473F5E9FCB3F5EA6AB3F5E9FC53F5E8B183F5E68C53F5E39103F5DFC5B3F5DB32C3F5D5E273F5CFE0E3F5C93BF3F5C20333F5BA47A3F5B21BB3F5A992F3F5A0C1F3F597BE13F58E9D53F5857613F57C5EE3F5736E53F56ABAA3F56259B3F55A60C3F552E3F3F54BF6A3F545AAB3F54010A3F53B3753F5372BF3F533F9B3F531A9C3F5304343F52FCB1 ++
  wordsOf 64 0x3F546E5E3F547FA23F549C423F54C4003F54F6813F5533503F5579DE3F55C9833F5621813F5681063F56E72B3F5752F83F57C3683F5837693F58ADE03F5925A93F599D9F3F5A149A3F5A89733F5AFB083F5B68403F5BD0093F5C315F3F5C8B4D3F5CDCEF3F5D25753F5D64253F5D985C3F5DC1923F5DDF573F5DF1583F5DF7603F5DF1553F5DDF3C3F5DC1373F5D97873F5D62883F5D22B33F5CD89D3F5C84F13F5C28783F5BC40D3F5B58A03F5AE7353F5A70DD3F59F6B83F5979F13F58FBB83F587D433F57FFCB3F5784863F570CA63F5699573F562BB83F55C4DF3F5565D13F550F7E3F54C2C53F54806D3F5449253F541D7F3F53FDF43F53EADE3F53E47A ++
  wordsOf 64 0x3F54B3153F54C3543F54DE403F55039A3F5533083F556C1A3F55AE463F55F8ED3F564B583F56A4C13F57044C3F5769113F57D21A3F583E643F58ACE63F591C923F598C533F59FB173F5A67CC3F5AD1653F5B36DD3F5B97383F5BF1863F5C44E63F5C90883F5CD3AD3F5D0DAC3F5D3DF33F5D64063F5D7F823F5D901E3F5D95AE3F5D901D3F5D7F743F5D63D63F5D3D843F5D0CD43F5CD23C3F5C8E453F5C41933F5BECDE3F5B90F33F5B2EB13F5AC7073F5A5AF13F59EB773F5979AB3F5906A33F58937C3F58214F3F57B1393F57444D3F56DB9C3F5678283F561AEC3F55C4CF3F5576AB3F5531463F54F5503F54C3633F549BFF3F547F8E3F546E5B3F546899 ++
  wordsOf 64 0x3F54C8873F54D8733F54F2D03F55175D3F5545C23F557D8B3F55BE2F3F5607113F56577B3F56AEAA3F570BC53F576DE93F57D4233F583D793F58A8E63F5915633F5981E43F59ED5D3F5A56C73F5ABD1D3F5B1F633F5B7CA63F5BD4003F5C24993F5C6DAA3F5CAE7E3F5CE6753F5D15023F5D39B33F5D542B3F5D64293F5D69823F5D64283F5D54273F5D39A43F5D14DF3F5CE6313F5CAE0B3F5C6CF63F5C238F3F5BD28C3F5B7AB13F5B1CD63F5AB9E03F5A52C43F59E87D3F597C113F590E8A3F58A0F73F5834653F57C9E03F57626F3F56FF123F56A0BE3F56485E3F55F6CC3F55ACD43F556B2E3F55327E3F5503523F54DE223F54C34B3F54B3143F54ADA7 ++
  wordsOf 1 0x3F54C335

/-- WT_ROM[5][0..512] under REF, harmonic count 15 (R91, R95). -/
def refQuarter5 : List Word :=
  wordsOf 64 0x3F7FF2383F7FC8523F7F81833F7F1D043F7E9A183F7DF8093F7D362A3F7C53D83F7B50773F7A2B763F78E44E3F777A813F75ED9D3F743D3A3F7268F93F70708A3F6E53A53F6C120F3F69AB993F67201F3F646F893F6199CD3F5E9EEB3F5B7EEF3F5839F53F54D0203F5141A43F4D8EC03F49B7BE3F45BCF73F419ECD3F3D5DB13F38FA203F3474A03F2FCDC73F2B06343F261E913F2117973F1BF2053F16AEA93F114E5A3F0BD1F83F063A713F0088B73EF57B973EE9B5693EDDC1053ED1A09D3EC556723EB8E4D43EAC4E233E9F94CA3E92BB423E85C4113E7163893E570DEE3E3C8C953E21E4D23E071C073DD86F493DA27A443D58C8023CD8DE3600000000 ++
  wordsOf 64 0x3F4345FB3F435B113F437E6B3F43B02A3F43F0683F443F363F449C9F3F4508A43F45833D3F460C5A3F46A3E43F4749B93F47FDAF3F48BF933F498F283F4A6C2B3F4B564D3F4C4D383F4D508C3F4E5FE03F4F7AC43F50A0BD3F51D14A3F530BE03F544FEA3F559CCF3F56F1EA3F584E913F59B2103F5B1BAF3F5C8AAB3F5DFE3D3F5F75953F60EFDF3F626C3F3F63E9D53F6567BB3F66E5043F6860C13F69D9FD3F6B4FBF3F6CC10C3F6E2CE33F6F92433F70F0263F7245853F7391583F74D2963F7608333F7731253F784C603F7958DC3F7A558D3F7B416E3F7C1B763F7CE2A43F7D95F73F7E34703F7EBD153F7F2EF23F7F89153F7FCA913F7FF27F3F800000 ++
  wordsOf 64 0x3F681D333F680EBC3F67F6903F67D4A43F67A8F83F67738D3F67346D3F66EBA63F66994F3F663D823F65D85F3F656A0D3F64F2BA3F6472973F63E9DD3F6358CA3F62BFA13F621EAD3F61763B3F60C69F3F6010323F5F53533F5E90653F5DC7CF3F5CF9FE3F5C27613F5B506E3F5A759D3F59976A3F58B6553F57D2E03F56ED913F5606F13F551F883F5437E63F5350973F526A2C3F5185363F50A2473F4FC1F13F4EE4C73F4E0B5D3F4D36433F4C660D3F4B9B493F4AD6883F4A18573F4961403F48B1CE3F480A853F476BE93F46D67A3F464AB43F45C90E3F4551FC3F44E5ED3F44854C3F44307C3F43E7DD3F43ABC83F437C913F435A853F4345E93F433EFE ++
  wordsOf 64 0x3F4CD7433F4CE2993F4CF5843F4D10053F4D32193F4D5BB53F4D8CCE3F4DC5503F4E05253F4E4C333F4E9A583F4EEF723F4F4B573F4FADDB3F5016CB3F5085F33F50FB183F5175FD3F51F6603F527BFC3F5306873F5395B63F5429373F54C0B93F555BE43F55FA603F569BD23F573FDB3F57E61B3F588E303F5937B53F59E2443F5A8D783F5B38E63F5BE4263F5C8ECE3F5D38743F5DE0AD3F5E870E3F5F2B2D3F5FCCA03F606AFF3F6105E13F619CE03F622F963F62BDA03F63469D3F63CA2D3F6447F43F64BF983F6530C23F659B1F3F65FE5D3F665A2F3F66AE4E3F66FA743F673E603F6779D53F67AC9D3F67D6833F67F75A3F680EF83F681D3A3F682201 ++
  wordsOf 64 0x3F6330AC3F63270C3F6316FF3F6300893F62E3B13F62C0823F6297093F62675A3F62318B3F61F5B73F61B3FC3F616C7B3F611F5A3F60CCC23F6074E03F6017E33F5FB5FF3F5F4F6B3F5EE4603F5E751A3F5E01DA3F5D8AE03F5D10733F5C92DA3F5C125D3F5B8F483F5B09E93F5A828F3F59F98B3F596F303F58E3D03F5857C03F57CB563F573EE73F56B2CB3F5627583F559CE43F5513C63F548C553F5406E63F5383CD3F5303603F5285F13F520BD03F51954F3F5122BB3F50B45F3F504A873F4FE5793F4F857C3F4F2AD03F4ED5B63F4E866B3F4E3D273F4DFA213F4DBD8B3F4D87953F4D58693F4D302F3F4D0F0A3F4CF51A3F4CE2793F4CD73F3F4CD37D ++
  wordsOf 64 0x3F4F9D5D3F4FA6043F4FB46E3F4FC8963F4FE2743F5001FC3F50271E3F5051C73F5081E13F50B7513F50F1FC3F5131C03F51767A3F51C0033F520E323F5260D93F52B7CA3F5312D23F5371BB3F53D4503F543A553F54A38F3F550FBF3F557EA53F55F0003F56638B3F56D9003F57501A3F57C8913F58421A3F58BC6D3F59373E3F59B2443F5A2D313F5AA7BA3F5B21943F5B9A743F5C120D3F5C88153F5CFC423F5D6E4B3F5DDDE83F5E4AD23F5EB4C33F5F1B783F5F7EAE3F5FDE263F6039A03F6090E13F60E3AF3F6131D43F617B193F61BF4E3F61FE433F6237CE3F626BC43F629A003F62C2613F62E4C83F6301183F63173C3F63271D3F6330AE3F6333E0 ++
  wordsOf 64 0x3F61A62E3F619E0A3F61907C3F617D8A3F61653F3F6147A73F6124D43F60FCD83F60CFCA3F609DC53F6066E43F602B493F5FEB163F5FA6713F5F5D823F5F10743F5EBF763F5E6AB73F5E126A3F5DB6C43F5D57FC3F5CF64B3F5C91EC3F5C2B1A3F5BC2163F5B571D3F5AEA713F5A7C543F5A0D093F599CD43F592BF93F58BABE3F5849683F57D83D3F5767823F56F77D3F5688733F561AA93F55AE633F5543E43F54DB6F3F5475453F5411A63F53B0D13F5353033F52F8773F52A1663F524E083F51FE933F51B3393F516C2C3F5129993F50EBAB3F50B28D3F507E633F504F513F5025763F5000F03F4FE1D93F4FC8473F4FB44C3F4FA5FA3F4F9D5C3F4F9A7B ++
  wordsOf 64 0x3F504F733F50576D3F5064B33F50773E3F508F003F50ABED3F50CDF33F50F4FC3F5120F23F5151B83F5187323F51C13F3F51FFBB3F5242813F5289673F52D4423F5322E53F5375203F53CABF3F5423903F547F5C3F54DDEA3F553F013F55A2663F5607DB3F566F233F56D7FE3F57422C3F57AD6D3F58197D3F58861C3F58F3053F595FF83F59CCAF3F5A38EA3F5AA4643F5B0EDC3F5B78113F5BDFC03F5C45AC3F5CA9933F5D0B3A3F5D6A623F5DC6D23F5E204F3F5E76A23F5EC9963F5F18F73F5F64923F5FAC393F5FEFBF3F602EF93F6069BF3F609FED3F60D15E3F60FDF53F6125943F6148213F6165853F617DAE3F61908B3F619E0F3F61A62F3F61A8E5 ++
  wordsOf 1 0x3F504CCA

/-- WT_ROM[6][0..512] under REF, harmonic count 7 (R91, R95). -/
def refQuarter6 : List Word :=
  wordsOf 64 0x3F3AD3183F389C513F365D203F34159A3F31C5D03F2F6DD63F2D0DC23F2AA5A83F28359F3F25BDBC3F233E183F20B6CA3F1E27EA3F1B91933F18F3DE3F164EE63F13A2C53F10EF983F0E357B3F0B748C3F08ACE73F05DEAC3F0309F83F002EEC3EFA9B4D3EF4CC923EEEF1E83EE90B933EE319D63EDD1CF73ED7153C3ED102EC3ECAE64E3EC4BFAC3EBE8F503EB855843EB212933EABC6CA3EA572763E9F15E43E98B1643E9245453E8BD1D53E8557673E7DAC953E709DA53E6382A13E565C303E492AF83E3BEFA03E2EAAD33E215D383E14077B3E06AA453DF28C893DD7B8473DBCD9203DA1F06E3D86FF8B3D580FAB3D2215513CD825893C582B0100000000 ++
  wordsOf 64 0x3F7FFC843F7FF2003F7FE0593F7FC7773F7FA7413F7F7F9E3F7F50773F7F19B53F7EDB413F7E95043F7E46EA3F7DF0DD3F7D92C83F7D2C983F7CBE393F7C47983F7BC8A43F7B41493F7AB1793F7A19213F7978333F78CE9F3F781C573F77614C3F769D733F75D0BE3F74FB213F741C913F7335043F7244713F714ACD3F7048123F6F3C363F6E27333F6D09033F6BE1A13F6AB1083F6977333F68341F3F66E7CB3F6592333F6433583F62CB383F6159D53F5FDF2F3F5E5B483F5CCE243F5B37C53F5998303F57EF6A3F563D783F5482613F52BE2D3F50F0E43F4F1A8D3F4D3B343F4B52E13F4961A13F47677E3F4564863F4358C63F41444C3F3F27263F3D0165 ++
  wordsOf 64 0x3F5DB56D3F5E79313F5F3DA23F6002A43F60C81A3F618DE73F6253EE3F631A113F63E0323F64A6323F656BF43F6631593F66F6413F67BA8D3F687E1E3F6940D43F6A028F3F6AC32F3F6B82933F6C409B3F6CFD273F6DB8153F6E71443F6F28943F6FDDE33F7091113F7141FB3F71F0803F729C7F3F7345D63F73EC643F7490073F75309D3F75CE063F76681F3F76FEC63F7791DC3F78213D3F78ACC93F79345F3F79B7DD3F7A37233F7AB20F3F7B28813F7B9A593F7C07763F7C6FB73F7CD2FE3F7D312A3F7D8A1B3F7DDDB33F7E2BD23F7E745A3F7EB72B3F7EF4293F7F2B353F7F5C313F7F87013F7FAB873F7FC9A83F7FE1463F7FF2463F7FFC8D3F800000 ++
  wordsOf 64 0x3F40C79D3F40CD443F40D6B73F40E3F93F40F50F3F4109FD3F4122C53F413F6B3F415FEF3F4184543F41AC9B3F41D8C43F4208CF3F423CBA3F4274863F42B02F3F42EFB53F4333123F437A453F43C54A3F44141A3F4466B23F44BD0B3F4517203F4574E83F45D65D3F463B773F46A42D3F4710763F4780473F47F3973F486A5B3F48E4873F4962103F49E2E83F4A67023F4AEE513F4B78C63F4C06533F4C96E83F4D2A753F4DC0EA3F4E5A363F4EF6473F4F950B3F5036703F50DA633F5180CF3F5229A13F52D4C43F5382233F5431A93F54E33F3F5596CE3F564C413F57037F3F57BC703F5876FC3F59330B3F59F0823F5AAF493F5B6F443F5C305B3F5CF272 ++
  wordsOf 64 0x3F5619E73F5597983F55152D3F5492B83F54104D3F538E013F530BE73F528A133F52089A3F51878F3F5107073F5087153F5007CF3F4F89473F4F0B923F4E8EC43F4E12F13F4D982E3F4D1E8D3F4CA6243F4C2F053F4BB9443F4B44F63F4AD22D3F4A60FC3F49F1783F4983B23F4917BE3F48ADAF3F4845973F47DF883F477B953F4719D03F46BA493F465D133F4602403F45A9DF3F4554013F4500B83F44B0123F4462213F4416F33F43CE983F43891E3F4346953F43070A3F42CA8C3F4291283F425AEA3F4227E13F41F8173F41CB9A3F41A2743F417CB23F415A5D3F413B803F4120253F4108553F40F41A3F40E37B3F40D6823F40CD353F40C79B3F40C5BC ++
  wordsOf 64 0x3F6A6FB43F6A6B643F6A64313F6A5A1C3F6A4D243F6A3D483F6A2A893F6A14E93F69FC683F69E1093F69C2CC3F69A1B63F697DC83F6957063F692D743F6901173F68D1F33F68A00C3F686B6A3F6834113F67FA073F67BD543F677DFF3F673C0F3F66F78D3F66B0803F6666F13F661AEB3F65CC753F657B9A3F6528653F64D2DF3F647B153F6421123F63C4E13F63668E3F6306263F62A3B63F623F4C3F61D8F33F6170BC3F6106B23F609AE63F602D663F5FBE413F5F4D863F5EDB453F5E678E3F5DF2723F5D7C003F5D04493F5C8B5F3F5C11533F5B96363F5B1A193F5A9D103F5A1F2B3F59A07D3F5921183F58A1103F5820773F579F603F571DDE3F569C04 ++
  wordsOf 64 0x3F5902F53F5971303F59DF5B3F5A4D643F5ABB3C3F5B28D13F5B96143F5C02F23F5C6F5B3F5CDB3F3F5D468E3F5DB1363F5E1B273F5E84513F5EECA43F5F540F3F5FBA823F601FEE3F6084433F60E7703F6149663F61AA173F6209723F6267693F62C3ED3F631EEF3F6378603F63D0333F6426593F647AC53F64CD683F651E353F656D203F65BA1B3F66051A3F664E103F6694F23F66D9B23F671C473F675CA43F679AC03F67D68E3F6810053F68471B3F687BC63F68ADFD3F68DDB63F690AEB3F6935913F695DA13F6983133F69A5E13F69C6043F69E3743F69FE2C3F6A16273F6A2B5F3F6A3DCE3F6A4D713F6A5A443F6A64423F6A6B693F6A6FB53F6A7124 ++
  wordsOf 64 0x3F473A7D3F473E773F4745183F474E5E3F475A483F4768D53F477A013F478DCB3F47A4303F47BD2C3F47D8BC3F47F6DB3F4817863F483AB73F4860693F4888973F48B33A3F48E04D3F490FC93F4941A73F4975E03F49AC6B3F49E5413F4A20593F4A5DAB3F4A9D2E3F4ADED73F4B229F3F4B687A3F4BB05E3F4BFA413F4C46173F4C93D63F4CE3723F4D34DF3F4D88113F4DDCFC3F4E33933F4E8BCA3F4EE5933F4F40E03F4F9DA53F4FFBD43F505B5E3F50BC363F511E4C3F5181933F51E5FB3F524B753F52B1F33F5319653F5381BB3F53EAE73F5454D73F54BF7D3F552AC83F5596A83F56030D3F566FE73F56DD253F574AB63F57B88B3F5826923F5894BB ++
  wordsOf 1 0x3F473929

/-- WT_ROM[7][0..512] under REF, harmonic count 3 (R91, R95). -/
def refQuarter7 : List Word :=
  wordsOf 64 0x3ECB7D7F3EC874EC3EC569FC3EC25CB63EBF4D243EBC3B4E3EB9273D3EB610FB3EB2F8903EAFDE053EACC1653EA9A2B73EA682043EA35F583EA03AB93E9D14333E99EBCD3E96C1923E93958C3E9067C23E8D38403E8A070E3E86D4363E839FC23E8069BB3E7A64573E73F2393E6D7D303E67054F3E608AAA3E5A0D543E538D613E4D0AE63E4685F53E3FFEA23E3975023E32E9283E2C5B283E25CB173E1F39083E18A50F3E120F403E0B77B13E04DE743DFC873B3DEF4E863DE212F03DD4D4A13DC793C33DBA507E3DAD0AFB3D9FC3633D9279DF3D852E963D6FC3683D5526BF3D3A87853D1FE60D3D0542A73CD53B4B3C9FEEB83C55406F3BD541B800000000 ++
  wordsOf 64 0x3F3A6FEF3F3956363F383A723F371CA43F35FCCF3F34DAF63F33B71B3F3291403F3169673F303F953F2F13CA3F2DE60A3F2CB6583F2B84B53F2A51263F291BAC3F27E44B3F26AB063F256FDF3F2432D93F22F3F73F21B33D3F2070AD3F1F2C4B3F1DE6193F1C9E1C3F1B54553F1A08C83F18BB793F176C6B3F161BA13F14C91F3F1374E83F121EFE3F10C7673F0F6E263F0E133D3F0CB6B03F0B58843F09F8BC3F08975B3F0734653F05CFDD3F0469C93F03022B3F0199073F002E613EFD847A3EFAA93E3EF7CB163EF4EA093EF2061F3EEF1F613EEC35D73EE949893EE65A7F3EE368C13EE074583EDD7D4B3EDA83A53ED7876C3ED488A93ED187663ECE83AA ++
  wordsOf 64 0x3F6F16E23F6E8BBC3F6DFE4B3F6D6E8F3F6CDC883F6C48353F6BB1963F6B18AB3F6A7D743F69DFF03F6940203F689E033F67F99A3F6752E43F66A9E23F65FE943F6550FA3F64A1143F63EEE33F633A673F62839F3F61CA8E3F610F323F60518D3F5F91A03F5ECF693F5E0AEC3F5D44273F5C7B1C3F5BAFCB3F5AE2363F5A125D3F5940403F586BE23F5795433F56BC633F55E1443F5503E83F54244F3F53427A3F525E6A3F5178223F508FA23F4FA4EB3F4EB7FF3F4DC8E03F4CD78F3F4BE40C3F4AEE5B3F49F67D3F48FC733F48003E3F4701E23F46015E3F44FEB63F43F9EC3F42F3003F41E9F53F40DECD3F3FD18A3F3EC22E3F3DB0BB3F3C9D333F3B8799 ++
  wordsOf 64 0x3F7FFF133F7FFC493F7FF79F3F7FF1133F7FE8A23F7FDE4A3F7FD2063F7FC3D63F7FB3B53F7FA1A23F7F8D993F7F77993F7F5F9E3F7F45A73F7F29B13F7F0BB83F7EEBBC3F7EC9B93F7EA5AE3F7E7F973F7E57733F7E2D403F7E00FB3F7DD2A23F7DA2333F7D6FAD3F7D3B0C3F7D044F3F7CCB753F7C907A3F7C535E3F7C141E3F7BD2B83F7B8F2C3F7B49763F7B01963F7AB78A3F7A6B503F7A1CE73F79CC4D3F7979803F79247F3F78CD493F7873DD3F7818383F77BA5A3F775A423F76F7EE3F76935D3F762C8F3F75C3813F7558333F74EAA33F747AD23F7408BE3F7394663F731DC93F72A4E63F7229BE3F71AC4E3F712C973F70AA973F70264F3F6F9FBD ++
  wordsOf 64 0x3F73C7303F7420753F7478C53F74D01B3F7526723F757BC73F75D0153F7623593F76758D3F76C6AF3F7716B93F7765A83F77B3773F7800233F784BA73F7895FF3F78DF283F79271D3F796DD93F79B35A3F79F79B3F7A3A993F7A7C4E3F7ABCB83F7AFBD23F7B39983F7B76073F7BB11B3F7BEACF3F7C23213F7C5A0B3F7C8F8B3F7CC39D3F7CF63D3F7D27673F7D57173F7D854A3F7DB1FD3F7DDD2B3F7E06D13F7E2EEB3F7E55763F7E7A6E3F7E9DD03F7EBF983F7EDFC43F7EFE4E3F7F1B343F7F36733F7F50073F7F67EE3F7F7E223F7F92A23F7FA56A3F7FB6773F7FC5C63F7FD3533F7FDF1B3F7FE91C3F7FF1513F7FF7B93F7FFC503F7FFF143F800000 ++
  wordsOf 64 0x3F58ACB63F5920543F59940F3F5A07E33F5A7BCD3F5AEFC73F5B63CE3F5BD7DE3F5C4BF33F5CC0073F5D34183F5DA8213F5E1C1D3F5E90093F5F03E03F5F779E3F5FEB3F3F605EBE3F60D2173F6145463F61B8473F622B143F629DAB3F6310073F6382223F63F3FA3F6465893F64D6CC3F6547BD3F65B8593F66289C3F6698803F6708023F67771D3F67E5CD3F68540D3F68C1D93F692F2D3F699C043F6A085B3F6A742C3F6ADF733F6B4A2C3F6BB4523F6C1DE23F6C86D63F6CEF2B3F6D56DC3F6DBDE43F6E24403F6E89EB3F6EEEE13F6F531C3F6FB69A3F7019553F707B4A3F70DC743F713CCE3F719C543F71FB033F7258D63F72B5C83F7311D53F736CF9 ++
  wordsOf 64 0x3F3F5B9B3F3FA9F43F3FF9463F40498E3F409ACA3F40ECF63F4140103F4194163F41E9043F423ED83F4295903F42ED273F43459D3F439EED3F43F9143F4454113F44AFDF3F450C7C3F4569E53F45C8173F46270E3F4686C83F46E7423F4748773F47AA663F480D0A3F4870623F48D4683F49391A3F499E753F4A04763F4A6B183F4AD2583F4B3A343F4BA2A73F4C0BAF3F4C75473F4CDF6C3F4D4A1A3F4DB54F3F4E21053F4E8D3B3F4EF9EB3F4F67133F4FD4AE3F5042B93F50B1313F5120113F518F553F51FEFA3F526EFD3F52DF583F5350093F53C10B3F54325A3F54A3F33F5515D23F5587F33F55FA513F566CE93F56DFB73F5752B63F57C5E33F58393A ++
  wordsOf 64 0x3F35059B3F3507913F350AD63F350F6B3F35154D3F351C7F3F3524FE3F352ECC3F3539E73F35464F3F3554053F3563073F3573553F3584EE3F3597D33F35AC023F35C17A3F35D83C3F35F0463F3609973F3624303F36400E3F365D323F367B993F369B443F36BC313F36DE603F3701CE3F37267C3F374C673F37738F3F379BF23F37C5903F37F0663F381C743F3849B83F3878313F38A7DD3F38D8BA3F390AC83F393E043F39726D3F39A8023F39DEC03F3A16A63F3A4FB23F3A89E23F3AC5353F3B01A83F3B3F3A3F3B7DE93F3BBDB23F3BFE943F3C408D3F3C839A3F3CC7B93F3D0CE93F3D53263F3D9A703F3DE2C23F3E2C1C3F3E767B3F3EC1DC3F3F0E3D ++
  wordsOf 1 0x3F3504F3

/-- WT_ROM under REF (R18, R91). -/
def refWtRom : List (List Word) :=
  [fullTable refQuarter0, fullTable refQuarter1, fullTable refQuarter2, fullTable refQuarter3,
   fullTable refQuarter4, fullTable refQuarter5, fullTable refQuarter6, fullTable refQuarter7]

/-- The spec's reference configuration REF (R6 to R17). NOTE0_FREQ = 440 * 2^(-33/12), so its twelfth power is
440^12 / 2^33. -/
def refConfig : Config where
  sampleRate := 44100
  nLevels := 8
  tableBits := 11
  baseFreq := ⟨40, 1⟩
  cutoffFreq := ⟨20000, 1⟩
  note0Pow12 := ⟨440 ^ 12, 2 ^ 33⟩
  len := [1, 2, 3, 4, 6, 8, 12, 16, 32, 48]
  defaultTempo := 4
  defaultOctave := 2
  tickSamples := 441
  outCapacity := none
  wtRom := refWtRom
  wtTol := ⟨0, 1⟩

end Sys2Proof.Machine
end

