-- ==== Sys2Proof/Machine/State.lean ====
section
/-! DEFINITION. The state of the machine: every register of 10_state.md, the configuration and the built tables, the
two memories outside the block, and the host's moves still to come. Plain data. -/

namespace Sys2Proof.Machine

/-- A sparse memory of w-bit units: (index, value) pairs with strictly rising indices. An unlisted index has no
value (log 5, log 17). At width 8 it is a list of `Host.Cell`. -/
abbrev Memory (w : Nat) := List (Nat × BitVec w)

/-- STATE (10_state.md R31). -/
inductive BlockState where
  | idle | busy | done | error
deriving DecidableEq, Repr

/-- RSTATE (R30). -/
inductive RenderState where
  | needTick | emit
deriving DecidableEq, Repr

/-- ERR_CODE (R32). The codes 5 to 15 are reserved and never written, so they have no constructor. -/
inductive ErrorCode where
  | noError | syntaxError | rangeError | noTerminator | outputOverflow
deriving DecidableEq, Repr

/-- One move of the host between two block steps (20_memory.md R64; 70_reset_and_hazards.md R200, R203; log 6). -/
inductive HostMove where
  /-- no access: the block takes its next step -/
  | yield
  /-- a read of `bytes` bytes at a byte offset of the register window (10_state.md R34, R40) -/
  | readRegister (offset bytes : Nat)
  /-- a write of `bytes` bytes at a byte offset of the register window (R34, R40) -/
  | writeRegister (offset bytes : Nat) (value : Word)
  /-- a write of one byte of the text buffer (20_memory.md R51) -/
  | writeText (index : Word) (value : Byte)
  /-- hardware reset with the parameters fixed while it is asserted (R200, R207) -/
  | hardwareReset (config : Config)
deriving DecidableEq, Repr

/-- The machine. -/
structure State where
  /-- POS, the parse position (10_state.md R21) -/
  pos : Word
  /-- OCT, the current octave (R22) -/
  oct : BitVec 3
  /-- TEMPO, the current tempo (R23) -/
  tempo : BitVec 4
  /-- CNT, the remaining ticks of the current note or rest (R25) -/
  cnt : Word
  /-- RATE, the phase-rate being emitted; 0 is silence (R24) -/
  rate : Word
  /-- DONE, the terminal flag (R27) -/
  done : Bool
  /-- PHASE, the phase accumulator (R26) -/
  phase : Word
  /-- LVL, the mip level of the current tick (R28) -/
  lvl : BitVec 5
  /-- SUBCNT, the samples already emitted in the current tick (R29) -/
  subcnt : Word
  /-- RSTATE (R30) -/
  rstate : RenderState
  /-- STATE (R31) -/
  state : BlockState
  /-- ERR_CODE (R32) -/
  errCode : ErrorCode
  /-- ERR_POS (R32) -/
  errPos : Word
  /-- ERR_BYTE (R32) -/
  errByte : Byte
  /-- ERR_CMD (R32) -/
  errCmd : Byte
  /-- OUT_COUNT, the samples appended in the current render (R33) -/
  outCount : Word
  /-- NLEN, the length of the text buffer (R36) -/
  nlen : Word
  /-- the text buffer in host memory, read by `Fetch` (20_memory.md R50, R51) -/
  text : List Host.Cell
  /-- the sample sink (R50, R56) -/
  sink : Memory 16
  /-- the parameters (00_scope.md R6 to R18) -/
  cfg : Config
  /-- WT_ROM, THR and NOTE_RATE (10_state.md R41) -/
  rom : Roms
  /-- the MODEL's own field: the host's moves still to come (log 6) -/
  inbox : List HostMove
  /-- the MODEL's own field: what the host's last register read returned, as the host holds it (log 6) -/
  hostData : Word
deriving DecidableEq, Repr

/-- The stops of the model. No render of written text under a valid configuration reaches one. -/
inductive Fault where
  /-- raised by the scan: a `Fetch` below NLEN of a byte that nothing has written. Safe: the hardware would go on
  with some byte (log 5) -/
  | unwrittenText
  /-- raised by a host write at text index 2^32 - 1, an address no NLEN reaches (00_scope.md R16). Safe (log 16) -/
  | noTextAddress
  /-- raised by a note, a rest or a voiced sample whose index lies outside LEN, NOTE_RATE or WT_ROM: OCT is 5 to 7
  or a table is none that Build makes (93_implementation_defined.md I14). Safe (log 11) -/
  | tableIndex
  /-- raised by a note or a rest whose tick count does not fit CNT: LEN or TEMPO is out of its range (00_scope.md
  R12, 10_state.md R23). Safe (log 11) -/
  | durationRange
  /-- raised by the scan when its step bound runs out, which never happens (41_sequencer.md R113). Safe (log 9) -/
  | scanExhausted
deriving DecidableEq, Repr

/-- What the spec itself refuses. -/
inductive Refusal where
  /-- an instruction that has no meaning yet; no arm of `exec` answers with it -/
  | notModelled (mnemonic : String)
  /-- raised by a host register access that is not 32 bits wide, not aligned, or outside the window (10_state.md R40,
  93_implementation_defined.md I13). Safe (log 15) -/
  | hostAccess (offset bytes : Nat)
  /-- raised by a host write of a text byte below NLEN while STATE = BUSY (20_memory.md R67, I12). Safe (log 16) -/
  | textBusy (index : Word)
  /-- raised by a hardware reset with a configuration that breaks 40_wavetable.md R100, a WT_ROM off R91 by more
  than WT_TOL included, and by a voiced sample step that meets a WT_ROM entry outside [-1, 1] (R90, R94, R100, I9). Safe
  (logs 12, 23) -/
  | invalidConfiguration
deriving DecidableEq, Repr

/-- Every register at its reset value (R44), the tables built from the parameters (40_wavetable.md R90), no text
written, nothing in the sink, no host move pending. -/
def State.powerOn (c : Config) : State where
  pos := 0
  oct := c.defaultOctave
  tempo := c.defaultTempo
  cnt := 0
  rate := 0
  done := false
  phase := 0
  lvl := 0
  subcnt := 0
  rstate := .needTick
  state := .idle
  errCode := .noError
  errPos := 0
  errByte := 0
  errCmd := 0
  outCount := 0
  nlen := 0
  text := []
  sink := []
  cfg := c
  rom := buildRoms c
  inbox := []
  hostData := 0

/-- The machine right after reset (R44, 70_reset_and_hazards.md R200), under the reference configuration (log 1). -/
def State.reset : State := State.powerOn refConfig

end Sys2Proof.Machine
end

