-- ==== Sys2Proof/Machine/Ops.lean ====
section
/-! DEFINITION. The named operations over memory and registers: the sparse memories, Fetch's bounds and bytes
(20_memory.md R52), error entry (60_exceptions.md R184) and the only ways out of an error, START (42_renderer.md R157)
and reset (70_reset_and_hazards.md R200, R201), and Append (R56). -/

namespace Sys2Proof.Machine

/-- The value at index `a`, none where nothing is written. -/
def Memory.read {w : Nat} : Memory w → Nat → Option (BitVec w)
  | [], _ => none
  | (k, v) :: rest, a => if k = a then some v else Memory.read rest a

/-- The memory with `v` at index `a`, the indices still strictly rising. -/
def Memory.write {w : Nat} : Memory w → Nat → BitVec w → Memory w
  | [], a, v => [(a, v)]
  | (k, x) :: rest, a, v =>
    if k < a then (k, x) :: Memory.write rest a v
    else if k = a then (a, v) :: rest
    else (a, v) :: (k, x) :: rest

/-- The canonical form: the indices strictly rise. -/
def Memory.wf {w : Nat} : Memory w → Bool
  | [] => true
  | [_] => true
  | (a, _) :: (b, y) :: rest => a < b && Memory.wf ((b, y) :: rest)

/-- The raw byte of the text buffer at an index. -/
def textByte (s : State) (a : Nat) : Option Byte := Memory.read s.text a

/-- `Fetch(a)` raises NO_TERMINATOR: the index is at or above NLEN (R52). -/
def pastEnd (s : State) (a : Nat) : Bool := s.nlen.toNat ≤ a

/-- The raw bytes from POS on that a command can take, at most three (30_encoding.md R71); a byte nothing has written
stands as 0 here, and `bytesWritten` stops the scan before it is used (log 5). -/
def commandBytes (s : State) : List Byte :=
  [(textByte s s.pos.toNat).getD 0, (textByte s (s.pos.toNat + 1)).getD 0, (textByte s (s.pos.toNat + 2)).getD 0]

/-- Of the `n` bytes from POS on, each one below NLEN has been written. -/
def bytesWritten (s : State) : Nat → Bool
  | 0 => true
  | n + 1 => bytesWritten s n && (pastEnd s (s.pos.toNat + n) || (textByte s (s.pos.toNat + n)).isSome)

/-- Error entry, what every error does in the step that raises it (R184): the capture registers, POS, STATE. -/
def raiseError (code : ErrorCode) (pos : Nat) (byte cmd : Byte) (s : State) : State :=
  { s with
    errCode := code
    errPos := BitVec.ofNat 32 pos
    errByte := byte
    errCmd := cmd
    pos := BitVec.ofNat 32 pos
    state := .error }

/-- The register writes of START (R157). -/
def startRegisters (s : State) : State :=
  { s with
    pos := 0
    oct := s.cfg.defaultOctave
    tempo := s.cfg.defaultTempo
    cnt := 0
    rate := 0
    done := false
    phase := 0
    lvl := 0
    subcnt := 0
    rstate := .needTick
    errCode := .noError
    errPos := 0
    errByte := 0
    errCmd := 0
    outCount := 0
    state := .busy }

/-- START (R157): ignored while BUSY. With reset, the only way out of ERROR (60_exceptions.md R189). -/
def startRender (s : State) : State := if s.state = .busy then s else startRegisters s

/-- SOFT_RESET (R201): every register of 10_state.md R44 but the tables to its reset value, in any STATE. The text
and the sink are no registers of the block (R43). -/
def softReset (s : State) : State :=
  { State.powerOn s.cfg with
    text := s.text
    sink := s.sink
    rom := s.rom
    inbox := s.inbox
    hostData := s.hostData }

/-- Hardware reset (R200): Build runs and every register takes its reset value; a configuration that breaks
40_wavetable.md R100 is refused. Host memory stays as it is (log 22). -/
def hardwareReset (c : Config) (s : State) : Host.Outcome State Fault Refusal :=
  if configValid c then
    .next { State.powerOn c with text := s.text, sink := s.sink, inbox := s.inbox, hostData := s.hostData }
  else .refused .invalidConfiguration

/-- min(OUT_CAPACITY, 2^32 - 1), the count at which Append overflows (R56). -/
def outputLimit (c : Config) : Nat :=
  match c.outCapacity with
  | none => 2 ^ 32 - 1
  | some n => min n (2 ^ 32 - 1)

/-- `Append(v)` raises OUTPUT_OVERFLOW (R56). -/
def sinkFull (s : State) : Bool := s.outCount.toNat == outputLimit s.cfg

/-- The store of `Append(v)`: the sample and the count, one atomic step (R56). -/
def appendSample (v : Sample) (s : State) : State :=
  { s with sink := Memory.write s.sink s.outCount.toNat v, outCount := s.outCount + 1 }

/-- POS moves past the `n` bytes of a command (10_state.md R21). -/
def advance (n : Nat) (s : State) : State := { s with pos := s.pos + BitVec.ofNat 32 n }

/-- A render's result: Sink[0..OUT_COUNT-1] in index order, with OUT_COUNT and SAMPLE_RATE, the three values handed
to the container writer (42_renderer.md R158, R160). -/
def handOff (s : State) : List (Option Sample) × Nat × Nat :=
  ((List.range s.outCount.toNat).map (Memory.read s.sink), s.outCount.toNat, s.cfg.sampleRate)

/-- The bytes of a sample for a serializer outside the core, least-significant byte first (20_memory.md R57). -/
def serializeSample (v : Sample) : List Byte := [v.extractLsb' 0 8, v.extractLsb' 8 8]

end Sys2Proof.Machine
end

