-- ==== Sys2Proof/Machine/Flags.lean ====
section
/-! DEFINITION. The status bits. MMLSYNTH has no condition codes and no arithmetic flags (10_state.md R42); its flags
are DONE, STATE, RSTATE and ERR_CODE, with the encodings of R30 to R32, read through STATUS (R37), ERR_INFO (R38) and
SEQ_STATE (R39). -/

namespace Sys2Proof.Machine

/-- The encoding of STATE (R31). -/
def stateBits : BlockState → BitVec 2
  | .idle => 0
  | .busy => 1
  | .done => 2
  | .error => 3

/-- The encoding of RSTATE (R30). -/
def rstateBits : RenderState → BitVec 1
  | .needTick => 0
  | .emit => 1

/-- The encoding of ERR_CODE (R32). -/
def errorBits : ErrorCode → BitVec 4
  | .noError => 0
  | .syntaxError => 1
  | .rangeError => 2
  | .noTerminator => 3
  | .outputOverflow => 4

/-- STATUS (R37). -/
def statusWord (s : State) : Word :=
  0#24 ++ errorBits s.errCode ++ rstateBits s.rstate ++ BitVec.ofBool s.done ++ stateBits s.state

/-- ERR_INFO (R38). -/
def errInfoWord (s : State) : Word := 0#16 ++ s.errCmd ++ s.errByte

/-- SEQ_STATE (R39). -/
def seqStateWord (s : State) : Word := 0#11 ++ s.lvl ++ 0#8 ++ s.tempo ++ 0#1 ++ s.oct

end Sys2Proof.Machine
end

