-- ==== Sys2Proof/Machine/Operands.lean ====
section
/-! DEFINITION. The operand forms (30_encoding.md R72 to R74): the digit, the modifier, the letter; and what is
computed from them: the duration (41_sequencer.md R115) and the note index (R122). -/

namespace Sys2Proof.Machine

/-- The folded command byte of a note letter (30_encoding.md R75). -/
def letterByte : Letter → Byte
  | .c => 0x43
  | .d => 0x44
  | .e => 0x45
  | .f => 0x46
  | .g => 0x47
  | .a => 0x41
  | .b => 0x42

/-- The SEMI table (R123). -/
def semitone : Letter → Nat
  | .c => 0
  | .d => 2
  | .e => 4
  | .f => 5
  | .g => 7
  | .a => 9
  | .b => 11

/-- The semitones a modifier adds (R73). -/
def modifierDelta : Modifier → Int
  | .natural => 0
  | .hash => 1
  | .plus => 1
  | .minus => -1

/-- A digit byte with value 0 to `hi` (R72). -/
def isDigit (hi : Nat) (b : Byte) : Bool := 0x30 ≤ b.toNat && b.toNat ≤ 0x30 + hi

/-- The value of a digit byte (R72). -/
def digitValue (b : Byte) : Nat := b.toNat - 0x30

/-- `ReadDigit(a, hi, cmd)` where the folded byte at index `a` is `b` (R114): the digit, or the state after the error
it raises, NO_TERMINATOR before RANGE_ERROR. -/
def readDigit (a hi : Nat) (cmd b : Byte) (s : State) : Except State Nat :=
  if pastEnd s a then .error (raiseError .noTerminator a 0 cmd s)
  else if isDigit hi b then .ok (digitValue b)
  else .error (raiseError .rangeError a b cmd s)

/-- `Dur(d)`, the exact product LEN[d] * (TEMPO + 1) (R115). -/
def duration (s : State) (len : Word) : Nat := len.toNat * (s.tempo.toNat + 1)

/-- The clamp of R122: an index below 0 or above MAX_NOTE moves inward by one. -/
def nudge (idx : Int) : Int :=
  if (maxNote : Int) < (if idx < 0 then idx + 1 else idx) then (if idx < 0 then idx + 1 else idx) - 1
  else if idx < 0 then idx + 1 else idx

/-- The note index of R122 after the clamp. -/
def noteIndex (letter : Letter) (m : Modifier) (octave : Nat) : Int :=
  nudge (semitone letter + modifierDelta m + octave * notesPerOctave)

/-- The end of an event: CNT <- LEN[d] * (TEMPO + 1), RATE <- rate, POS past the event's `n` bytes (R122, R124). -/
def playEvent (d : Nat) (rate : Word) (n : Nat) (s : State) : Host.Outcome State Fault Refusal :=
  match s.cfg.len[d]? with
  | none => .fault .tableIndex
  | some len =>
    if duration s len < 2 ^ 32 then
      .next (advance n { s with cnt := BitVec.ofNat 32 (duration s len), rate := rate })
    else .fault .durationRange

/-- `NoteEvent(L)` for the modifier and the digit byte the decoder found (R122). The lookahead fetch comes first,
then the digit (60_exceptions.md R186). -/
def noteEvent (letter : Letter) (m : Modifier) (digit : Byte) (s : State) : Host.Outcome State Fault Refusal :=
  if pastEnd s (s.pos.toNat + 1) then .next (raiseError .noTerminator (s.pos.toNat + 1) 0 (letterByte letter) s)
  else
    match readDigit (s.pos.toNat + 1 + modifierLength m) 9 (letterByte letter) digit s with
    | .error s' => .next s'
    | .ok d =>
      match s.rom.noteRate[(noteIndex letter m s.oct.toNat).toNat]? with
      | none => .fault .tableIndex
      | some rate => playEvent d rate (2 + modifierLength m) s

end Sys2Proof.Machine
end

