-- ==== Sys2Proof/Machine/Digits.lean ====
section
/-! DEFINITION. The commands of format FD (30_encoding.md R71): octave set, tempo set and rest (41_sequencer.md R120,
R121, R124). -/

namespace Sys2Proof.Machine

/-- OCT (R120). -/
def execOct (digit : Byte) (s : State) : Host.Outcome State Fault Refusal :=
  match readDigit (s.pos.toNat + 1) maxOctave 0x4F digit s with
  | .error s' => .next s'
  | .ok d => .next (advance 2 { s with oct := BitVec.ofNat 3 d })

/-- TEMPO (R121). -/
def execTempo (digit : Byte) (s : State) : Host.Outcome State Fault Refusal :=
  match readDigit (s.pos.toNat + 1) 9 0x54 digit s with
  | .error s' => .next s'
  | .ok d => .next (advance 2 { s with tempo := BitVec.ofNat 4 d })

/-- REST (R124). -/
def execRest (digit : Byte) (s : State) : Host.Outcome State Fault Refusal :=
  match readDigit (s.pos.toNat + 1) 9 0x52 digit s with
  | .error s' => .next s'
  | .ok d => playEvent d 0 2 s

end Sys2Proof.Machine
end

