-- ==== Sys2Proof/Machine/Marks.lean ====
section
/-! DEFINITION. The commands without operands: END and whitespace (41_sequencer.md R116, R117), and the octave steps
(R118, R119). -/

namespace Sys2Proof.Machine

/-- END (R116): DONE and RATE; POS stays at the NUL. -/
def execEnd (s : State) : Host.Outcome State Fault Refusal := .next { s with done := true, rate := 0 }

/-- Whitespace is skipped (R117). -/
def skipWhitespace (s : State) : Host.Outcome State Fault Refusal := .next (advance 1 s)

/-- WS.HT (R117). -/
def execWsHt (s : State) : Host.Outcome State Fault Refusal := skipWhitespace s
/-- WS.LF (R117). -/
def execWsLf (s : State) : Host.Outcome State Fault Refusal := skipWhitespace s
/-- WS.VT (R117). -/
def execWsVt (s : State) : Host.Outcome State Fault Refusal := skipWhitespace s
/-- WS.FF (R117). -/
def execWsFf (s : State) : Host.Outcome State Fault Refusal := skipWhitespace s
/-- WS.CR (R117). -/
def execWsCr (s : State) : Host.Outcome State Fault Refusal := skipWhitespace s
/-- WS.SP (R117). -/
def execWsSp (s : State) : Host.Outcome State Fault Refusal := skipWhitespace s

/-- OCTUP (R118): clamped at MAX_OCTAVE, never an error. -/
def execOctUp (s : State) : Host.Outcome State Fault Refusal :=
  .next (advance 1 { s with oct := if s.oct.toNat < maxOctave then s.oct + 1 else s.oct })

/-- OCTDN (R119): clamped at 0, never an error. -/
def execOctDn (s : State) : Host.Outcome State Fault Refusal :=
  .next (advance 1 { s with oct := if 0 < s.oct.toNat then s.oct - 1 else s.oct })

end Sys2Proof.Machine
end

