-- ==== Sys2Proof/Machine/Notes.lean ====
section
/-! DEFINITION. The seven note commands (41_sequencer.md R125 to R131), each `NoteEvent` of its letter (R122). -/

namespace Sys2Proof.Machine

/-- NOTE.C (R125). -/
def execNoteC (m : Modifier) (digit : Byte) (s : State) : Host.Outcome State Fault Refusal :=
  noteEvent .c m digit s

/-- NOTE.D (R126). -/
def execNoteD (m : Modifier) (digit : Byte) (s : State) : Host.Outcome State Fault Refusal :=
  noteEvent .d m digit s

/-- NOTE.E (R127). -/
def execNoteE (m : Modifier) (digit : Byte) (s : State) : Host.Outcome State Fault Refusal :=
  noteEvent .e m digit s

/-- NOTE.F (R128). -/
def execNoteF (m : Modifier) (digit : Byte) (s : State) : Host.Outcome State Fault Refusal :=
  noteEvent .f m digit s

/-- NOTE.G (R129). -/
def execNoteG (m : Modifier) (digit : Byte) (s : State) : Host.Outcome State Fault Refusal :=
  noteEvent .g m digit s

/-- NOTE.A (R130). -/
def execNoteA (m : Modifier) (digit : Byte) (s : State) : Host.Outcome State Fault Refusal :=
  noteEvent .a m digit s

/-- NOTE.B (R131). -/
def execNoteB (m : Modifier) (digit : Byte) (s : State) : Host.Outcome State Fault Refusal :=
  noteEvent .b m digit s

end Sys2Proof.Machine
end

