-- ==== Sys2Proof/Machine/Dispatch.lean ====
section
/-! DEFINITION. One arm per command: the meaning of each row of spec/opcode_table.json. -/

namespace Sys2Proof.Machine

def exec (i : Instr) (s : State) : Host.Outcome State Fault Refusal :=
  match i with
  | .endText => Sys2Proof.Machine.execEnd s
  | .wsHt => Sys2Proof.Machine.execWsHt s
  | .wsLf => Sys2Proof.Machine.execWsLf s
  | .wsVt => Sys2Proof.Machine.execWsVt s
  | .wsFf => Sys2Proof.Machine.execWsFf s
  | .wsCr => Sys2Proof.Machine.execWsCr s
  | .wsSp => Sys2Proof.Machine.execWsSp s
  | .octUp => Sys2Proof.Machine.execOctUp s
  | .octDn => Sys2Proof.Machine.execOctDn s
  | .oct digit => Sys2Proof.Machine.execOct digit s
  | .tempo digit => Sys2Proof.Machine.execTempo digit s
  | .rest digit => Sys2Proof.Machine.execRest digit s
  | .noteC m digit => Sys2Proof.Machine.execNoteC m digit s
  | .noteD m digit => Sys2Proof.Machine.execNoteD m digit s
  | .noteE m digit => Sys2Proof.Machine.execNoteE m digit s
  | .noteF m digit => Sys2Proof.Machine.execNoteF m digit s
  | .noteG m digit => Sys2Proof.Machine.execNoteG m digit s
  | .noteA m digit => Sys2Proof.Machine.execNoteA m digit s
  | .noteB m digit => Sys2Proof.Machine.execNoteB m digit s

end Sys2Proof.Machine
end

