-- ==== Sys2Proof/Machine/Wavetable.lean ====
section
/-! DEFINITION. The lookups of the wavetable bank: SelectLevel (40_wavetable.md R96), Sample (R98), and the PCM
quantizer (42_renderer.md R155, R156). -/

namespace Sys2Proof.Machine

/-- `SelectLevel(r)`: the lowest level whose threshold is at least r, clamped to the last level (R96). -/
def selectLevel (thr : List Word) (r : Word) : Nat :=
  min (thr.findIdx (fun t => decide (r.toNat ≤ t.toNat))) (thr.length - 1)

/-- i0, the table index of a phase: `p[31:FRAC_BITS]` (R98, 10_state.md R26). -/
def tableIndex (c : Config) (p : Word) : Nat := p.toNat / 2 ^ fracBits c

/-- i1, the next index, wrapping (R98). -/
def nextIndex (c : Config) (i : Nat) : Nat := (i + 1) % tableSize c

/-- fr, the interpolation fraction of a phase: `p & FRAC_MASK` (R98, 10_state.md R26). -/
def phaseFraction (c : Config) (p : Word) : Nat := p.toNat % 2 ^ fracBits c

/-- w, the weight of the next entry: `f32(fr) *f32 f32(2^-FRAC_BITS)` (R98). -/
def weight (c : Config) (p : Word) : Word := f32Mul (f32OfNat (phaseFraction c p)) (f32TwoPowNeg (fracBits c))

/-- `a +f32 ((b -f32 a) *f32 w)` (R98). -/
def interpolate (a b w : Word) : Word := f32Add a (f32Mul (f32Sub b a) w)

/-- `WT_ROM[k][i]` (10_state.md R41). -/
def waveEntry (s : State) (k i : Nat) : Option Word := (s.rom.wtRom[k]?).bind (fun t => t[i]?)

/-- `Sample(p, k)` (R98). An index outside WT_ROM is a fault (log 11); an entry outside [-1, 1] breaks R94 (a), and no
block exists for such a table (R100; log 12). -/
def sampleAt (s : State) (p : Word) (k : Nat) : Host.Outcome Word Fault Refusal :=
  match waveEntry s k (tableIndex s.cfg p), waveEntry s k (nextIndex s.cfg (tableIndex s.cfg p)) with
  | some a, some b =>
    if f32InUnit a && f32InUnit b then .next (interpolate a b (weight s.cfg p)) else .refused .invalidConfiguration
  | none, _ => .fault .tableIndex
  | some _, none => .fault .tableIndex

/-- AMP, the quantizer scale (00_scope.md R15). -/
def amp : Nat := 32767

/-- The integer of `Quantize(s)` after the two guards (R155). -/
def quantizeInt (x : Word) : Int := max (-32768) (min 32767 (f32Trunc (f32Mul x (f32OfNat amp))))

/-- `Quantize(s)`: the two's-complement code (R155, R156). -/
def quantize (x : Word) : Sample := BitVec.ofInt 16 (quantizeInt x)

/-- A consumer's widening of a sample, `sext_32(v)` (R156). -/
def widenSample (v : Sample) : Word := v.signExtend 32

end Sys2Proof.Machine
end

