-- ==== Sys2Proof/Machine/Tick.lean ====
section
/-! DEFINITION. The tick: sustain, the terminal check and the scan (41_sequencer.md R110 to R113), and the renderer's
tick step around it (42_renderer.md R151). A tick is one atomic step, whatever it scans (R110, log 9). -/

namespace Sys2Proof.Machine

/-- Sustain's write: CNT counts down and stays at 0 (R111). -/
def sustain (s : State) : State := { s with cnt := if s.cnt = 0 then 0 else s.cnt - 1 }

/-- What the tick step does after `Tick()` (42_renderer.md R151). The rate a tick returns is RATE after it (10_state.md
R24; log 21). -/
def finishTick (s : State) : State :=
  if s.done then { s with state := .done }
  else
    { s with
      lvl := if s.rate = 0 then s.lvl else BitVec.ofNat 5 (selectLevel s.rom.thr s.rate)
      subcnt := 0
      rstate := .emit }

/-- What follows a command in the scan (R113): an error has ended the step (60_exceptions.md R184), an event ends the
tick, and any other command lets the scan go on. -/
def afterCommand (i : Instr) (next : State → Host.Outcome State Fault Refusal) :
    Host.Outcome State Fault Refusal → Host.Outcome State Fault Refusal
  | .next s =>
    if s.state = .error then .next s
    else if i.endsScan then .next (finishTick s)
    else next s
  | .fault r => .fault r
  | .refused r => .refused r

/-- One iteration of the scan at POS (R113), with `next` the iterations after it. -/
def scanCommand (next : State → Host.Outcome State Fault Refusal) (s : State) : Host.Outcome State Fault Refusal :=
  if pastEnd s s.pos.toNat then .next (raiseError .noTerminator s.pos.toNat 0 0 s)
  else
    match decode (commandBytes s) with
    | .error (.illegal c) =>
      if bytesWritten s 1 then .next (raiseError .syntaxError s.pos.toNat c c s) else .fault .unwrittenText
    | .error .noByte => .fault .unwrittenText
    | .ok i => if bytesWritten s i.length then afterCommand i next (exec i s) else .fault .unwrittenText

/-- The scan, at most `n` iterations (R113). -/
def scanWithin : Nat → State → Host.Outcome State Fault Refusal
  | 0 => fun _ => .fault .scanExhausted
  | n + 1 => scanCommand (scanWithin n)

/-- The scan from POS; each iteration moves POS, so NLEN - POS + 1 iterations are enough (R113). -/
def scan (s : State) : Host.Outcome State Fault Refusal := scanWithin (s.nlen.toNat - s.pos.toNat + 1) s

/-- The tick step (42_renderer.md R151): sustain, the terminal check, then the scan. -/
def tickStep (s : State) : Host.Outcome State Fault Refusal :=
  if 0 < (sustain s).cnt.toNat then .next (finishTick (sustain s))
  else if (sustain s).done then .next (finishTick (sustain s))
  else scan (sustain s)

end Sys2Proof.Machine
end

