-- ==== Sys2Proof/Machine/Renderer.lean ====
section
/-! DEFINITION. The sample steps (42_renderer.md R152, R153), the phase accumulator (R154) and the choice of the
block's next step (R150). -/

namespace Sys2Proof.Machine

/-- OUTPUT_OVERFLOW as Append raises it (20_memory.md R56, 60_exceptions.md R185). -/
def outputOverflow (s : State) : State := raiseError .outputOverflow s.pos.toNat 0 0 s

/-- A sample of the tick has been emitted: SUBCNT + 1, and at TICK_SAMPLES the next tick is due (R152, R153). -/
def countSample (s : State) : State :=
  { s with
    subcnt := s.subcnt + 1
    rstate := if (s.subcnt + 1).toNat = s.cfg.tickSamples then .needTick else s.rstate }

/-- The phase accumulator's add, modulo 2^32 (R154). -/
def advancePhase (s : State) : State := { s with phase := s.phase + s.rate }

/-- The silent sample step (R152). -/
def silentStep (s : State) : Host.Outcome State Fault Refusal :=
  if sinkFull s then .next (outputOverflow s) else .next (countSample (appendSample 0 s))

/-- The voiced sample step (R153): sample, quantize, append, then advance the phase. -/
def voicedStep (s : State) : Host.Outcome State Fault Refusal :=
  match sampleAt s s.phase s.lvl.toNat with
  | .fault r => .fault r
  | .refused r => .refused r
  | .next x =>
    if sinkFull s then .next (outputOverflow s)
    else .next (countSample (advancePhase (appendSample (quantize x) s)))

/-- The block's next step (R150). In IDLE, DONE and ERROR the block takes none: every register keeps its value
(60_exceptions.md R196; log 7). -/
def blockStep (s : State) : Host.Outcome State Fault Refusal :=
  match s.state, s.rstate with
  | .busy, .needTick => tickStep s
  | .busy, .emit => if s.rate = 0 then silentStep s else voicedStep s
  | .idle, _ => .next s
  | .done, _ => .next s
  | .error, _ => .next s

end Sys2Proof.Machine
end

