-- ==== Sys2Proof/Machine/HostPort.lean ====
section
/-! DEFINITION. The host's side: the register window (10_state.md R34 to R40), its writes of the text buffer
(20_memory.md R51, R67) and hardware reset (70_reset_and_hazards.md R200). -/

namespace Sys2Proof.Machine

/-- An access the window takes: 32 bits, aligned, at an offset inside it (R40, 20_memory.md R50). -/
def windowAccess (offset bytes : Nat) : Bool := bytes == 4 && offset % 4 == 0 && decide (offset < 0x40)

/-- What a read of the register window returns (R34). CTRL and the reserved offsets read 0 (R35, R40). -/
def readRegister (s : State) (offset : Nat) : Word :=
  match offset with
  | 0x04 => statusWord s
  | 0x08 => s.nlen
  | 0x0C => s.outCount
  | 0x10 => s.errPos
  | 0x14 => errInfoWord s
  | 0x18 => seqStateWord s
  | 0x1C => s.pos
  | 0x20 => s.cnt
  | 0x24 => s.rate
  | 0x28 => s.phase
  | 0x2C => s.subcnt
  | _ => 0

/-- A write of CTRL: SOFT_RESET wins over START; other bits are ignored (R35). -/
def writeControl (value : Word) (s : State) : State :=
  if value.getLsbD 1 then softReset s else if value.getLsbD 0 then startRender s else s

/-- A write of NLEN: ignored while BUSY (R36). -/
def writeLength (value : Word) (s : State) : State := if s.state = .busy then s else { s with nlen := value }

/-- A write of the register window (R34); read-only and reserved offsets ignore it (R40). -/
def writeRegister (offset : Nat) (value : Word) (s : State) : State :=
  match offset with
  | 0x00 => writeControl value s
  | 0x08 => writeLength value s
  | _ => s

/-- A host write of one byte of the text buffer (20_memory.md R51): refused below NLEN while BUSY (R67, I12); index
2^32 - 1 lies above every NLEN and does not exist (00_scope.md R16; log 16). -/
def writeText (index : Word) (value : Byte) (s : State) : Host.Outcome State Fault Refusal :=
  if s.state = .busy ∧ index.toNat < s.nlen.toNat then .refused (.textBusy index)
  else if index.toNat = 2 ^ 32 - 1 then .fault .noTextAddress
  else .next { s with text := Memory.write s.text index.toNat value }

/-- One move of the host, or the block's step when the host makes none (R64). -/
def hostMove (m : HostMove) (s : State) : Host.Outcome State Fault Refusal :=
  match m with
  | .yield => blockStep s
  | .readRegister offset bytes =>
    if windowAccess offset bytes then .next { s with hostData := readRegister s offset }
    else .refused (.hostAccess offset bytes)
  | .writeRegister offset bytes value =>
    if windowAccess offset bytes then .next (writeRegister offset value s)
    else .refused (.hostAccess offset bytes)
  | .writeText index value => writeText index value s
  | .hardwareReset config => hardwareReset config s

/-- The machine's next step: the host's next pending move, or the block's step when none is pending (log 6). -/
def takeStep (s : State) : Host.Outcome State Fault Refusal :=
  match s.inbox with
  | [] => blockStep s
  | m :: rest => hostMove m { s with inbox := rest }

/-- Bytes stored from an index of the text buffer on. -/
def storeText : List Byte → Nat → List Host.Cell → List Host.Cell
  | [], _, mem => mem
  | b :: rest, a, mem => storeText rest (a + 1) (Memory.write mem a b)

/-- Where `State.withFetchWord` puts a word: POS, or index 0 when fewer than three bytes fit above POS (log 8). -/
def fetchIndex (s : State) : Nat := if s.pos.toNat + 3 ≤ 2 ^ 32 - 1 then s.pos.toNat else 0

/-- The machine with the instruction `w` as the text at `fetchIndex`, a tick due that parses it, and no host move
before it (log 8). -/
def loadWord (nbits w : Nat) (s : State) : State :=
  { s with
    text := storeText (tableWordBytes nbits w) (fetchIndex s) s.text
    pos := BitVec.ofNat 32 (fetchIndex s)
    nlen := BitVec.ofNat 32 (max s.nlen.toNat (fetchIndex s + 3))
    cnt := 0
    done := false
    rstate := .needTick
    state := .busy
    inbox := [] }

end Sys2Proof.Machine
end

