-- ==== Sys2Proof/Safety.lean ====
section
/-! DEFINITION. The terms that statements use: the invariant of the machine, a written text, the letter of a note
command, and the reference of WT_ROM over the reals (40_wavetable.md R91, R94 (d)). -/

namespace Sys2Proof.Machine

/-- What every step keeps: a valid configuration with the tables built from it, and each register in the range its
rule gives. -/
structure State.Inv (s : State) : Prop where
  /-- 40_wavetable.md R100, with the properties of WT_ROM in R94 -/
  cfgValid : configValid s.cfg = true
  /-- the tables are never written after Build (10_state.md R41) -/
  romBuilt : s.rom = buildRoms s.cfg
  /-- 10_state.md R22 -/
  octLegal : s.oct.toNat ≤ maxOctave
  /-- 10_state.md R23 -/
  tempoLegal : s.tempo.toNat ≤ 9
  /-- 20_memory.md R53, while a render runs -/
  posLegal : s.state = .busy → s.pos.toNat ≤ s.nlen.toNat
  /-- 10_state.md R28 -/
  lvlLegal : s.lvl.toNat < s.cfg.nLevels
  /-- 10_state.md R29 -/
  subcntLegal : s.subcnt.toNat ≤ s.cfg.tickSamples
  /-- a tick that is being emitted has samples left (42_renderer.md R152, R153) -/
  emitLegal : s.state = .busy → s.rstate = .emit → s.subcnt.toNat < s.cfg.tickSamples
  /-- 20_memory.md R56 -/
  countLegal : s.outCount.toNat ≤ outputLimit s.cfg
  /-- every sink index below OUT_COUNT holds a sample (20_memory.md R64) -/
  sinkWritten : ∀ j < s.outCount.toNat, (Memory.read s.sink j).isSome
  /-- 10_state.md R31, R32 -/
  errorLegal : s.state = .error ↔ s.errCode ≠ .noError
  /-- 10_state.md R27, R31 -/
  doneLegal : s.done = true ↔ s.state = .done
  /-- the canonical form of the text buffer -/
  textWf : Memory.wf s.text = true
  /-- the canonical form of the sink -/
  sinkWf : Memory.wf s.sink = true

/-- Every text byte below NLEN has been written, as the host must do before START (70_reset_and_hazards.md R203). -/
def State.TextWritten (s : State) : Prop := ∀ a < s.nlen.toNat, (textByte s a).isSome

/-- The block is about to parse a command: a tick is due and no event is in progress (41_sequencer.md R111 to R113),
and the host makes no move first. -/
structure State.AtCommand (s : State) : Prop where
  busy : s.state = .busy
  tickDue : s.rstate = .needTick
  notDone : s.done = false
  noEvent : s.cnt.toNat ≤ 1
  noMove : s.inbox = []

/-- The block is about to emit a sample (42_renderer.md R152, R153), and the host makes no move first. -/
structure State.AtSample (s : State) : Prop where
  busy : s.state = .busy
  emitting : s.rstate = .emit
  noMove : s.inbox = []

/-- The note command of a letter (30_encoding.md R75). -/
def noteInstr : Letter → Modifier → Byte → Instr
  | .c => .noteC
  | .d => .noteD
  | .e => .noteE
  | .f => .noteF
  | .g => .noteG
  | .a => .noteA
  | .b => .noteB

/-- The digit byte of a value (30_encoding.md R72). -/
def digitByte (d : Nat) : Byte := BitVec.ofNat 8 (0x30 + d)

/-- The illegal space of the command byte, as 30_encoding.md R76 lists it. -/
def inIllegalSpace (c : Byte) : Bool :=
  (0x01 ≤ c.toNat && c.toNat ≤ 0x08) || (0x0E ≤ c.toNat && c.toNat ≤ 0x1F) || (0x21 ≤ c.toNat && c.toNat ≤ 0x3B)
    || c.toNat == 0x3D || (0x3F ≤ c.toNat && c.toNat ≤ 0x40) || (0x48 ≤ c.toNat && c.toNat ≤ 0x4E)
    || c.toNat == 0x50 || c.toNat == 0x51 || c.toNat == 0x53 || 0x55 ≤ c.toNat

/-- `raw` is the unnormalized wave of level k over the reals (40_wavetable.md R91). -/
def IsRawWave (c : Config) (k : Nat) (raw : Nat → ℝ) : Prop :=
  ∀ i, raw i = ∑ h ∈ (Finset.range (harmonicCount c k + 1)).filter (fun h => h % 2 = 1),
    Real.sin (2 * Real.pi * h * i / tableSize c) / h

/-- `m` is the largest absolute value of a raw wave over its table (R91). -/
def IsWavePeak (c : Config) (raw : Nat → ℝ) (m : ℝ) : Prop :=
  (∀ i < tableSize c, |raw i| ≤ m) ∧ ∃ i < tableSize c, |raw i| = m

/-- `v` is the finite binary32 nearest to the real x, the even one of two equally near (00_scope.md R19). -/
def IsNearestBinary32 (x : ℝ) (v : Word) : Prop :=
  v.toNat % 2 ^ 31 < 0x7F800000 ∧
  ∀ w : Word, w.toNat % 2 ^ 31 < 0x7F800000 →
    |(f32Exact v : ℝ) - x * 2 ^ 149| ≤ |(f32Exact w : ℝ) - x * 2 ^ 149| ∧
    (f32Exact w ≠ f32Exact v → |(f32Exact v : ℝ) - x * 2 ^ 149| = |(f32Exact w : ℝ) - x * 2 ^ 149| →
      v.toNat % 2 = 0)

/-- R94 (d) over the reals: each WT_ROM entry lies within WT_TOL of the R91 value, the binary32 nearest to raw / m. A
step decides it by `waveTablesNear`; every valid configuration meets it (`nearReference_of_configValid`; log 23). -/
def NearReference (c : Config) : Prop :=
  ∀ k < c.nLevels, ∃ raw m, IsRawWave c k raw ∧ IsWavePeak c raw m ∧
    ∀ i < tableSize c, ∃ v e, IsNearestBinary32 (raw i / m) v ∧
      (c.wtRom[k]?).bind (fun t => t[i]?) = some e ∧
      |(f32Exact e : ℝ) - f32Exact v| * c.wtTol.den ≤ c.wtTol.num * 2 ^ 149

end Sys2Proof.Machine
end

