-- ==== Sys2Proof/Certificates/Slice0/Obligations.lean ====
section
/-! DEFINITION. The statements for the provers. Each docstring names the rules of spec/ it comes from. A statement with
hypotheses has its witnesses in Sys2Proof/Tests/Slice0.lean. -/

open Sys2Proof Sys2Proof.Machine

/-! ### Encoding -/

/-- Decode and encode agree: the decoder reads back every well-formed command from its bytes, whatever follows
(30_encoding.md sections 1 to 3). -/
def Obligations.DecodeInvertsEncode : Prop :=
  ∀ (i : Instr) (rest : List Byte), i.wellFormed = true → decode (encode i ++ rest) = .ok i

/-- Every command the decoder answers is well-formed (30_encoding.md R72, R73). -/
def Obligations.DecodedCommandIsWellFormed : Prop :=
  ∀ (bytes : List Byte) (i : Instr), decode bytes = .ok i → i.wellFormed = true

/-- The encoder gives back the folded bytes the command was read from (30_encoding.md R71; 20_memory.md R54). -/
def Obligations.EncodeInvertsDecode : Prop :=
  ∀ (bytes : List Byte) (i : Instr), decode bytes = .ok i → i.length ≤ bytes.length →
    encode i = (bytes.take i.length).map fold

/-- Total opcode map (30_encoding.md R76, R77): a folded byte of the illegal space is rejected by name, every other
byte selects a command. -/
def Obligations.IllegalSpaceIsRejected : Prop :=
  ∀ (b : Byte) (operands : List Byte),
    (inIllegalSpace (fold b) = true → decode (b :: operands) = .error (.illegal (fold b))) ∧
    (inIllegalSpace (fold b) = false → ∃ i, decode (b :: operands) = .ok i)

/-- Case folding (20_memory.md R54). -/
def Obligations.FoldMapsLowercaseOnly : Prop :=
  ∀ b : Byte,
    (0x61 ≤ b.toNat → b.toNat ≤ 0x7A → (fold b).toNat = b.toNat - 0x20) ∧
    (b.toNat < 0x61 ∨ 0x7A < b.toNat → fold b = b)

/-- Words written out from the formats of 30_encoding.md R71 and the map of R75 decode to their commands. -/
def Obligations.WrittenWordsDecode : Prop :=
  decode [0x00] = .ok .endText ∧ decode [0x20] = .ok .wsSp ∧ decode [0x3E] = .ok .octUp ∧
  decode [0x6F, 0x33] = .ok (.oct 0x33) ∧ decode [0x54, 0x34] = .ok (.tempo 0x34) ∧
  decode [0x52, 0x30] = .ok (.rest 0x30) ∧ decode [0x43, 0x38, 0x00] = .ok (.noteC .natural 0x38) ∧
  decode [0x62, 0x2D, 0x31] = .ok (.noteB .minus 0x31) ∧ decode [0x47, 0x2B, 0x39] = .ok (.noteG .plus 0x39)

/-! ### The commands -/

/-- END (41_sequencer.md R116): DONE and RATE are written, nothing else; it ends the scan. -/
def Obligations.EndSetsDone : Prop :=
  (∀ rest, decode (0x00 :: rest) = .ok .endText) ∧ Instr.endText.endsScan = true ∧
  ∀ s : State, exec .endText s = .next { s with done := true, rate := 0 }

/-- Whitespace (41_sequencer.md R117): each of the six bytes moves POS by one and the scan goes on. -/
def Obligations.WhitespaceSkips : Prop :=
  ∀ (b : Byte) (i : Instr),
    (b, i) ∈ [((0x09 : Byte), Instr.wsHt), (0x0A, .wsLf), (0x0B, .wsVt), (0x0C, .wsFf), (0x0D, .wsCr), (0x20, .wsSp)] →
    (∀ rest, decode (b :: rest) = .ok i) ∧ i.endsScan = false ∧
    ∀ s : State, exec i s = .next { s with pos := s.pos + 1 }

/-- OCTUP (41_sequencer.md R118): OCT + 1, at MAX_OCTAVE = 4 no change; POS + 1; never an error. -/
def Obligations.OctaveUpClamps : Prop :=
  (∀ rest, decode (0x3E :: rest) = .ok .octUp) ∧ Instr.octUp.endsScan = false ∧
  ∀ s : State, s.oct.toNat ≤ 4 → ∃ o : BitVec 3, o.toNat = min 4 (s.oct.toNat + 1) ∧
    exec .octUp s = .next { s with oct := o, pos := s.pos + 1 }

/-- OCTDN (41_sequencer.md R119): OCT - 1, at 0 no change; POS + 1; never an error. -/
def Obligations.OctaveDownClamps : Prop :=
  (∀ rest, decode (0x3C :: rest) = .ok .octDn) ∧ Instr.octDn.endsScan = false ∧
  ∀ s : State, ∃ o : BitVec 3, o.toNat = s.oct.toNat - 1 ∧
    exec .octDn s = .next { s with oct := o, pos := s.pos + 1 }

/-- OCT with a legal digit (41_sequencer.md R120): OCT is the digit, POS + 2, nothing else. -/
def Obligations.OctaveSetCompletes : Prop :=
  ∀ (s : State) (d : Nat), d ≤ 4 → s.pos.toNat + 1 < s.nlen.toNat →
    exec (.oct (digitByte d)) s = .next { s with oct := BitVec.ofNat 3 d, pos := s.pos + 2 }

/-- TEMPO with a legal digit (41_sequencer.md R121): TEMPO is the digit, POS + 2, nothing else. -/
def Obligations.TempoSetCompletes : Prop :=
  ∀ (s : State) (d : Nat), d ≤ 9 → s.pos.toNat + 1 < s.nlen.toNat →
    exec (.tempo (digitByte d)) s = .next { s with tempo := BitVec.ofNat 4 d, pos := s.pos + 2 }

/-- REST with a legal digit (41_sequencer.md R124, R115): CNT is LEN[d] * (TEMPO + 1), RATE is 0, POS + 2, nothing
else. -/
def Obligations.RestCompletes : Prop :=
  ∀ (s : State) (d : Nat), s.Inv → d ≤ 9 → s.pos.toNat + 1 < s.nlen.toNat →
    ∃ (len n : Word), s.cfg.len[d]? = some len ∧ n.toNat = len.toNat * (s.tempo.toNat + 1) ∧ 1 ≤ n.toNat ∧
      exec (.rest (digitByte d)) s = .next { s with cnt := n, rate := 0, pos := s.pos + 2 }

/-- OCT, TEMPO and REST with a missing or illegal digit (41_sequencer.md R114, R120, R121, R124): NO_TERMINATOR when
the digit's index is not below NLEN, else RANGE_ERROR at that index with the folded byte and the command byte. -/
def Obligations.DigitCommandErrors : Prop :=
  ∀ (command : Byte → Instr) (cmd : Byte) (hi : Nat),
    (command, cmd, hi) ∈ [(Instr.oct, (0x4F : Byte), 4), (Instr.tempo, 0x54, 9), (Instr.rest, 0x52, 9)] →
    ∀ (s : State) (b : Byte),
      (s.nlen.toNat ≤ s.pos.toNat + 1 →
        exec (command b) s = .next { s with
          errCode := .noTerminator, errPos := s.pos + 1, errByte := 0, errCmd := cmd, pos := s.pos + 1, state := .error }) ∧
      (s.pos.toNat + 1 < s.nlen.toNat → b.toNat < 0x30 ∨ 0x30 + hi < b.toNat →
        exec (command b) s = .next { s with
          errCode := .rangeError, errPos := s.pos + 1, errByte := b, errCmd := cmd, pos := s.pos + 1, state := .error })

/-- A note with a legal digit (41_sequencer.md R122, R123, R125 to R131): the index is semitone + delta + 12 * OCT,
moved inward by one below 0 and above 59; CNT is LEN[d] * (TEMPO + 1), RATE is NOTE_RATE at the index and no silence,
POS moves past the command, nothing else. -/
def Obligations.NoteCompletes : Prop :=
  ∀ (s : State) (l : Letter) (m : Modifier) (d : Nat), s.Inv → d ≤ 9 →
    s.pos.toNat + 1 + modifierLength m < s.nlen.toNat →
    ∃ (raw : Int) (idx : Nat) (len n rate : Word),
      raw = semitone l + modifierDelta m + 12 * s.oct.toNat ∧
      (idx : Int) = (if raw < 0 then raw + 1 else if 59 < raw then raw - 1 else raw) ∧
      idx ≤ 59 ∧ s.rom.noteRate[idx]? = some rate ∧ 1 ≤ rate.toNat ∧
      s.cfg.len[d]? = some len ∧ n.toNat = len.toNat * (s.tempo.toNat + 1) ∧ 1 ≤ n.toNat ∧
      exec (noteInstr l m (digitByte d)) s =
        .next { s with cnt := n, rate := rate, pos := s.pos + BitVec.ofNat 32 (2 + modifierLength m) }

/-- A note that raises an error (41_sequencer.md R122, 60_exceptions.md R186): the lookahead fetch first, then the
digit fetch, then the digit check. -/
def Obligations.NoteErrorPriority : Prop :=
  ∀ (s : State) (l : Letter) (m : Modifier) (b : Byte),
    (s.nlen.toNat ≤ s.pos.toNat + 1 →
      exec (noteInstr l m b) s = .next { s with
        errCode := .noTerminator, errPos := s.pos + 1, errByte := 0, errCmd := letterByte l,
        pos := s.pos + 1, state := .error }) ∧
    (m ≠ .natural → s.nlen.toNat = s.pos.toNat + 2 →
      exec (noteInstr l m b) s = .next { s with
        errCode := .noTerminator, errPos := s.pos + 2, errByte := 0, errCmd := letterByte l,
        pos := s.pos + 2, state := .error }) ∧
    (s.pos.toNat + 1 + modifierLength m < s.nlen.toNat → b.toNat < 0x30 ∨ 0x39 < b.toNat →
      exec (noteInstr l m b) s = .next { s with
        errCode := .rangeError, errPos := s.pos + BitVec.ofNat 32 (1 + modifierLength m), errByte := b,
        errCmd := letterByte l, pos := s.pos + BitVec.ofNat 32 (1 + modifierLength m), state := .error })

/-- The pitch clamp (41_sequencer.md R122): C- at octave 0 plays index 0, B# and B+ at octave 4 play index 59; for every
note the index is semitone + delta + 12 * octave, one more below 0, one less above 59, and exactly that in between. -/
def Obligations.PitchClampSaturates : Prop :=
  noteIndex .c .minus 0 = 0 ∧ noteIndex .b .hash 4 = 59 ∧ noteIndex .b .plus 4 = 59 ∧
  noteIndex .b .hash 1 = 24 ∧ noteIndex .c .minus 2 = 23 ∧
  ∀ (l : Letter) (m : Modifier) (o : Nat) (raw : Int), o ≤ 4 → raw = semitone l + modifierDelta m + 12 * o →
    noteIndex l m o = (if raw < 0 then raw + 1 else if 59 < raw then raw - 1 else raw) ∧
    0 ≤ noteIndex l m o ∧ noteIndex l m o ≤ 59

/-- The frame of every command (10_state.md R20, 20_memory.md R51): no command writes a register of the renderer, the
configuration, the tables, NLEN, OUT_COUNT, a byte of the text or a sample of the sink; STATE changes to ERROR only, and
the error capture registers change only then. -/
def Obligations.CommandFrame : Prop :=
  ∀ (i : Instr) (s t : State), exec i s = .next t →
    t.phase = s.phase ∧ t.lvl = s.lvl ∧ t.subcnt = s.subcnt ∧ t.rstate = s.rstate ∧ t.outCount = s.outCount ∧
    t.nlen = s.nlen ∧ t.cfg = s.cfg ∧ t.rom = s.rom ∧ t.inbox = s.inbox ∧ t.hostData = s.hostData ∧
    (t.state = s.state ∨ t.state = .error) ∧
    (t.state ≠ .error → t.errCode = s.errCode ∧ t.errPos = s.errPos ∧ t.errByte = s.errByte ∧ t.errCmd = s.errCmd) ∧
    (∀ a, textByte t a = textByte s a) ∧ (∀ j, Memory.read t.sink j = Memory.read s.sink j)

/-- Which commands write which register (10_state.md R22 to R25, R27): OCT only the three octave commands, TEMPO only
TEMPO, CNT only a rest or a note, RATE only an event or END, DONE only END. -/
def Obligations.RegisterWriters : Prop :=
  ∀ (i : Instr) (s t : State), exec i s = .next t →
    (t.oct ≠ s.oct → i = .octUp ∨ i = .octDn ∨ ∃ d, i = .oct d) ∧
    (t.tempo ≠ s.tempo → ∃ d, i = .tempo d) ∧
    (t.cnt ≠ s.cnt → (∃ d, i = .rest d) ∨ ∃ l m d, i = noteInstr l m d) ∧
    (t.rate ≠ s.rate → i = .endText ∨ (∃ d, i = .rest d) ∨ ∃ l m d, i = noteInstr l m d) ∧
    (t.done ≠ s.done → i = .endText)

/-- Error entry by a command (60_exceptions.md R184, 41_sequencer.md R133): the capture registers, POS at the error
position and STATE, and no other register; the error is RANGE_ERROR or NO_TERMINATOR. -/
def Obligations.CommandErrorEntry : Prop :=
  ∀ (i : Instr) (s t : State), s.state ≠ .error → exec i s = .next t → t.state = .error →
    ∃ (code : ErrorCode) (p : Word) (byte cmd : Byte),
      (code = .rangeError ∨ (code = .noTerminator ∧ byte = 0)) ∧
      t = { s with errCode := code, errPos := p, errByte := byte, errCmd := cmd, pos := p, state := .error }

/-! ### The tick -/

/-- A sustained tick (41_sequencer.md R111, 42_renderer.md R151): CNT counts down, the level is selected again for a
voiced event, no byte is fetched, and the tick's samples are due. -/
def Obligations.SustainedTick : Prop :=
  ∀ s : State, s.state = .busy → s.rstate = .needTick → s.done = false → s.inbox = [] → 2 ≤ s.cnt.toNat →
    step s = .next { s with
      cnt := s.cnt - 1
      lvl := if s.rate = 0 then s.lvl else BitVec.ofNat 5 (selectLevel s.rom.thr s.rate)
      subcnt := 0
      rstate := .emit }

/-- A tick when DONE is already set (41_sequencer.md R112, 42_renderer.md R151): the render ends, and only CNT is
counted down. -/
def Obligations.TickAfterDone : Prop :=
  ∀ s : State, s.state = .busy → s.rstate = .needTick → s.done = true → s.inbox = [] →
    step s = .next { s with cnt := if s.cnt = 0 then 0 else s.cnt - 1, state := .done }

/-- A step runs the decoded instruction (41_sequencer.md R113, 42_renderer.md R151): where a tick parses a command
whose bytes are written, the step is `exec` of it, with CNT counted down to 0, and then: an error ends the step; an
event or END ends the tick; after any other command the step goes on as from the state it left. -/
def Obligations.StepRunsDecodedInstruction : Prop :=
  ∀ (s : State) (i : Instr), s.AtCommand → s.pos.toNat < s.nlen.toNat → decode (commandBytes s) = .ok i →
    bytesWritten s i.length = true →
    i.wellFormed = true ∧
    (∀ r, exec i { s with cnt := 0 } = .fault r → step s = .fault r) ∧
    ∀ t, exec i { s with cnt := 0 } = .next t →
      (t.state = .error → step s = .next t) ∧
      (t.state ≠ .error → i.endsScan = true → step s = .next (finishTick t)) ∧
      (t.state ≠ .error → i.endsScan = false → t.AtCommand ∧ step s = step t)

/-- An illegal command byte (41_sequencer.md R132, 60_exceptions.md R181): SYNTAX_ERROR at its index with the folded
byte twice, and no register of the sequencer but the counted-down CNT. -/
def Obligations.IllegalByteRaisesSyntaxError : Prop :=
  ∀ (s : State) (b : Byte), s.AtCommand → s.pos.toNat < s.nlen.toNat → textByte s s.pos.toNat = some b →
    inIllegalSpace (fold b) = true →
    step s = .next { s with
      cnt := 0, errCode := .syntaxError, errPos := s.pos, errByte := fold b, errCmd := fold b, state := .error }

/-- A scan that reaches the end of the buffer (60_exceptions.md R183, 20_memory.md R52): NO_TERMINATOR at POS. -/
def Obligations.MissingTerminatorRaisesError : Prop :=
  ∀ s : State, s.AtCommand → s.nlen.toNat ≤ s.pos.toNat →
    step s = .next { s with
      cnt := 0, errCode := .noTerminator, errPos := s.pos, errByte := 0, errCmd := 0, state := .error }

/-- The terminal tick (42_renderer.md R151, 41_sequencer.md R116, 60_exceptions.md R180): at a NUL the render ends in
DONE with no error, POS stays at the NUL and no sample is appended. -/
def Obligations.NulEndsRender : Prop :=
  ∀ s : State, s.AtCommand → s.pos.toNat < s.nlen.toNat → textByte s s.pos.toNat = some 0 →
    step s = .next { s with cnt := 0, done := true, rate := 0, state := .done }

/-! ### The renderer and the wavetable bank -/

/-- The silent sample step (42_renderer.md R152): one zero at index OUT_COUNT, every other index unchanged; PHASE is
not written. -/
def Obligations.SilentSampleStep : Prop :=
  ∀ s : State, s.Inv → s.AtSample → s.rate = 0 → s.outCount.toNat ≠ outputLimit s.cfg →
    ∃ sink, Memory.read sink s.outCount.toNat = some 0 ∧
      (∀ j, j ≠ s.outCount.toNat → Memory.read sink j = Memory.read s.sink j) ∧
      step s = .next { s with
        sink := sink
        outCount := s.outCount + 1
        subcnt := s.subcnt + 1
        rstate := if s.subcnt.toNat + 1 = s.cfg.tickSamples then .needTick else .emit }

/-- The voiced sample step (42_renderer.md R153, R154; 40_wavetable.md R98): the sample is the quantized
a + (b - a) * w of the two table entries at the phase, PHASE moves by RATE modulo 2^32. -/
def Obligations.VoicedSampleStep : Prop :=
  ∀ s : State, s.Inv → s.AtSample → s.rate ≠ 0 → s.outCount.toNat ≠ outputLimit s.cfg →
    ∃ (a b : Word) (sink : Memory 16),
      waveEntry s s.lvl.toNat (s.phase.toNat / 2 ^ fracBits s.cfg) = some a ∧
      waveEntry s s.lvl.toNat ((s.phase.toNat / 2 ^ fracBits s.cfg + 1) % 2 ^ s.cfg.tableBits) = some b ∧
      Memory.read sink s.outCount.toNat =
        some (quantize (f32Add a (f32Mul (f32Sub b a)
          (f32Mul (f32OfNat (s.phase.toNat % 2 ^ fracBits s.cfg)) (f32TwoPowNeg (fracBits s.cfg)))))) ∧
      (∀ j, j ≠ s.outCount.toNat → Memory.read sink j = Memory.read s.sink j) ∧
      step s = .next { s with
        sink := sink
        outCount := s.outCount + 1
        phase := BitVec.ofNat 32 ((s.phase.toNat + s.rate.toNat) % 2 ^ 32)
        subcnt := s.subcnt + 1
        rstate := if s.subcnt.toNat + 1 = s.cfg.tickSamples then .needTick else .emit }

/-- OUTPUT_OVERFLOW (60_exceptions.md R185, 20_memory.md R56): at OUT_COUNT = min(OUT_CAPACITY, 2^32 - 1) a sample step
raises it and writes nothing but the capture registers and STATE. -/
def Obligations.FullSinkRaisesOverflow : Prop :=
  ∀ s : State, s.Inv → s.AtSample →
    s.outCount.toNat = (match s.cfg.outCapacity with | none => 2 ^ 32 - 1 | some n => min n (2 ^ 32 - 1)) →
    step s = .next { s with
      errCode := .outputOverflow, errPos := s.pos, errByte := 0, errCmd := 0, state := .error }

/-- The SelectLevel guarantee (40_wavetable.md R97). -/
def Obligations.SelectLevelGuarantee : Prop :=
  ∀ (c : Config) (r : Word), configValid c = true → r ≠ 0 →
    selectLevel (buildRoms c).thr r < c.nLevels ∧
    (∃ t, (buildRoms c).thr[selectLevel (buildRoms c).thr r]? = some t ∧ r.toNat ≤ t.toNat) ∧
    ∀ k < selectLevel (buildRoms c).thr r, ∃ t, (buildRoms c).thr[k]? = some t ∧ t.toNat < r.toNat

/-- Every lookup of Sample is inside the table (40_wavetable.md R98): both indices are in range, the last index
wraps to 0, and each entry is a binary32 in [-1, 1]. -/
def Obligations.SampleLookupsInRange : Prop :=
  ∀ (s : State) (p : Word) (k : Nat), configValid s.cfg = true → s.rom = buildRoms s.cfg → k < s.cfg.nLevels →
    tableIndex s.cfg p < tableSize s.cfg ∧
    (tableIndex s.cfg p = tableSize s.cfg - 1 → nextIndex s.cfg (tableIndex s.cfg p) = 0) ∧
    (tableIndex s.cfg p ≠ tableSize s.cfg - 1 → nextIndex s.cfg (tableIndex s.cfg p) = tableIndex s.cfg p + 1) ∧
    ∃ a b, waveEntry s k (tableIndex s.cfg p) = some a ∧
      waveEntry s k (nextIndex s.cfg (tableIndex s.cfg p)) = some b ∧
      f32InUnit a = true ∧ f32InUnit b = true ∧
      sampleAt s p k = .next (interpolate a b (weight s.cfg p))

/-- At fraction 0 the sample is exactly the table entry (40_wavetable.md R98); an entry -0.0 gives a zero of either
sign. -/
def Obligations.ZeroFractionGivesEntry : Prop :=
  ∀ (c : Config) (p a b : Word), f32InUnit a = true → f32InUnit b = true → phaseFraction c p = 0 →
    (a ≠ 0x80000000 → interpolate a b (weight c p) = a) ∧
    (a = 0x80000000 → interpolate a b (weight c p) = 0x00000000 ∨ interpolate a b (weight c p) = 0x80000000)

/-- The quantizer on samples in [-1, 1] stays within ±32767: -32768 is never produced (42_renderer.md R155). -/
def Obligations.QuantizeStaysSymmetric : Prop :=
  ∀ x : Word, f32InUnit x = true → -32767 ≤ quantizeInt x ∧ quantizeInt x ≤ 32767

/-- Corner values of the quantizer (42_renderer.md R155): 1.0, -1.0, 0.5, -0.5, 0.375, +0.0, -0.0. -/
def Obligations.QuantizeCorners : Prop :=
  quantizeInt 0x3F800000 = 32767 ∧ quantizeInt 0xBF800000 = -32767 ∧ quantizeInt 0x3F000000 = 16383 ∧
  quantizeInt 0xBF000000 = -16383 ∧ quantizeInt 0x3EC00000 = 12287 ∧ quantizeInt 0 = 0 ∧ quantizeInt 0x80000000 = 0

/-- A tick emits exactly TICK_SAMPLES samples (42_renderer.md R150, R159, R161): from the first sample of a tick, that
many steps append that many samples, all zero for a silent tick, and then the next tick is due; PHASE has moved by
TICK_SAMPLES * RATE modulo 2^32 for a voiced tick and not at all for a silent one. -/
def Obligations.TickEmitsTickSamples : Prop :=
  ∀ s : State, s.Inv → s.AtSample → s.subcnt = 0 → s.outCount.toNat + s.cfg.tickSamples ≤ outputLimit s.cfg →
    ∃ sink, Host.Core.run Sys2Proof.core s.cfg.tickSamples s = .next { s with
        sink := sink
        outCount := s.outCount + BitVec.ofNat 32 s.cfg.tickSamples
        phase := s.phase + BitVec.ofNat 32 s.cfg.tickSamples * s.rate
        subcnt := BitVec.ofNat 32 s.cfg.tickSamples
        rstate := .needTick } ∧
      (∀ j, j < s.outCount.toNat → Memory.read sink j = Memory.read s.sink j) ∧
      (∀ j, s.outCount.toNat + s.cfg.tickSamples ≤ j → Memory.read sink j = Memory.read s.sink j) ∧
      ∀ j, s.outCount.toNat ≤ j → j < s.outCount.toNat + s.cfg.tickSamples →
        ∃ v, Memory.read sink j = some v ∧ (s.rate = 0 → v = 0)

/-- Ticks per event (41_sequencer.md R134, 42_renderer.md R159): from the first sample of an event with CNT = D, the
block plays D ticks in all at one RATE, D * TICK_SAMPLES samples, and stands before the tick that parses the next
command, without having moved POS, OCT or TEMPO. -/
def Obligations.EventLastsItsDuration : Prop :=
  ∀ s : State, s.Inv → s.AtSample → s.subcnt = 0 → 1 ≤ s.cnt.toNat →
    s.outCount.toNat + s.cnt.toNat * s.cfg.tickSamples ≤ outputLimit s.cfg →
    ∃ t, Host.Core.run Sys2Proof.core (s.cnt.toNat * s.cfg.tickSamples + (s.cnt.toNat - 1)) s = .next t ∧
      t.AtCommand ∧ t.cnt = 1 ∧ t.rate = s.rate ∧ t.pos = s.pos ∧ t.oct = s.oct ∧ t.tempo = s.tempo ∧
      t.outCount.toNat = s.outCount.toNat + s.cnt.toNat * s.cfg.tickSamples ∧
      t.phase = s.phase + s.cnt * BitVec.ofNat 32 s.cfg.tickSamples * s.rate

/-- Samples below OUT_COUNT are final (20_memory.md R64): no step of the block changes one, and OUT_COUNT never goes
down. -/
def Obligations.AppendedSamplesAreFinal : Prop :=
  ∀ s t : State, s.Inv → s.inbox = [] → step s = .next t →
    s.outCount.toNat ≤ t.outCount.toNat ∧ ∀ j < s.outCount.toNat, Memory.read t.sink j = Memory.read s.sink j

/-- The block's steps never write the text, NLEN, the configuration or the tables (20_memory.md R51, 10_state.md R36,
R41). -/
def Obligations.BlockNeverWritesItsProgram : Prop :=
  ∀ s t : State, s.inbox = [] → step s = .next t →
    (∀ a, textByte t a = textByte s a) ∧ t.nlen = s.nlen ∧ t.cfg = s.cfg ∧ t.rom = s.rom

/-! ### Build -/

/-- The note table (40_wavetable.md R99): NOTE_RATE[n] is the floor of NOTE0_FREQ * 2^(n/12) * 2^32 / SAMPLE_RATE over
the reals. The configuration gives NOTE0_FREQ by its twelfth power (log 3). -/
def Obligations.NoteTableFormula : Prop :=
  ∀ (c : Config) (n : Nat) (note0Freq : ℝ), configValid c = true → n < 60 → 0 < note0Freq →
    note0Freq ^ 12 * c.note0Pow12.den = c.note0Pow12.num →
    ∃ r : Word, (buildRoms c).noteRate[n]? = some r ∧ 1 ≤ r.toNat ∧
      (r.toNat : ℤ) = ⌊note0Freq * (2 : ℝ) ^ ((n : ℝ) / 12) * 2 ^ 32 / c.sampleRate⌋

/-- The thresholds (40_wavetable.md R93, R100): THR[k] is the floor of BASE_FREQ * 2^k * 2^32 / SAMPLE_RATE below the
last level, the last is 0xFFFFFFFF, and they strictly increase. -/
def Obligations.ThresholdFormula : Prop :=
  ∀ c : Config, configValid c = true →
    (∀ k, k + 1 < c.nLevels → ∃ t : Word, (buildRoms c).thr[k]? = some t ∧
      (t.toNat : ℤ) = ⌊(c.baseFreq.num : ℚ) / c.baseFreq.den * 2 ^ k * 2 ^ 32 / c.sampleRate⌋) ∧
    (buildRoms c).thr[c.nLevels - 1]? = some 0xFFFFFFFF ∧
    (∀ k t u, (buildRoms c).thr[k]? = some t → (buildRoms c).thr[k + 1]? = some u → t.toNat < u.toNat)

/-! ### The host's side -/

/-- START (42_renderer.md R157, 70_reset_and_hazards.md R208): ignored while BUSY; otherwise every per-render register
is re-initialised and the render begins. -/
def Obligations.StartBeginsRender : Prop :=
  ∀ (s : State) (value : Word) (rest : List HostMove), s.inbox = .writeRegister 0x00 4 value :: rest →
    value.getLsbD 0 = true → value.getLsbD 1 = false →
    (s.state = .busy → step s = .next { s with inbox := rest }) ∧
    (s.state ≠ .busy → step s = .next { s with
      inbox := rest
      pos := 0, oct := s.cfg.defaultOctave, tempo := s.cfg.defaultTempo, cnt := 0, rate := 0, done := false
      phase := 0, lvl := 0, subcnt := 0, rstate := .needTick
      errCode := .noError, errPos := 0, errByte := 0, errCmd := 0
      outCount := 0, state := .busy })

/-- A write of CTRL with bits 0 and 1 both clear (10_state.md R35): no effect, whatever its reserved bits are. -/
def Obligations.ControlWriteWithoutCommand : Prop :=
  ∀ (s : State) (value : Word) (rest : List HostMove), s.inbox = .writeRegister 0x00 4 value :: rest →
    value.getLsbD 0 = false → value.getLsbD 1 = false → step s = .next { s with inbox := rest }

/-- SOFT_RESET (70_reset_and_hazards.md R201, 10_state.md R35, R44): in any STATE, and also when START is written with
it, every register takes its reset value; the tables, the text and the sink stay. -/
def Obligations.SoftResetResetsRegisters : Prop :=
  ∀ (s : State) (value : Word) (rest : List HostMove), s.inbox = .writeRegister 0x00 4 value :: rest →
    value.getLsbD 1 = true →
    step s = .next { s with
      inbox := rest
      pos := 0, oct := s.cfg.defaultOctave, tempo := s.cfg.defaultTempo, cnt := 0, rate := 0, done := false
      phase := 0, lvl := 0, subcnt := 0, rstate := .needTick
      errCode := .noError, errPos := 0, errByte := 0, errCmd := 0
      outCount := 0, nlen := 0, state := .idle }

/-- NLEN (10_state.md R36): a write while BUSY is ignored, any other stores all 32 bits; reset leaves 0. -/
def Obligations.LengthRegister : Prop :=
  (∀ c, (State.powerOn c).nlen = 0) ∧
  ∀ (s : State) (value : Word) (rest : List HostMove), s.inbox = .writeRegister 0x08 4 value :: rest →
    (s.state = .busy → step s = .next { s with inbox := rest }) ∧
    (s.state ≠ .busy → step s = .next { s with inbox := rest, nlen := value })

/-- Host access rules of the register window, offsets 0x00 to 0x3C (10_state.md R40): an access that is not 32-bit and
aligned is refused; reserved offsets read 0; reserved and read-only offsets ignore a write; a read changes nothing of
the block. -/
def Obligations.HostAccessRules : Prop :=
  ∀ (s : State) (offset bytes : Nat) (value : Word) (rest : List HostMove),
    (s.inbox = .readRegister offset bytes :: rest → bytes = 4 → offset % 4 = 0 → offset < 0x40 →
      ∃ v, (0x30 ≤ offset → v = 0) ∧ step s = .next { s with inbox := rest, hostData := v }) ∧
    (s.inbox = .writeRegister offset bytes value :: rest → bytes = 4 → offset % 4 = 0 → offset < 0x40 →
      offset ≠ 0x00 → offset ≠ 0x08 → step s = .next { s with inbox := rest }) ∧
    (s.inbox = .readRegister offset bytes :: rest → bytes ≠ 4 ∨ offset % 4 ≠ 0 →
      step s = .refused (.hostAccess offset bytes)) ∧
    (s.inbox = .writeRegister offset bytes value :: rest → bytes ≠ 4 ∨ offset % 4 ≠ 0 →
      step s = .refused (.hostAccess offset bytes))

/-- An aligned 32-bit access at or above 0x40, outside the 16 words of the window (10_state.md R34). That the model refuses
it is its choice (log 15). -/
def Obligations.AccessOutsideWindowIsRefused : Prop :=
  ∀ (s : State) (offset : Nat) (value : Word) (rest : List HostMove), offset % 4 = 0 → 0x40 ≤ offset →
    (s.inbox = .readRegister offset 4 :: rest → step s = .refused (.hostAccess offset 4)) ∧
    (s.inbox = .writeRegister offset 4 value :: rest → step s = .refused (.hostAccess offset 4))

/-- What each offset of the register window reads (10_state.md R34, R35). -/
def Obligations.RegisterWindowReads : Prop :=
  ∀ (s : State) (offset : Nat) (v : Word) (rest : List HostMove),
    (offset, v) ∈ [(0x00, (0 : Word)), (0x04, statusWord s), (0x08, s.nlen), (0x0C, s.outCount), (0x10, s.errPos),
      (0x14, errInfoWord s), (0x18, seqStateWord s), (0x1C, s.pos), (0x20, s.cnt), (0x24, s.rate), (0x28, s.phase),
      (0x2C, s.subcnt), (0x30, 0), (0x34, 0), (0x38, 0), (0x3C, 0)] →
    s.inbox = .readRegister offset 4 :: rest → step s = .next { s with inbox := rest, hostData := v }

/-- The layout of STATUS (10_state.md R37, with the encodings of R30 to R32). -/
def Obligations.StatusLayout : Prop :=
  (∀ c, statusWord (State.powerOn c) = 0) ∧
  ∀ s : State,
    ((statusWord s).extractLsb' 0 2).toNat = (match s.state with | .idle => 0 | .busy => 1 | .done => 2 | .error => 3) ∧
    (statusWord s).getLsbD 2 = s.done ∧
    (statusWord s).getLsbD 3 = (s.rstate == .emit) ∧
    ((statusWord s).extractLsb' 4 4).toNat =
      (match s.errCode with
        | .noError => 0 | .syntaxError => 1 | .rangeError => 2 | .noTerminator => 3 | .outputOverflow => 4) ∧
    (statusWord s).extractLsb' 8 24 = 0

/-- The layout of ERR_INFO (10_state.md R38). -/
def Obligations.ErrInfoLayout : Prop :=
  (∀ c, errInfoWord (State.powerOn c) = 0) ∧
  ∀ s : State, (errInfoWord s).extractLsb' 0 8 = s.errByte ∧ (errInfoWord s).extractLsb' 8 8 = s.errCmd ∧
    (errInfoWord s).extractLsb' 16 16 = 0

/-- The layout of SEQ_STATE (10_state.md R39). -/
def Obligations.SeqStateLayout : Prop :=
  (∀ c, (seqStateWord (State.powerOn c)).toNat = c.defaultOctave.toNat + c.defaultTempo.toNat * 16) ∧
  ∀ s : State, (seqStateWord s).extractLsb' 0 3 = s.oct ∧ (seqStateWord s).getLsbD 3 = false ∧
    (seqStateWord s).extractLsb' 4 4 = s.tempo ∧ (seqStateWord s).extractLsb' 8 8 = 0 ∧
    (seqStateWord s).extractLsb' 16 5 = s.lvl ∧ (seqStateWord s).extractLsb' 21 11 = 0

/-- Hardware reset (70_reset_and_hazards.md R200, 40_wavetable.md R90, R100): a configuration that `configValid` takes
gives the register values of 10_state.md R44 and the tables built from it; any other is refused. These are the model's
choices: the text and the sink stay (log 22); `configValid` takes no TICK_SAMPLES above 2^32 - 1 (log 14); it decides
R94 (d) in fixed point, and takes no configuration with a reference entry that this leaves open (log 23). -/
def Obligations.HardwareResetBuilds : Prop :=
  ∀ (s : State) (c : Config) (rest : List HostMove), s.inbox = .hardwareReset c :: rest →
    (configValid c = true → step s = .next { s with
      inbox := rest
      pos := 0, oct := c.defaultOctave, tempo := c.defaultTempo, cnt := 0, rate := 0, done := false
      phase := 0, lvl := 0, subcnt := 0, rstate := .needTick
      errCode := .noError, errPos := 0, errByte := 0, errCmd := 0
      outCount := 0, nlen := 0, state := .idle
      cfg := c, rom := buildRoms c }) ∧
    (configValid c = false → step s = .refused .invalidConfiguration)

/-- No reset with a WT_ROM off the reference (70_reset_and_hazards.md R200; 40_wavetable.md R94 (d), R100 (d)): where an
entry is further than WT_TOL from the R91 value, a hardware reset is refused. That the R91 value is f32(raw / m), the real
number raw / m rounded once to the nearest binary32, and not raw / m itself, is the model's choice (log 23). -/
def Obligations.HardwareResetRefusesFarTables : Prop :=
  ∀ (s : State) (c : Config) (rest : List HostMove), s.inbox = .hardwareReset c :: rest → ¬ NearReference c →
    step s = .refused .invalidConfiguration

/-- Host writes of the text (20_memory.md R51, R67; 70_reset_and_hazards.md R205): a write takes the byte at its index and
changes no other byte. These are the model's choices (log 16): a write below NLEN while BUSY is refused, one at or above
NLEN while BUSY is taken, and one at index 2^32 - 1 faults. -/
def Obligations.TextWrites : Prop :=
  ∀ (s : State) (index : Word) (value : Byte) (rest : List HostMove), s.inbox = .writeText index value :: rest →
    (s.state = .busy → index.toNat < s.nlen.toNat → step s = .refused (.textBusy index)) ∧
    (s.state ≠ .busy ∨ s.nlen.toNat ≤ index.toNat → index.toNat < 2 ^ 32 - 1 →
      ∃ text, Memory.read text index.toNat = some value ∧
        (∀ a, a ≠ index.toNat → Memory.read text a = textByte s a) ∧
        step s = .next { s with inbox := rest, text := text }) ∧
    (index.toNat = 2 ^ 32 - 1 → step s = .fault .noTextAddress)

/-- The quiescent states (60_exceptions.md R196, 42_renderer.md R150): in IDLE, DONE and ERROR every register keeps its
value until the host makes a move. That the model answers with the same state is its choice (log 7). -/
def Obligations.QuiescentBlockKeepsState : Prop :=
  ∀ s : State, s.state ≠ .busy → s.inbox = [] → step s = .next s

/-! ### The whole machine -/

/-- The reset value of every register (10_state.md R44), for every configuration. -/
def Obligations.ResetRegisterValues : Prop :=
  State.reset = State.powerOn refConfig ∧
  ∀ c : Config,
    (State.powerOn c).pos = 0 ∧ (State.powerOn c).oct = c.defaultOctave ∧ (State.powerOn c).tempo = c.defaultTempo ∧
    (State.powerOn c).cnt = 0 ∧ (State.powerOn c).rate = 0 ∧ (State.powerOn c).done = false ∧
    (State.powerOn c).phase = 0 ∧ (State.powerOn c).lvl = 0 ∧ (State.powerOn c).subcnt = 0 ∧
    (State.powerOn c).rstate = .needTick ∧ (State.powerOn c).state = .idle ∧
    (State.powerOn c).errCode = .noError ∧ (State.powerOn c).errPos = 0 ∧ (State.powerOn c).errByte = 0 ∧
    (State.powerOn c).errCmd = 0 ∧ (State.powerOn c).outCount = 0 ∧ (State.powerOn c).nlen = 0 ∧
    (State.powerOn c).rom = buildRoms c ∧ (State.powerOn c).cfg = c ∧
    [Letter.c, .d, .e, .f, .g, .a, .b].map semitone = [0, 2, 4, 5, 7, 9, 11]

/-- The reset state meets the invariant. It rests on the model's choice of REF and of its WT_ROM (logs 1 and 2). -/
def Obligations.ResetMeetsInvariant : Prop := State.reset.Inv

/-- The WT_ROM of the reset state is the reference (40_wavetable.md R91, R94): each entry is a binary32 nearest to raw / m,
a zero of either sign where raw is 0, with the real numbers raw and m of R91 under REF. That State.reset holds this table
is the model's choice (logs 1 and 2). -/
def Obligations.ResetWavetableIsReference : Prop :=
  ∀ k < 8, ∃ raw m, IsRawWave refConfig k raw ∧ IsWavePeak refConfig raw m ∧
    ∀ i < 2048, ∃ e, waveEntry State.reset k i = some e ∧ IsNearestBinary32 (raw i / m) e

/-- Every step keeps the invariant, the block's own and the host's moves (10_state.md R21 to R33; 40_wavetable.md R100;
20_memory.md R53, R56). -/
def Obligations.StepKeepsInvariant : Prop :=
  ∀ s t : State, s.Inv → step s = .next t → t.Inv

/-- A block with a valid configuration and a written text never stops: each of its steps answers a next state
(30_encoding.md R77, 42_renderer.md R162). -/
def Obligations.ValidBlockNeverStops : Prop :=
  ∀ s : State, s.Inv → s.TextWritten → s.inbox = [] → ∃ t, step s = .next t

/-- Every render ends (42_renderer.md R158, 70_reset_and_hazards.md R210): whatever the written text, a block left to
itself comes to DONE or ERROR after finitely many steps. -/
def Obligations.EveryRenderEnds : Prop :=
  ∀ s : State, s.Inv → s.TextWritten → s.inbox = [] → s.state = .busy →
    ∃ n t, Host.Core.run Sys2Proof.core n s = .next t ∧ (t.state = .done ∨ t.state = .error)
end

