-- ==== Sys2Proof/Laws/Binary32.lean ====
section
/-! SUPPORT. Rounding to binary32 (00_scope.md R19): the pattern that `f32RoundMagnitude` answers is the nearest, the
even one of two equally near, also for a real number between two dyadic numbers that round alike. -/

namespace Sys2Proof.Machine

/-- The magnitude of a pattern without its sign bit, in units of 2^-149. -/
def magnitudeOf (n : Nat) : Nat :=
  if n / 2 ^ 23 = 0 then n % 2 ^ 23 else (2 ^ 23 + n % 2 ^ 23) * 2 ^ (n / 2 ^ 23 - 1)

theorem f32Magnitude_eq (x : Word) : f32Magnitude x = magnitudeOf (x.toNat % 2 ^ 31) := by
  have h1 : x.toNat / 2 ^ 23 % 256 = x.toNat % 2 ^ 31 / 2 ^ 23 := by omega
  have h2 : x.toNat % 2 ^ 23 = x.toNat % 2 ^ 31 % 2 ^ 23 := by omega
  unfold f32Magnitude magnitudeOf
  rw [h1, h2]

/-- A significand `r` of at most 24 bits, or 2^24 after a carry, at exponent `k`. -/
theorem magnitudeOf_pattern {k r : Nat} (hr : r ≤ 2 ^ 24) (hk : k = 0 ∨ 2 ^ 23 ≤ r) :
    magnitudeOf (k * 2 ^ 23 + r) = r * 2 ^ k := by
  unfold magnitudeOf
  rcases Nat.lt_or_ge r (2 ^ 23) with h | h
  · have : k = 0 := by omega
    subst this
    rw [if_pos (by omega)]
    simp
    omega
  · rcases Nat.lt_or_ge r (2 ^ 24) with h' | h'
    · have h1 : (k * 2 ^ 23 + r) / 2 ^ 23 = k + 1 := by omega
      have h2 : 2 ^ 23 + (k * 2 ^ 23 + r) % 2 ^ 23 = r := by omega
      rw [h1, h2, if_neg (by omega)]
      simp
    · have h1 : (k * 2 ^ 23 + r) / 2 ^ 23 = k + 2 := by omega
      have h2 : 2 ^ 23 + (k * 2 ^ 23 + r) % 2 ^ 23 = 2 ^ 23 := by omega
      have h3 : r = 2 ^ 24 := by omega
      rw [h1, h2, if_neg (by omega), h3]
      simp [Nat.pow_succ]
      omega

/-- Above 24 bits a magnitude is a multiple of the unit of its binade. -/
theorem magnitudeOf_grid (n k : Nat) : 2 ^ k ∣ magnitudeOf n ∨ magnitudeOf n < 2 ^ 23 * 2 ^ k := by
  unfold magnitudeOf
  split
  · rcases k with _ | k
    · simp
    · right
      have := Nat.one_le_two_pow (n := k + 1)
      have : n % 2 ^ 23 < 2 ^ 23 := Nat.mod_lt _ (by norm_num)
      nlinarith
  · rcases Nat.lt_or_ge (n / 2 ^ 23 - 1) k with h | h
    · right
      obtain ⟨d, rfl⟩ : ∃ d, k = n / 2 ^ 23 - 1 + 1 + d := ⟨k - (n / 2 ^ 23 - 1 + 1), by omega⟩
      have h1 : n % 2 ^ 23 < 2 ^ 23 := Nat.mod_lt _ (by norm_num)
      have h2 := Nat.one_le_two_pow (n := d)
      have h3 := Nat.one_le_two_pow (n := n / 2 ^ 23 - 1)
      rw [pow_add, pow_add]
      generalize 2 ^ (n / 2 ^ 23 - 1) = a at *
      generalize 2 ^ d = b at *
      generalize n % 2 ^ 23 = f at *
      calc (2 ^ 23 + f) * a < 2 ^ 23 * (a * 2 ^ 1) := by nlinarith
        _ ≤ 2 ^ 23 * (a * 2 ^ 1 * b) := Nat.mul_le_mul_left _ (Nat.le_mul_of_pos_right _ h2)
    · left
      exact Dvd.dvd.mul_left (Nat.pow_dvd_pow 2 h) _

/-- `roundHalfEven` answers the multiple of 2^u nearest to m, the even one of two equally near. -/
theorem roundHalfEven_nearest (m u : Nat) (g : ℤ) :
    |(roundHalfEven m u : ℤ) * 2 ^ u - m| ≤ |g * 2 ^ u - m| ∧
    (g ≠ roundHalfEven m u → |(roundHalfEven m u : ℤ) * 2 ^ u - m| = |g * 2 ^ u - m| →
      roundHalfEven m u % 2 = 0) := by
  have hu : (0 : ℤ) < 2 ^ u := by positivity
  have hm : (m : ℤ) = (2 : ℤ) ^ u * (m / 2 ^ u : ℕ) + (m % 2 ^ u : ℕ) := by
    exact_mod_cast (Nat.div_add_mod m (2 ^ u)).symm
  have hlt : ((m % 2 ^ u : ℕ) : ℤ) < 2 ^ u := by exact_mod_cast Nat.mod_lt m (by positivity)
  have h0 : (0 : ℤ) ≤ ((m % 2 ^ u : ℕ) : ℤ) := by positivity
  unfold roundHalfEven
  generalize hq : m / 2 ^ u = q at *
  generalize hf : m % 2 ^ u = f at *
  have hcast : (2 ^ u < 2 * f) ↔ (2 : ℤ) ^ u < 2 * f := by exact_mod_cast Iff.rfl
  have hcast' : (2 * f = 2 ^ u) ↔ 2 * (f : ℤ) = (2 : ℤ) ^ u := by exact_mod_cast Iff.rfl
  rw [hm]
  have key : ∀ d : ℤ, d ≤ -1 ∨ d = 0 ∨ d = 1 ∨ 2 ≤ d := by intro d; omega
  have e : ∀ x : ℤ, x * 2 ^ u - ((2 : ℤ) ^ u * q + f) = (x - q) * 2 ^ u - f := by intro x; ring
  rw [e g]
  have hg : g = (g - q) + q := by ring
  generalize g - (q : ℤ) = d at *
  split
  · next h =>
    rw [hcast, hcast'] at h
    have hf2 : (2 : ℤ) ^ u ≤ 2 * f := h.elim le_of_lt fun h => h.1.ge
    push_cast
    have e1 : ((q : ℤ) + 1) * 2 ^ u - (2 ^ u * q + f) = 2 ^ u - f := by ring
    rw [e1, abs_of_nonneg (by linarith)]
    rcases key d with hd | rfl | rfl | hd
    · rw [abs_of_neg (by nlinarith)]
      constructor
      · nlinarith
      · intro _ he; exfalso; nlinarith
    · rw [zero_mul, zero_sub, abs_neg, abs_of_nonneg h0]
      constructor
      · omega
      · intro _ he; omega
    · constructor
      · rw [one_mul, abs_of_nonneg (by linarith)]
      · intro hne _; exact absurd hg (by intro h'; apply hne; rw [h']; ring)
    · rw [abs_of_nonneg (by nlinarith)]
      constructor
      · nlinarith
      · intro _ he; exfalso; nlinarith
  · next h =>
    rw [hcast, hcast'] at h
    have hf2 : 2 * (f : ℤ) ≤ 2 ^ u := not_lt.1 fun h' => h (.inl h')
    have e1 : (q : ℤ) * 2 ^ u - (2 ^ u * q + f) = -f := by ring
    rw [e1, abs_neg, abs_of_nonneg h0]
    rcases key d with hd | rfl | rfl | hd
    · rw [abs_of_neg (by nlinarith)]
      constructor
      · nlinarith
      · intro _ he; exfalso; nlinarith
    · constructor
      · simp
      · intro hne _; exact absurd hg (by intro h'; apply hne; rw [h']; ring)
    · rw [one_mul, abs_of_nonneg (by linarith)]
      constructor
      · omega
      · intro _ he; omega
    · rw [abs_of_nonneg (by nlinarith)]
      constructor
      · nlinarith
      · intro _ he; exfalso; nlinarith

/-- Without overflow, `f32RoundMagnitude` answers the pattern nearest to m / 2^scale, the even one of two equally near.
Both sides are in units of 2^-scale. -/
theorem f32RoundMagnitude_nearest {m scale : Nat} (hs : 149 ≤ scale) (hf : f32RoundMagnitude m scale < 0x7F800000)
    (n : Nat) :
    |(magnitudeOf (f32RoundMagnitude m scale) : ℤ) * 2 ^ (scale - 149) - m| ≤
      |(magnitudeOf n : ℤ) * 2 ^ (scale - 149) - m| ∧
    (magnitudeOf n ≠ magnitudeOf (f32RoundMagnitude m scale) →
      |(magnitudeOf (f32RoundMagnitude m scale) : ℤ) * 2 ^ (scale - 149) - m| =
        |(magnitudeOf n : ℤ) * 2 ^ (scale - 149) - m| →
      f32RoundMagnitude m scale % 2 = 0) := by
  have hp : f32RoundMagnitude m scale =
      (f32Shift m scale - (scale - 149)) * 2 ^ 23 + roundHalfEven m (f32Shift m scale) := by
    unfold f32RoundMagnitude at hf ⊢; omega
  obtain ⟨k, hk⟩ : ∃ k, f32Shift m scale = k + (scale - 149) := by
    unfold f32Shift; exact ⟨_, (Nat.sub_add_cancel (le_max_right _ _)).symm⟩
  have hkl : k = 0 ∨ k + (scale - 149) = Nat.log2 m - 23 := by unfold f32Shift at hk; omega
  rw [hp, hk, Nat.add_sub_cancel]
  generalize scale - 149 = d at *
  have hlog : Nat.log2 m ≤ k + d + 23 := by unfold f32Shift at hk; omega
  have hlt : m < 2 ^ (k + d + 24) := by
    rcases Nat.eq_zero_or_pos m with rfl | hm
    · positivity
    · exact ((Nat.log2_lt (by omega)).1 (by omega))
  have hq : m / 2 ^ (k + d) < 2 ^ 24 := by
    rw [Nat.div_lt_iff_lt_mul (by positivity), ← pow_add]
    rwa [Nat.add_comm 24]
  have hr : roundHalfEven m (k + d) ≤ 2 ^ 24 := by unfold roundHalfEven; split <;> omega
  have hlow : k = 0 ∨ 2 ^ 23 * 2 ^ (k + d) ≤ m := by
    rcases hkl with h | h
    · exact .inl h
    · rcases Nat.eq_zero_or_pos k with h0 | h0
      · exact .inl h0
      · right
        rw [← pow_add]
        have hm : m ≠ 0 := by rintro rfl; simp at h; omega
        exact (Nat.le_log2 hm).1 (by omega)
  have hbig : k = 0 ∨ 2 ^ 23 ≤ roundHalfEven m (k + d) := by
    rcases hlow with h | h
    · exact .inl h
    · right
      have := (Nat.le_div_iff_mul_le (by positivity)).2 h
      unfold roundHalfEven; split <;> omega
  rw [magnitudeOf_pattern hr hbig]
  push_cast
  rw [mul_assoc, ← pow_add]
  have hn := roundHalfEven_nearest m (k + d)
  have hgrid : 2 ^ k ∣ magnitudeOf n ∨ (2 ^ 23 * 2 ^ (k + d) ≤ m ∧ magnitudeOf n < 2 ^ 23 * 2 ^ k) := by
    rcases hlow with rfl | h
    · exact .inl (one_dvd _)
    · exact (magnitudeOf_grid n k).imp_right fun h' => ⟨h, h'⟩
  rcases hgrid with ⟨g, hg⟩ | ⟨hm, hsmall⟩
  · have e : (magnitudeOf n : ℤ) * 2 ^ d = (g : ℤ) * 2 ^ (k + d) := by rw [hg]; push_cast; rw [pow_add]; ring
    rw [e]
    refine ⟨(hn g).1, fun hne he => ?_⟩
    have := (hn g).2 (by rintro h; apply hne; rw [hg, Nat.mul_comm]; congr 1; exact_mod_cast h) he
    omega
  · have h1 := (hn (2 ^ 23)).1
    have h2 : (2 : ℤ) ^ 23 * 2 ^ (k + d) ≤ m := by exact_mod_cast hm
    have h3 : (magnitudeOf n : ℤ) * 2 ^ d < 2 ^ 23 * 2 ^ (k + d) := by
      have : (magnitudeOf n : ℤ) < 2 ^ 23 * 2 ^ k := by exact_mod_cast hsmall
      calc (magnitudeOf n : ℤ) * 2 ^ d < 2 ^ 23 * 2 ^ k * 2 ^ d := mul_lt_mul_of_pos_right this (by positivity)
        _ = _ := by rw [pow_add]; ring
    have h4 : |(roundHalfEven m (k + d) : ℤ) * 2 ^ (k + d) - m| < |(magnitudeOf n : ℤ) * 2 ^ d - m| := by
      rw [abs_of_nonpos (by linarith : (2 : ℤ) ^ 23 * 2 ^ (k + d) - m ≤ 0)] at h1
      rw [abs_of_neg (by linarith : (magnitudeOf n : ℤ) * 2 ^ d - m < 0)]
      linarith
    exact ⟨h4.le, fun _ he => absurd he h4.ne⟩

/-- A binary32 nearest to both ends of an interval is nearest to every number in it. -/
theorem abs_sub_le_of_ends {a b lo hi y : ℝ} (h1 : |a - lo| ≤ |b - lo|) (h2 : |a - hi| ≤ |b - hi|) (hlo : lo ≤ y)
    (hhi : y ≤ hi) :
    |a - y| ≤ |b - y| ∧ (a ≠ b → |a - y| = |b - y| → |a - lo| = |b - lo| ∨ |a - hi| = |b - hi|) := by
  rw [← sq_le_sq] at h1 h2 ⊢
  simp only [← sq_eq_sq_iff_abs_eq_abs]
  rcases lt_trichotomy a b with h | rfl | h
  · have h3 : 2 * hi ≤ a + b := by nlinarith
    refine ⟨by nlinarith, fun _ he => .inr ?_⟩
    have : a + b = 2 * y := by
      have : (b - a) * (a + b - 2 * y) = 0 := by linarith
      rcases mul_eq_zero.1 this with h' | h' <;> linarith
    have : hi = y := by linarith
    rw [this]; exact he
  · exact ⟨le_refl _, fun h => absurd rfl h⟩
  · have h3 : a + b ≤ 2 * lo := by nlinarith
    refine ⟨by nlinarith, fun _ he => .inl ?_⟩
    have : a + b = 2 * y := by
      have : (b - a) * (a + b - 2 * y) = 0 := by linarith
      rcases mul_eq_zero.1 this with h' | h' <;> linarith
    have : lo = y := by linarith
    rw [this]; exact he

theorem f32RoundMagnitude_le {m scale : Nat} (hs : 149 ≤ scale) (hm : m ≤ 2 ^ scale) :
    f32RoundMagnitude m scale ≤ 0x40000000 := by
  have hlog : Nat.log2 m ≤ scale := by
    rcases Nat.eq_zero_or_pos m with rfl | h
    · simp
    · exact Nat.lt_succ_iff.1 ((Nat.log2_lt (by omega)).2 (lt_of_le_of_lt hm (Nat.pow_lt_pow_right (by norm_num) (by omega))))
  have hlt : m < 2 ^ (f32Shift m scale + 24) := by
    rcases Nat.eq_zero_or_pos m with rfl | h
    · positivity
    · exact (Nat.log2_lt (by omega)).1 (by unfold f32Shift; omega)
  have hq : m / 2 ^ f32Shift m scale < 2 ^ 24 := by
    rw [Nat.div_lt_iff_lt_mul (by positivity), ← pow_add]
    rwa [Nat.add_comm 24]
  have hr : roundHalfEven m (f32Shift m scale) ≤ 2 ^ 24 := by unfold roundHalfEven; split <;> omega
  have hk : f32Shift m scale - (scale - 149) ≤ 126 := by unfold f32Shift; omega
  unfold f32RoundMagnitude
  omega

theorem f32Round_toNat (m scale : Nat) : (f32Round false m scale).toNat = f32RoundMagnitude m scale := by
  unfold f32Round
  have : f32RoundMagnitude m scale ≤ 0x7F800000 := by unfold f32RoundMagnitude; omega
  simp
  omega

/-- The pattern with the sign bit of a finite value changed stands for the negative value. -/
theorem f32Exact_flip (x : Word) : f32Exact (x ^^^ 0x80000000) = - f32Exact x := by
  have h1 : (x ^^^ 0x80000000).msb = !x.msb := by
    rw [BitVec.msb_xor, show (0x80000000 : Word).msb = true by decide, Bool.xor_true]
  have h2 : (x ^^^ 0x80000000).toNat % 2 ^ 31 = x.toNat % 2 ^ 31 := by
    rw [BitVec.toNat_xor, Nat.xor_mod_two_pow]
    simp
  unfold f32Exact f32Neg
  rw [f32Magnitude_eq, f32Magnitude_eq, h1, h2]
  cases x.msb <;> simp

theorem f32Exact_of_lt {x : Word} (h : x.toNat < 2 ^ 31) : f32Exact x = magnitudeOf x.toNat := by
  have h1 : x.msb = false := by rw [BitVec.msb_eq_decide]; simp; omega
  unfold f32Exact f32Neg
  rw [f32Magnitude_eq, h1, Nat.mod_eq_of_lt h]
  simp

/-- Every value is a magnitude or the negative of one. -/
theorem f32Exact_eq (x : Word) :
    f32Exact x = magnitudeOf (x.toNat % 2 ^ 31) ∨ f32Exact x = - (magnitudeOf (x.toNat % 2 ^ 31) : ℤ) := by
  unfold f32Exact
  rw [f32Magnitude_eq]
  split
  · exact .inr rfl
  · exact .inl rfl

/-- A real number in [0, 1] between two dyadic numbers that round to one binary32 rounds to it. -/
theorem f32Round_nearest {x : ℝ} {lo hi scale : Nat} (hs : 149 ≤ scale) (hx : 0 ≤ x) (hlo : (lo : ℝ) ≤ x * 2 ^ scale)
    (hhi : x * 2 ^ scale ≤ hi) (hone : lo ≤ 2 ^ scale) (he : f32Round false lo scale = f32Round false hi scale) :
    IsNearestBinary32 x (f32Round false lo scale) := by
  have hp : f32RoundMagnitude lo scale = f32RoundMagnitude hi scale := by
    have := congrArg BitVec.toNat he
    rwa [f32Round_toNat, f32Round_toNat] at this
  have hle := f32RoundMagnitude_le hs hone
  have hv : (f32Round false lo scale).toNat < 2 ^ 31 := by rw [f32Round_toNat]; omega
  refine ⟨by rw [f32Round_toNat]; omega, fun w hw => ?_⟩
  rw [f32Exact_of_lt hv, f32Round_toNat]
  have n1 := f32RoundMagnitude_nearest (m := lo) hs (by omega)
  have n2 := f32RoundMagnitude_nearest (m := hi) hs (by omega)
  rw [← hp] at n2
  generalize f32RoundMagnitude lo scale = p at *
  have near : ∀ n, |(magnitudeOf p : ℝ) - x * 2 ^ 149| ≤ |(magnitudeOf n : ℝ) - x * 2 ^ 149| ∧
      (magnitudeOf p ≠ magnitudeOf n → |(magnitudeOf p : ℝ) - x * 2 ^ 149| = |(magnitudeOf n : ℝ) - x * 2 ^ 149| →
        p % 2 = 0) := by
    intro n
    have hD : (0 : ℝ) < 2 ^ (scale - 149) := by positivity
    have hx' : x * 2 ^ scale = x * 2 ^ 149 * 2 ^ (scale - 149) := by
      rw [mul_assoc, ← pow_add, Nat.add_sub_cancel' hs]
    have scaled : ∀ a : ℝ, |a * 2 ^ (scale - 149) - x * 2 ^ scale| = |a - x * 2 ^ 149| * 2 ^ (scale - 149) := by
      intro a; rw [hx', ← sub_mul, abs_mul, abs_of_pos hD]
    have c1 : |(magnitudeOf p : ℝ) * 2 ^ (scale - 149) - lo| ≤ |(magnitudeOf n : ℝ) * 2 ^ (scale - 149) - lo| := by
      exact_mod_cast (n1 n).1
    have c2 : |(magnitudeOf p : ℝ) * 2 ^ (scale - 149) - hi| ≤ |(magnitudeOf n : ℝ) * 2 ^ (scale - 149) - hi| := by
      exact_mod_cast (n2 n).1
    obtain ⟨h1, h2⟩ := abs_sub_le_of_ends c1 c2 hlo hhi
    rw [scaled, scaled] at h1 h2
    refine ⟨le_of_mul_le_mul_right h1 hD, fun hne heq => ?_⟩
    rcases h2 (by intro h; exact hne (by exact_mod_cast mul_right_cancel₀ hD.ne' h)) (by rw [heq]) with h | h
    · exact (n1 n).2 hne.symm (by exact_mod_cast h)
    · exact (n2 n).2 hne.symm (by exact_mod_cast h)
  obtain ⟨h1, h2⟩ := near (w.toNat % 2 ^ 31)
  have hy : 0 ≤ x * 2 ^ 149 := by positivity
  generalize x * 2 ^ 149 = y at *
  rcases f32Exact_eq w with hw' | hw' <;> rw [hw'] <;> generalize magnitudeOf (w.toNat % 2 ^ 31) = b at *
  · push_cast
    refine ⟨h1, fun hne heq => h2 (fun h => hne (by rw [h])) heq⟩
  · have hB : (0 : ℝ) ≤ b := by positivity
    have hle : |(b : ℝ) - y| ≤ |-(b : ℝ) - y| := by
      rw [← sq_le_sq]; nlinarith
    push_cast
    refine ⟨h1.trans hle, fun hne heq => ?_⟩
    by_cases hB0 : b = 0
    · rw [hB0] at h2 hne heq
      exact h2 (fun h => hne (by rw [h]; simp)) (by simpa using heq)
    · by_cases hpB : magnitudeOf p = b
      · have hpos : (0 : ℝ) < b := by positivity
        rw [hpB, ← sq_eq_sq_iff_abs_eq_abs] at heq
        have hy0 : y = 0 := by
          have : 4 * b * y = 0 := by linarith
          rcases mul_eq_zero.1 this with h | h
          · linarith
          · exact h
        have h0 := (near 0).1
        have hz : magnitudeOf 0 = 0 := rfl
        rw [hz, hy0, hpB] at h0
        simp at h0
        exact absurd h0 hB0
      · exact h2 hpB (le_antisymm h1 (by rw [heq]; exact hle))

/-- The nearest binary32 of a negative number is the negative one. -/
theorem IsNearestBinary32.neg {x : ℝ} {v : Word} (h : IsNearestBinary32 x v) : IsNearestBinary32 (-x) (negated v) := by
  obtain ⟨hf, hn⟩ := h
  have hmod : ∀ w : Word, (w ^^^ 0x80000000).toNat % 2 ^ 31 = w.toNat % 2 ^ 31 := by
    intro w; rw [BitVec.toNat_xor, Nat.xor_mod_two_pow]; simp
  have hexact : f32Exact (negated v) = - f32Exact v := by
    unfold negated
    split
    · next h => rw [h]; decide
    · exact f32Exact_flip v
  have hpar : (negated v).toNat % 2 = v.toNat % 2 := by
    unfold negated
    split
    · next h => rw [h]
    · rw [BitVec.toNat_xor, show (2 : Nat) = 2 ^ 1 by rfl, Nat.xor_mod_two_pow]; simp
  have hfin : (negated v).toNat % 2 ^ 31 < 0x7F800000 := by
    unfold negated
    split
    · decide
    · rw [hmod]; exact hf
  have flip : ∀ a y : ℝ, |-a - -x * y| = |a - x * y| := by
    intro a y; rw [← abs_neg]; congr 1; ring
  refine ⟨hfin, fun w hw => ?_⟩
  have hw' := hn (w ^^^ 0x80000000) (by rw [hmod]; exact hw)
  have hwe : (f32Exact w : ℝ) = -(f32Exact (w ^^^ 0x80000000) : ℝ) := by rw [f32Exact_flip]; push_cast; ring
  rw [hexact, hwe, hpar]
  push_cast
  rw [flip, flip]
  exact ⟨hw'.1, fun hne => hw'.2 (by rw [f32Exact_flip]; omega)⟩

end Sys2Proof.Machine
end

