-- ==== Sys2Proof/Laws/Memory.lean ====
section
/-! SUPPORT. The laws of the sparse memories: read after write, and the canonical form. -/

namespace Sys2Proof.Machine

@[simp] theorem Memory.read_nil {w : Nat} (a : Nat) : Memory.read ([] : Memory w) a = none := rfl

/-- A read after a write to the same index gives the value written. -/
@[simp] theorem Memory.read_write_same {w : Nat} (m : Memory w) (a : Nat) (v : BitVec w) :
    Memory.read (Memory.write m a v) a = some v := by
  induction m with
  | nil => simp [Memory.write, Memory.read]
  | cons e rest ih =>
    obtain ⟨k, x⟩ := e
    simp only [Memory.write]
    split
    · simp only [Memory.read]
      rw [if_neg (by omega), ih]
    · split <;> simp [Memory.read]

/-- A write leaves every other index alone. -/
theorem Memory.read_write_other {w : Nat} (m : Memory w) (a b : Nat) (v : BitVec w) (h : b ≠ a) :
    Memory.read (Memory.write m a v) b = Memory.read m b := by
  induction m with
  | nil => simp [Memory.write, Memory.read, Ne.symm h]
  | cons e rest ih =>
    obtain ⟨k, x⟩ := e
    simp only [Memory.write]
    split
    · simp only [Memory.read, ih]
    · split
      · subst k
        simp [Memory.read, Ne.symm h]
      · simp [Memory.read, Ne.symm h]

/-- A read after a write, at any index. -/
theorem Memory.read_write {w : Nat} (m : Memory w) (a b : Nat) (v : BitVec w) :
    Memory.read (Memory.write m a v) b = if b = a then some v else Memory.read m b := by
  split
  · subst b; exact Memory.read_write_same m a v
  · exact Memory.read_write_other m a b v ‹_›

/-- The canonical form is that the indices strictly rise. -/
theorem Memory.wf_iff {w : Nat} (m : Memory w) :
    Memory.wf m = true ↔ m.Pairwise (fun e f => e.1 < f.1) := by
  induction m with
  | nil => simp [Memory.wf]
  | cons e rest ih =>
    obtain ⟨a, x⟩ := e
    cases rest with
    | nil => simp [Memory.wf]
    | cons f rest' =>
      obtain ⟨b, y⟩ := f
      simp only [Memory.wf, Bool.and_eq_true, decide_eq_true_eq, ih]
      constructor
      · rintro ⟨hab, hp⟩
        refine List.pairwise_cons.2 ⟨?_, hp⟩
        intro g hg
        rcases List.mem_cons.1 hg with rfl | hg
        · exact hab
        · exact lt_trans hab ((List.pairwise_cons.1 hp).1 g hg)
      · intro hp
        exact ⟨(List.pairwise_cons.1 hp).1 _ (List.mem_cons_self ..), (List.pairwise_cons.1 hp).2⟩

/-- Every entry of the memory after a write is the written one or an entry before. -/
theorem Memory.mem_write {w : Nat} (m : Memory w) (a : Nat) (v : BitVec w) (e : Nat × BitVec w)
    (h : e ∈ Memory.write m a v) : e = (a, v) ∨ e ∈ m := by
  induction m with
  | nil => simpa [Memory.write] using h
  | cons f rest ih =>
    obtain ⟨k, x⟩ := f
    simp only [Memory.write] at h
    split at h
    · rcases List.mem_cons.1 h with rfl | h
      · exact .inr (List.mem_cons_self ..)
      · exact (ih h).imp_right (List.mem_cons_of_mem _)
    · split at h
      · rcases List.mem_cons.1 h with rfl | h
        · exact .inl rfl
        · exact .inr (List.mem_cons_of_mem _ h)
      · rcases List.mem_cons.1 h with rfl | h
        · exact .inl rfl
        · exact .inr h

/-- A write keeps the canonical form. -/
theorem Memory.wf_write {w : Nat} (m : Memory w) (a : Nat) (v : BitVec w) (h : Memory.wf m = true) :
    Memory.wf (Memory.write m a v) = true := by
  rw [Memory.wf_iff] at h ⊢
  induction m with
  | nil => simp [Memory.write]
  | cons f rest ih =>
    obtain ⟨k, x⟩ := f
    obtain ⟨hk, hr⟩ := List.pairwise_cons.1 h
    simp only [Memory.write]
    split
    · refine List.pairwise_cons.2 ⟨?_, ih hr⟩
      intro e he
      rcases Memory.mem_write rest a v e he with rfl | he
      · assumption
      · exact hk e he
    · split
      · subst k
        exact List.pairwise_cons.2 ⟨hk, hr⟩
      · refine List.pairwise_cons.2 ⟨?_, h⟩
        intro e he
        have hak : a < k := by omega
        rcases List.mem_cons.1 he with rfl | he
        · exact hak
        · exact lt_trans hak (hk e he)

/-- Storing bytes keeps the canonical form. -/
theorem storeText_wf (bs : List Byte) (a : Nat) (m : List Host.Cell) (h : Memory.wf (w := 8) m = true) :
    Memory.wf (w := 8) (storeText bs a m) = true := by
  induction bs generalizing a m with
  | nil => exact h
  | cons b rest ih => exact ih (a + 1) _ (Memory.wf_write m a b h)

/-- The memories right after reset are in canonical form. -/
theorem reset_memories_wf :
    Memory.wf (w := 8) State.reset.text = true ∧ Memory.wf State.reset.sink = true := ⟨rfl, rfl⟩

end Sys2Proof.Machine
end

