-- ==== Sys2Proof/Laws/State.lean ====
section
/-! SUPPORT. One lemma per field per named update of the state, true by rfl, so that no later proof unfolds a record
update; for the tick's last update, whose form depends on DONE, one lemma per field by cases. -/

namespace Sys2Proof.Machine

@[simp] theorem raiseError_pos (code : ErrorCode) (p : Nat) (byte cmd : Byte) (s : State) : (raiseError code p byte cmd s).pos = BitVec.ofNat 32 p := rfl
@[simp] theorem raiseError_oct (code : ErrorCode) (p : Nat) (byte cmd : Byte) (s : State) : (raiseError code p byte cmd s).oct = s.oct := rfl
@[simp] theorem raiseError_tempo (code : ErrorCode) (p : Nat) (byte cmd : Byte) (s : State) : (raiseError code p byte cmd s).tempo = s.tempo := rfl
@[simp] theorem raiseError_cnt (code : ErrorCode) (p : Nat) (byte cmd : Byte) (s : State) : (raiseError code p byte cmd s).cnt = s.cnt := rfl
@[simp] theorem raiseError_rate (code : ErrorCode) (p : Nat) (byte cmd : Byte) (s : State) : (raiseError code p byte cmd s).rate = s.rate := rfl
@[simp] theorem raiseError_done (code : ErrorCode) (p : Nat) (byte cmd : Byte) (s : State) : (raiseError code p byte cmd s).done = s.done := rfl
@[simp] theorem raiseError_phase (code : ErrorCode) (p : Nat) (byte cmd : Byte) (s : State) : (raiseError code p byte cmd s).phase = s.phase := rfl
@[simp] theorem raiseError_lvl (code : ErrorCode) (p : Nat) (byte cmd : Byte) (s : State) : (raiseError code p byte cmd s).lvl = s.lvl := rfl
@[simp] theorem raiseError_subcnt (code : ErrorCode) (p : Nat) (byte cmd : Byte) (s : State) : (raiseError code p byte cmd s).subcnt = s.subcnt := rfl
@[simp] theorem raiseError_rstate (code : ErrorCode) (p : Nat) (byte cmd : Byte) (s : State) : (raiseError code p byte cmd s).rstate = s.rstate := rfl
@[simp] theorem raiseError_state (code : ErrorCode) (p : Nat) (byte cmd : Byte) (s : State) : (raiseError code p byte cmd s).state = .error := rfl
@[simp] theorem raiseError_errCode (code : ErrorCode) (p : Nat) (byte cmd : Byte) (s : State) : (raiseError code p byte cmd s).errCode = code := rfl
@[simp] theorem raiseError_errPos (code : ErrorCode) (p : Nat) (byte cmd : Byte) (s : State) : (raiseError code p byte cmd s).errPos = BitVec.ofNat 32 p := rfl
@[simp] theorem raiseError_errByte (code : ErrorCode) (p : Nat) (byte cmd : Byte) (s : State) : (raiseError code p byte cmd s).errByte = byte := rfl
@[simp] theorem raiseError_errCmd (code : ErrorCode) (p : Nat) (byte cmd : Byte) (s : State) : (raiseError code p byte cmd s).errCmd = cmd := rfl
@[simp] theorem raiseError_outCount (code : ErrorCode) (p : Nat) (byte cmd : Byte) (s : State) : (raiseError code p byte cmd s).outCount = s.outCount := rfl
@[simp] theorem raiseError_nlen (code : ErrorCode) (p : Nat) (byte cmd : Byte) (s : State) : (raiseError code p byte cmd s).nlen = s.nlen := rfl
@[simp] theorem raiseError_text (code : ErrorCode) (p : Nat) (byte cmd : Byte) (s : State) : (raiseError code p byte cmd s).text = s.text := rfl
@[simp] theorem raiseError_sink (code : ErrorCode) (p : Nat) (byte cmd : Byte) (s : State) : (raiseError code p byte cmd s).sink = s.sink := rfl
@[simp] theorem raiseError_cfg (code : ErrorCode) (p : Nat) (byte cmd : Byte) (s : State) : (raiseError code p byte cmd s).cfg = s.cfg := rfl
@[simp] theorem raiseError_rom (code : ErrorCode) (p : Nat) (byte cmd : Byte) (s : State) : (raiseError code p byte cmd s).rom = s.rom := rfl
@[simp] theorem raiseError_inbox (code : ErrorCode) (p : Nat) (byte cmd : Byte) (s : State) : (raiseError code p byte cmd s).inbox = s.inbox := rfl
@[simp] theorem raiseError_hostData (code : ErrorCode) (p : Nat) (byte cmd : Byte) (s : State) : (raiseError code p byte cmd s).hostData = s.hostData := rfl

@[simp] theorem startRegisters_pos (s : State) : (startRegisters s).pos = 0 := rfl
@[simp] theorem startRegisters_oct (s : State) : (startRegisters s).oct = s.cfg.defaultOctave := rfl
@[simp] theorem startRegisters_tempo (s : State) : (startRegisters s).tempo = s.cfg.defaultTempo := rfl
@[simp] theorem startRegisters_cnt (s : State) : (startRegisters s).cnt = 0 := rfl
@[simp] theorem startRegisters_rate (s : State) : (startRegisters s).rate = 0 := rfl
@[simp] theorem startRegisters_done (s : State) : (startRegisters s).done = false := rfl
@[simp] theorem startRegisters_phase (s : State) : (startRegisters s).phase = 0 := rfl
@[simp] theorem startRegisters_lvl (s : State) : (startRegisters s).lvl = 0 := rfl
@[simp] theorem startRegisters_subcnt (s : State) : (startRegisters s).subcnt = 0 := rfl
@[simp] theorem startRegisters_rstate (s : State) : (startRegisters s).rstate = .needTick := rfl
@[simp] theorem startRegisters_state (s : State) : (startRegisters s).state = .busy := rfl
@[simp] theorem startRegisters_errCode (s : State) : (startRegisters s).errCode = .noError := rfl
@[simp] theorem startRegisters_errPos (s : State) : (startRegisters s).errPos = 0 := rfl
@[simp] theorem startRegisters_errByte (s : State) : (startRegisters s).errByte = 0 := rfl
@[simp] theorem startRegisters_errCmd (s : State) : (startRegisters s).errCmd = 0 := rfl
@[simp] theorem startRegisters_outCount (s : State) : (startRegisters s).outCount = 0 := rfl
@[simp] theorem startRegisters_nlen (s : State) : (startRegisters s).nlen = s.nlen := rfl
@[simp] theorem startRegisters_text (s : State) : (startRegisters s).text = s.text := rfl
@[simp] theorem startRegisters_sink (s : State) : (startRegisters s).sink = s.sink := rfl
@[simp] theorem startRegisters_cfg (s : State) : (startRegisters s).cfg = s.cfg := rfl
@[simp] theorem startRegisters_rom (s : State) : (startRegisters s).rom = s.rom := rfl
@[simp] theorem startRegisters_inbox (s : State) : (startRegisters s).inbox = s.inbox := rfl
@[simp] theorem startRegisters_hostData (s : State) : (startRegisters s).hostData = s.hostData := rfl

@[simp] theorem softReset_pos (s : State) : (softReset s).pos = 0 := rfl
@[simp] theorem softReset_oct (s : State) : (softReset s).oct = s.cfg.defaultOctave := rfl
@[simp] theorem softReset_tempo (s : State) : (softReset s).tempo = s.cfg.defaultTempo := rfl
@[simp] theorem softReset_cnt (s : State) : (softReset s).cnt = 0 := rfl
@[simp] theorem softReset_rate (s : State) : (softReset s).rate = 0 := rfl
@[simp] theorem softReset_done (s : State) : (softReset s).done = false := rfl
@[simp] theorem softReset_phase (s : State) : (softReset s).phase = 0 := rfl
@[simp] theorem softReset_lvl (s : State) : (softReset s).lvl = 0 := rfl
@[simp] theorem softReset_subcnt (s : State) : (softReset s).subcnt = 0 := rfl
@[simp] theorem softReset_rstate (s : State) : (softReset s).rstate = .needTick := rfl
@[simp] theorem softReset_state (s : State) : (softReset s).state = .idle := rfl
@[simp] theorem softReset_errCode (s : State) : (softReset s).errCode = .noError := rfl
@[simp] theorem softReset_errPos (s : State) : (softReset s).errPos = 0 := rfl
@[simp] theorem softReset_errByte (s : State) : (softReset s).errByte = 0 := rfl
@[simp] theorem softReset_errCmd (s : State) : (softReset s).errCmd = 0 := rfl
@[simp] theorem softReset_outCount (s : State) : (softReset s).outCount = 0 := rfl
@[simp] theorem softReset_nlen (s : State) : (softReset s).nlen = 0 := rfl
@[simp] theorem softReset_text (s : State) : (softReset s).text = s.text := rfl
@[simp] theorem softReset_sink (s : State) : (softReset s).sink = s.sink := rfl
@[simp] theorem softReset_cfg (s : State) : (softReset s).cfg = s.cfg := rfl
@[simp] theorem softReset_rom (s : State) : (softReset s).rom = s.rom := rfl
@[simp] theorem softReset_inbox (s : State) : (softReset s).inbox = s.inbox := rfl
@[simp] theorem softReset_hostData (s : State) : (softReset s).hostData = s.hostData := rfl

@[simp] theorem advance_pos (n : Nat) (s : State) : (advance n s).pos = s.pos + BitVec.ofNat 32 n := rfl
@[simp] theorem advance_oct (n : Nat) (s : State) : (advance n s).oct = s.oct := rfl
@[simp] theorem advance_tempo (n : Nat) (s : State) : (advance n s).tempo = s.tempo := rfl
@[simp] theorem advance_cnt (n : Nat) (s : State) : (advance n s).cnt = s.cnt := rfl
@[simp] theorem advance_rate (n : Nat) (s : State) : (advance n s).rate = s.rate := rfl
@[simp] theorem advance_done (n : Nat) (s : State) : (advance n s).done = s.done := rfl
@[simp] theorem advance_phase (n : Nat) (s : State) : (advance n s).phase = s.phase := rfl
@[simp] theorem advance_lvl (n : Nat) (s : State) : (advance n s).lvl = s.lvl := rfl
@[simp] theorem advance_subcnt (n : Nat) (s : State) : (advance n s).subcnt = s.subcnt := rfl
@[simp] theorem advance_rstate (n : Nat) (s : State) : (advance n s).rstate = s.rstate := rfl
@[simp] theorem advance_state (n : Nat) (s : State) : (advance n s).state = s.state := rfl
@[simp] theorem advance_errCode (n : Nat) (s : State) : (advance n s).errCode = s.errCode := rfl
@[simp] theorem advance_errPos (n : Nat) (s : State) : (advance n s).errPos = s.errPos := rfl
@[simp] theorem advance_errByte (n : Nat) (s : State) : (advance n s).errByte = s.errByte := rfl
@[simp] theorem advance_errCmd (n : Nat) (s : State) : (advance n s).errCmd = s.errCmd := rfl
@[simp] theorem advance_outCount (n : Nat) (s : State) : (advance n s).outCount = s.outCount := rfl
@[simp] theorem advance_nlen (n : Nat) (s : State) : (advance n s).nlen = s.nlen := rfl
@[simp] theorem advance_text (n : Nat) (s : State) : (advance n s).text = s.text := rfl
@[simp] theorem advance_sink (n : Nat) (s : State) : (advance n s).sink = s.sink := rfl
@[simp] theorem advance_cfg (n : Nat) (s : State) : (advance n s).cfg = s.cfg := rfl
@[simp] theorem advance_rom (n : Nat) (s : State) : (advance n s).rom = s.rom := rfl
@[simp] theorem advance_inbox (n : Nat) (s : State) : (advance n s).inbox = s.inbox := rfl
@[simp] theorem advance_hostData (n : Nat) (s : State) : (advance n s).hostData = s.hostData := rfl

@[simp] theorem appendSample_pos (v : Sample) (s : State) : (appendSample v s).pos = s.pos := rfl
@[simp] theorem appendSample_oct (v : Sample) (s : State) : (appendSample v s).oct = s.oct := rfl
@[simp] theorem appendSample_tempo (v : Sample) (s : State) : (appendSample v s).tempo = s.tempo := rfl
@[simp] theorem appendSample_cnt (v : Sample) (s : State) : (appendSample v s).cnt = s.cnt := rfl
@[simp] theorem appendSample_rate (v : Sample) (s : State) : (appendSample v s).rate = s.rate := rfl
@[simp] theorem appendSample_done (v : Sample) (s : State) : (appendSample v s).done = s.done := rfl
@[simp] theorem appendSample_phase (v : Sample) (s : State) : (appendSample v s).phase = s.phase := rfl
@[simp] theorem appendSample_lvl (v : Sample) (s : State) : (appendSample v s).lvl = s.lvl := rfl
@[simp] theorem appendSample_subcnt (v : Sample) (s : State) : (appendSample v s).subcnt = s.subcnt := rfl
@[simp] theorem appendSample_rstate (v : Sample) (s : State) : (appendSample v s).rstate = s.rstate := rfl
@[simp] theorem appendSample_state (v : Sample) (s : State) : (appendSample v s).state = s.state := rfl
@[simp] theorem appendSample_errCode (v : Sample) (s : State) : (appendSample v s).errCode = s.errCode := rfl
@[simp] theorem appendSample_errPos (v : Sample) (s : State) : (appendSample v s).errPos = s.errPos := rfl
@[simp] theorem appendSample_errByte (v : Sample) (s : State) : (appendSample v s).errByte = s.errByte := rfl
@[simp] theorem appendSample_errCmd (v : Sample) (s : State) : (appendSample v s).errCmd = s.errCmd := rfl
@[simp] theorem appendSample_outCount (v : Sample) (s : State) : (appendSample v s).outCount = s.outCount + 1 := rfl
@[simp] theorem appendSample_nlen (v : Sample) (s : State) : (appendSample v s).nlen = s.nlen := rfl
@[simp] theorem appendSample_text (v : Sample) (s : State) : (appendSample v s).text = s.text := rfl
@[simp] theorem appendSample_sink (v : Sample) (s : State) : (appendSample v s).sink = Memory.write s.sink s.outCount.toNat v := rfl
@[simp] theorem appendSample_cfg (v : Sample) (s : State) : (appendSample v s).cfg = s.cfg := rfl
@[simp] theorem appendSample_rom (v : Sample) (s : State) : (appendSample v s).rom = s.rom := rfl
@[simp] theorem appendSample_inbox (v : Sample) (s : State) : (appendSample v s).inbox = s.inbox := rfl
@[simp] theorem appendSample_hostData (v : Sample) (s : State) : (appendSample v s).hostData = s.hostData := rfl

@[simp] theorem sustain_pos (s : State) : (sustain s).pos = s.pos := rfl
@[simp] theorem sustain_oct (s : State) : (sustain s).oct = s.oct := rfl
@[simp] theorem sustain_tempo (s : State) : (sustain s).tempo = s.tempo := rfl
@[simp] theorem sustain_cnt (s : State) : (sustain s).cnt = if s.cnt = 0 then 0 else s.cnt - 1 := rfl
@[simp] theorem sustain_rate (s : State) : (sustain s).rate = s.rate := rfl
@[simp] theorem sustain_done (s : State) : (sustain s).done = s.done := rfl
@[simp] theorem sustain_phase (s : State) : (sustain s).phase = s.phase := rfl
@[simp] theorem sustain_lvl (s : State) : (sustain s).lvl = s.lvl := rfl
@[simp] theorem sustain_subcnt (s : State) : (sustain s).subcnt = s.subcnt := rfl
@[simp] theorem sustain_rstate (s : State) : (sustain s).rstate = s.rstate := rfl
@[simp] theorem sustain_state (s : State) : (sustain s).state = s.state := rfl
@[simp] theorem sustain_errCode (s : State) : (sustain s).errCode = s.errCode := rfl
@[simp] theorem sustain_errPos (s : State) : (sustain s).errPos = s.errPos := rfl
@[simp] theorem sustain_errByte (s : State) : (sustain s).errByte = s.errByte := rfl
@[simp] theorem sustain_errCmd (s : State) : (sustain s).errCmd = s.errCmd := rfl
@[simp] theorem sustain_outCount (s : State) : (sustain s).outCount = s.outCount := rfl
@[simp] theorem sustain_nlen (s : State) : (sustain s).nlen = s.nlen := rfl
@[simp] theorem sustain_text (s : State) : (sustain s).text = s.text := rfl
@[simp] theorem sustain_sink (s : State) : (sustain s).sink = s.sink := rfl
@[simp] theorem sustain_cfg (s : State) : (sustain s).cfg = s.cfg := rfl
@[simp] theorem sustain_rom (s : State) : (sustain s).rom = s.rom := rfl
@[simp] theorem sustain_inbox (s : State) : (sustain s).inbox = s.inbox := rfl
@[simp] theorem sustain_hostData (s : State) : (sustain s).hostData = s.hostData := rfl

@[simp] theorem countSample_pos (s : State) : (countSample s).pos = s.pos := rfl
@[simp] theorem countSample_oct (s : State) : (countSample s).oct = s.oct := rfl
@[simp] theorem countSample_tempo (s : State) : (countSample s).tempo = s.tempo := rfl
@[simp] theorem countSample_cnt (s : State) : (countSample s).cnt = s.cnt := rfl
@[simp] theorem countSample_rate (s : State) : (countSample s).rate = s.rate := rfl
@[simp] theorem countSample_done (s : State) : (countSample s).done = s.done := rfl
@[simp] theorem countSample_phase (s : State) : (countSample s).phase = s.phase := rfl
@[simp] theorem countSample_lvl (s : State) : (countSample s).lvl = s.lvl := rfl
@[simp] theorem countSample_subcnt (s : State) : (countSample s).subcnt = s.subcnt + 1 := rfl
@[simp] theorem countSample_rstate (s : State) : (countSample s).rstate = if (s.subcnt + 1).toNat = s.cfg.tickSamples then .needTick else s.rstate := rfl
@[simp] theorem countSample_state (s : State) : (countSample s).state = s.state := rfl
@[simp] theorem countSample_errCode (s : State) : (countSample s).errCode = s.errCode := rfl
@[simp] theorem countSample_errPos (s : State) : (countSample s).errPos = s.errPos := rfl
@[simp] theorem countSample_errByte (s : State) : (countSample s).errByte = s.errByte := rfl
@[simp] theorem countSample_errCmd (s : State) : (countSample s).errCmd = s.errCmd := rfl
@[simp] theorem countSample_outCount (s : State) : (countSample s).outCount = s.outCount := rfl
@[simp] theorem countSample_nlen (s : State) : (countSample s).nlen = s.nlen := rfl
@[simp] theorem countSample_text (s : State) : (countSample s).text = s.text := rfl
@[simp] theorem countSample_sink (s : State) : (countSample s).sink = s.sink := rfl
@[simp] theorem countSample_cfg (s : State) : (countSample s).cfg = s.cfg := rfl
@[simp] theorem countSample_rom (s : State) : (countSample s).rom = s.rom := rfl
@[simp] theorem countSample_inbox (s : State) : (countSample s).inbox = s.inbox := rfl
@[simp] theorem countSample_hostData (s : State) : (countSample s).hostData = s.hostData := rfl

@[simp] theorem advancePhase_pos (s : State) : (advancePhase s).pos = s.pos := rfl
@[simp] theorem advancePhase_oct (s : State) : (advancePhase s).oct = s.oct := rfl
@[simp] theorem advancePhase_tempo (s : State) : (advancePhase s).tempo = s.tempo := rfl
@[simp] theorem advancePhase_cnt (s : State) : (advancePhase s).cnt = s.cnt := rfl
@[simp] theorem advancePhase_rate (s : State) : (advancePhase s).rate = s.rate := rfl
@[simp] theorem advancePhase_done (s : State) : (advancePhase s).done = s.done := rfl
@[simp] theorem advancePhase_phase (s : State) : (advancePhase s).phase = s.phase + s.rate := rfl
@[simp] theorem advancePhase_lvl (s : State) : (advancePhase s).lvl = s.lvl := rfl
@[simp] theorem advancePhase_subcnt (s : State) : (advancePhase s).subcnt = s.subcnt := rfl
@[simp] theorem advancePhase_rstate (s : State) : (advancePhase s).rstate = s.rstate := rfl
@[simp] theorem advancePhase_state (s : State) : (advancePhase s).state = s.state := rfl
@[simp] theorem advancePhase_errCode (s : State) : (advancePhase s).errCode = s.errCode := rfl
@[simp] theorem advancePhase_errPos (s : State) : (advancePhase s).errPos = s.errPos := rfl
@[simp] theorem advancePhase_errByte (s : State) : (advancePhase s).errByte = s.errByte := rfl
@[simp] theorem advancePhase_errCmd (s : State) : (advancePhase s).errCmd = s.errCmd := rfl
@[simp] theorem advancePhase_outCount (s : State) : (advancePhase s).outCount = s.outCount := rfl
@[simp] theorem advancePhase_nlen (s : State) : (advancePhase s).nlen = s.nlen := rfl
@[simp] theorem advancePhase_text (s : State) : (advancePhase s).text = s.text := rfl
@[simp] theorem advancePhase_sink (s : State) : (advancePhase s).sink = s.sink := rfl
@[simp] theorem advancePhase_cfg (s : State) : (advancePhase s).cfg = s.cfg := rfl
@[simp] theorem advancePhase_rom (s : State) : (advancePhase s).rom = s.rom := rfl
@[simp] theorem advancePhase_inbox (s : State) : (advancePhase s).inbox = s.inbox := rfl
@[simp] theorem advancePhase_hostData (s : State) : (advancePhase s).hostData = s.hostData := rfl

@[simp] theorem outputOverflow_pos (s : State) : (outputOverflow s).pos = BitVec.ofNat 32 s.pos.toNat := rfl
@[simp] theorem outputOverflow_oct (s : State) : (outputOverflow s).oct = s.oct := rfl
@[simp] theorem outputOverflow_tempo (s : State) : (outputOverflow s).tempo = s.tempo := rfl
@[simp] theorem outputOverflow_cnt (s : State) : (outputOverflow s).cnt = s.cnt := rfl
@[simp] theorem outputOverflow_rate (s : State) : (outputOverflow s).rate = s.rate := rfl
@[simp] theorem outputOverflow_done (s : State) : (outputOverflow s).done = s.done := rfl
@[simp] theorem outputOverflow_phase (s : State) : (outputOverflow s).phase = s.phase := rfl
@[simp] theorem outputOverflow_lvl (s : State) : (outputOverflow s).lvl = s.lvl := rfl
@[simp] theorem outputOverflow_subcnt (s : State) : (outputOverflow s).subcnt = s.subcnt := rfl
@[simp] theorem outputOverflow_rstate (s : State) : (outputOverflow s).rstate = s.rstate := rfl
@[simp] theorem outputOverflow_state (s : State) : (outputOverflow s).state = .error := rfl
@[simp] theorem outputOverflow_errCode (s : State) : (outputOverflow s).errCode = .outputOverflow := rfl
@[simp] theorem outputOverflow_errPos (s : State) : (outputOverflow s).errPos = BitVec.ofNat 32 s.pos.toNat := rfl
@[simp] theorem outputOverflow_errByte (s : State) : (outputOverflow s).errByte = 0 := rfl
@[simp] theorem outputOverflow_errCmd (s : State) : (outputOverflow s).errCmd = 0 := rfl
@[simp] theorem outputOverflow_outCount (s : State) : (outputOverflow s).outCount = s.outCount := rfl
@[simp] theorem outputOverflow_nlen (s : State) : (outputOverflow s).nlen = s.nlen := rfl
@[simp] theorem outputOverflow_text (s : State) : (outputOverflow s).text = s.text := rfl
@[simp] theorem outputOverflow_sink (s : State) : (outputOverflow s).sink = s.sink := rfl
@[simp] theorem outputOverflow_cfg (s : State) : (outputOverflow s).cfg = s.cfg := rfl
@[simp] theorem outputOverflow_rom (s : State) : (outputOverflow s).rom = s.rom := rfl
@[simp] theorem outputOverflow_inbox (s : State) : (outputOverflow s).inbox = s.inbox := rfl
@[simp] theorem outputOverflow_hostData (s : State) : (outputOverflow s).hostData = s.hostData := rfl

@[simp] theorem finishTick_pos (s : State) : (finishTick s).pos = s.pos := by
  cases h : s.done <;> simp [finishTick, h]
@[simp] theorem finishTick_oct (s : State) : (finishTick s).oct = s.oct := by
  cases h : s.done <;> simp [finishTick, h]
@[simp] theorem finishTick_tempo (s : State) : (finishTick s).tempo = s.tempo := by
  cases h : s.done <;> simp [finishTick, h]
@[simp] theorem finishTick_cnt (s : State) : (finishTick s).cnt = s.cnt := by
  cases h : s.done <;> simp [finishTick, h]
@[simp] theorem finishTick_rate (s : State) : (finishTick s).rate = s.rate := by
  cases h : s.done <;> simp [finishTick, h]
@[simp] theorem finishTick_done (s : State) : (finishTick s).done = s.done := by
  cases h : s.done <;> simp [finishTick, h]
@[simp] theorem finishTick_phase (s : State) : (finishTick s).phase = s.phase := by
  cases h : s.done <;> simp [finishTick, h]
@[simp] theorem finishTick_lvl (s : State) : (finishTick s).lvl = if s.done then s.lvl else if s.rate = 0 then s.lvl else BitVec.ofNat 5 (selectLevel s.rom.thr s.rate) := by
  cases h : s.done <;> simp [finishTick, h]
@[simp] theorem finishTick_subcnt (s : State) : (finishTick s).subcnt = if s.done then s.subcnt else 0 := by
  cases h : s.done <;> simp [finishTick, h]
@[simp] theorem finishTick_rstate (s : State) : (finishTick s).rstate = if s.done then s.rstate else .emit := by
  cases h : s.done <;> simp [finishTick, h]
@[simp] theorem finishTick_state (s : State) : (finishTick s).state = if s.done then .done else s.state := by
  cases h : s.done <;> simp [finishTick, h]
@[simp] theorem finishTick_errCode (s : State) : (finishTick s).errCode = s.errCode := by
  cases h : s.done <;> simp [finishTick, h]
@[simp] theorem finishTick_errPos (s : State) : (finishTick s).errPos = s.errPos := by
  cases h : s.done <;> simp [finishTick, h]
@[simp] theorem finishTick_errByte (s : State) : (finishTick s).errByte = s.errByte := by
  cases h : s.done <;> simp [finishTick, h]
@[simp] theorem finishTick_errCmd (s : State) : (finishTick s).errCmd = s.errCmd := by
  cases h : s.done <;> simp [finishTick, h]
@[simp] theorem finishTick_outCount (s : State) : (finishTick s).outCount = s.outCount := by
  cases h : s.done <;> simp [finishTick, h]
@[simp] theorem finishTick_nlen (s : State) : (finishTick s).nlen = s.nlen := by
  cases h : s.done <;> simp [finishTick, h]
@[simp] theorem finishTick_text (s : State) : (finishTick s).text = s.text := by
  cases h : s.done <;> simp [finishTick, h]
@[simp] theorem finishTick_sink (s : State) : (finishTick s).sink = s.sink := by
  cases h : s.done <;> simp [finishTick, h]
@[simp] theorem finishTick_cfg (s : State) : (finishTick s).cfg = s.cfg := by
  cases h : s.done <;> simp [finishTick, h]
@[simp] theorem finishTick_rom (s : State) : (finishTick s).rom = s.rom := by
  cases h : s.done <;> simp [finishTick, h]
@[simp] theorem finishTick_inbox (s : State) : (finishTick s).inbox = s.inbox := by
  cases h : s.done <;> simp [finishTick, h]
@[simp] theorem finishTick_hostData (s : State) : (finishTick s).hostData = s.hostData := by
  cases h : s.done <;> simp [finishTick, h]

/-- What `finishTick` does on the terminal tick. -/
theorem finishTick_of_done (s : State) (h : s.done = true) : finishTick s = { s with state := .done } := by
  simp [finishTick, h]

/-- What `finishTick` does on any other tick. -/
theorem finishTick_of_not_done (s : State) (h : s.done = false) :
    finishTick s =
      { s with
        lvl := if s.rate = 0 then s.lvl else BitVec.ofNat 5 (selectLevel s.rom.thr s.rate)
        subcnt := 0
        rstate := .emit } := by
  simp [finishTick, h]

end Sys2Proof.Machine
end

