-- ==== Sys2Proof/Laws/Commands.lean ====
section
/-! SUPPORT. What the shared operations of the commands, and a command as a whole, can do: one inversion lemma each. -/

namespace Sys2Proof.Machine

theorem pastEnd_eq_false {s : State} {a : Nat} : pastEnd s a = false ↔ a < s.nlen.toNat := by
  simp [pastEnd]

theorem pastEnd_eq_true {s : State} {a : Nat} : pastEnd s a = true ↔ s.nlen.toNat ≤ a := by
  simp [pastEnd]

theorem isDigit_iff {hi : Nat} {b : Byte} : isDigit hi b = true ↔ 0x30 ≤ b.toNat ∧ b.toNat ≤ 0x30 + hi := by
  simp [isDigit]

/-- `readDigit` answers a digit exactly when the index is below NLEN and the byte is a digit in range (R114). -/
theorem readDigit_ok {a hi : Nat} {cmd b : Byte} {s : State} {d : Nat} :
    readDigit a hi cmd b s = .ok d ↔ a < s.nlen.toNat ∧ isDigit hi b = true ∧ d = digitValue b := by
  unfold readDigit
  split
  · next h => simp [pastEnd_eq_true] at h; simp; omega
  · next h =>
    simp [pastEnd_eq_false] at h
    split
    · next hd => simp [h, hd, eq_comm (a := d)]
    · next hd => simp [hd]

/-- `readDigit` fails in one of two ways, NO_TERMINATOR first (R114, R186). -/
theorem readDigit_error {a hi : Nat} {cmd b : Byte} {s t : State} :
    readDigit a hi cmd b s = .error t ↔
      (s.nlen.toNat ≤ a ∧ t = raiseError .noTerminator a 0 cmd s) ∨
      (a < s.nlen.toNat ∧ isDigit hi b = false ∧ t = raiseError .rangeError a b cmd s) := by
  unfold readDigit
  split
  · next h =>
    simp [pastEnd_eq_true] at h
    constructor
    · intro e; cases e; exact .inl ⟨h, rfl⟩
    · rintro (⟨-, rfl⟩ | ⟨h', -⟩)
      · rfl
      · omega
  · next h =>
    simp [pastEnd_eq_false] at h
    split
    · next hd =>
      constructor
      · intro e; cases e
      · rintro (⟨h', -⟩ | ⟨-, h', -⟩)
        · omega
        · rw [hd] at h'; cases h'
    · next hd =>
      constructor
      · intro e; cases e; exact .inr ⟨h, by simpa using hd, rfl⟩
      · rintro (⟨h', -⟩ | ⟨-, -, rfl⟩)
        · omega
        · rfl

/-- What the end of an event writes (R122, R124). -/
theorem playEvent_next {d : Nat} {rate : Word} {n : Nat} {s t : State} :
    playEvent d rate n s = .next t ↔
      ∃ len, s.cfg.len[d]? = some len ∧ duration s len < 2 ^ 32 ∧
        t = advance n { s with cnt := BitVec.ofNat 32 (duration s len), rate := rate } := by
  unfold playEvent
  split
  · next h => simp [h]
  · next len h =>
    split
    · next hd =>
      constructor
      · intro e; cases e; exact ⟨len, h, hd, rfl⟩
      · rintro ⟨len', h', -, rfl⟩
        rw [h] at h'; cases h'; rfl
    · next hd =>
      constructor
      · intro e; cases e
      · rintro ⟨len', h', hd', -⟩
        rw [h] at h'; cases h'; exact absurd hd' hd

/-- What a note can do: fail at the lookahead or at the digit, or play (R122). -/
theorem noteEvent_next {letter : Letter} {m : Modifier} {digit : Byte} {s t : State}
    (h : noteEvent letter m digit s = .next t) :
    (s.nlen.toNat ≤ s.pos.toNat + 1 ∧
      t = raiseError .noTerminator (s.pos.toNat + 1) 0 (letterByte letter) s) ∨
    (s.pos.toNat + 1 < s.nlen.toNat ∧
      readDigit (s.pos.toNat + 1 + modifierLength m) 9 (letterByte letter) digit s = .error t) ∨
    (s.pos.toNat + 1 + modifierLength m < s.nlen.toNat ∧ isDigit 9 digit = true ∧
      ∃ rate len, s.rom.noteRate[(noteIndex letter m s.oct.toNat).toNat]? = some rate ∧
        s.cfg.len[digitValue digit]? = some len ∧ duration s len < 2 ^ 32 ∧
        t = advance (2 + modifierLength m) { s with cnt := BitVec.ofNat 32 (duration s len), rate := rate }) := by
  unfold noteEvent at h
  split at h
  · next hp => cases h; exact .inl ⟨pastEnd_eq_true.1 hp, rfl⟩
  · next hp =>
    simp [pastEnd_eq_false] at hp
    split at h
    · next s' hr => cases h; exact .inr (.inl ⟨hp, hr⟩)
    · next d hr =>
      obtain ⟨hlt, hdig, rfl⟩ := readDigit_ok.1 hr
      split at h
      · cases h
      · next rate hrate =>
        obtain ⟨len, hlen, hdur, rfl⟩ := playEvent_next.1 h
        exact .inr (.inr ⟨hlt, hdig, rate, len, hrate, hlen, hdur, rfl⟩)

/-- The state after a command that raised an error: the error entry of R184 at an index that the failing fetch or
check was at. -/
def RaisedFrom (s t : State) : Prop :=
  ∃ code p byte cmd, t = raiseError code p byte cmd s ∧ p ≤ s.pos.toNat + 2 ∧
    ((code = .noTerminator ∧ byte = 0 ∧ s.nlen.toNat ≤ p ∧ (s.pos.toNat < s.nlen.toNat → p = s.nlen.toNat)) ∨
      (code = .rangeError ∧ p < s.nlen.toNat))

theorem RaisedFrom.of_readDigit {a hi : Nat} {cmd b : Byte} {s t : State}
    (ha : a ≤ s.pos.toNat + 2) (ha' : s.pos.toNat < s.nlen.toNat → a ≤ s.nlen.toNat)
    (h : readDigit a hi cmd b s = .error t) : RaisedFrom s t := by
  rcases readDigit_error.1 h with ⟨h1, rfl⟩ | ⟨h1, -, rfl⟩
  · exact ⟨_, _, _, _, rfl, ha, .inl ⟨rfl, rfl, h1, fun hp => le_antisymm (ha' hp) h1⟩⟩
  · exact ⟨_, _, _, _, rfl, ha, .inr ⟨rfl, h1⟩⟩

theorem RaisedFrom.state_eq {s t : State} (h : RaisedFrom s t) : t.state = .error := by
  obtain ⟨_, _, _, _, rfl, -⟩ := h; rfl

/-- What a command can do when it raises no error: it moves POS past its bytes, END apart, inside the text, and writes
registers of the sequencer only (10_state.md R20). -/
structure Completed (i : Instr) (s t : State) : Prop where
  same : t = { s with pos := t.pos, oct := t.oct, tempo := t.tempo, cnt := t.cnt, rate := t.rate, done := t.done }
  moved : i ≠ .endText → t.pos = s.pos + BitVec.ofNat 32 i.length
  inside : i ≠ .endText → s.pos.toNat < s.nlen.toNat → s.pos.toNat + i.length ≤ s.nlen.toNat
  stays : i = .endText → t.pos = s.pos
  event : i.endsScan = false → t.cnt = s.cnt ∧ t.rate = s.rate ∧ t.done = s.done

theorem modifierLength_le (m : Modifier) : modifierLength m ≤ 1 := by cases m <;> decide

/-- `noteEvent` either raises an error or completes. -/
theorem noteEvent_cases {letter : Letter} {m : Modifier} {digit : Byte} {s t : State}
    (h : noteEvent letter m digit s = .next t) :
    RaisedFrom s t ∨
      (s.pos.toNat + (2 + modifierLength m) ≤ s.nlen.toNat ∧
        t = { s with pos := s.pos + BitVec.ofNat 32 (2 + modifierLength m), cnt := t.cnt, rate := t.rate }) := by
  have hm := modifierLength_le m
  rcases noteEvent_next h with ⟨h1, rfl⟩ | ⟨h1, h2⟩ | ⟨h1, -, rate, len, -, -, -, rfl⟩
  · exact .inl ⟨_, _, _, _, rfl, by omega, .inl ⟨rfl, rfl, h1, by omega⟩⟩
  · exact .inl (RaisedFrom.of_readDigit (by omega) (by omega) h2)
  · exact .inr ⟨by omega, rfl⟩

/-- Every command either raises an error (R184) or completes (R20). -/
theorem exec_cases {i : Instr} {s t : State} (h : exec i s = .next t) : RaisedFrom s t ∨ Completed i s t := by
  have note : ∀ (l : Letter) (m : Modifier) (digit : Byte) (i : Instr), noteEvent l m digit s = .next t →
      i.length = 2 + modifierLength m → i.endsScan = true → i ≠ .endText → RaisedFrom s t ∨ Completed i s t := by
    intro l m digit i hn hlen hends hne
    rcases noteEvent_cases hn with hr | ⟨hle, ht⟩
    · exact .inl hr
    · refine .inr ⟨?_, ?_, ?_, ?_, ?_⟩
      · rw [ht]
      · intro _; rw [ht, hlen]
      · intro _ _; rw [hlen]; exact hle
      · intro he; exact absurd he hne
      · intro he; rw [hends] at he; cases he
  cases i with
  | endText =>
    cases h
    exact .inr ⟨rfl, by simp, by simp, fun _ => rfl, by simp [Instr.endsScan]⟩
  | wsHt => cases h; exact .inr ⟨rfl, fun _ => rfl, by simp [Instr.length], by simp, fun _ => ⟨rfl, rfl, rfl⟩⟩
  | wsLf => cases h; exact .inr ⟨rfl, fun _ => rfl, by simp [Instr.length], by simp, fun _ => ⟨rfl, rfl, rfl⟩⟩
  | wsVt => cases h; exact .inr ⟨rfl, fun _ => rfl, by simp [Instr.length], by simp, fun _ => ⟨rfl, rfl, rfl⟩⟩
  | wsFf => cases h; exact .inr ⟨rfl, fun _ => rfl, by simp [Instr.length], by simp, fun _ => ⟨rfl, rfl, rfl⟩⟩
  | wsCr => cases h; exact .inr ⟨rfl, fun _ => rfl, by simp [Instr.length], by simp, fun _ => ⟨rfl, rfl, rfl⟩⟩
  | wsSp => cases h; exact .inr ⟨rfl, fun _ => rfl, by simp [Instr.length], by simp, fun _ => ⟨rfl, rfl, rfl⟩⟩
  | octUp => cases h; exact .inr ⟨rfl, fun _ => rfl, by simp [Instr.length], by simp, fun _ => ⟨rfl, rfl, rfl⟩⟩
  | octDn => cases h; exact .inr ⟨rfl, fun _ => rfl, by simp [Instr.length], by simp, fun _ => ⟨rfl, rfl, rfl⟩⟩
  | oct digit =>
    simp only [exec, execOct] at h
    split at h
    · next s' hr => cases h; exact .inl (RaisedFrom.of_readDigit (by omega) (by omega) hr)
    · next d hr =>
      cases h
      have := (readDigit_ok.1 hr).1
      exact .inr ⟨rfl, fun _ => rfl, by simp [Instr.length]; omega, by simp, fun _ => ⟨rfl, rfl, rfl⟩⟩
  | tempo digit =>
    simp only [exec, execTempo] at h
    split at h
    · next s' hr => cases h; exact .inl (RaisedFrom.of_readDigit (by omega) (by omega) hr)
    · next d hr =>
      cases h
      have := (readDigit_ok.1 hr).1
      exact .inr ⟨rfl, fun _ => rfl, by simp [Instr.length]; omega, by simp, fun _ => ⟨rfl, rfl, rfl⟩⟩
  | rest digit =>
    simp only [exec, execRest] at h
    split at h
    · next s' hr => cases h; exact .inl (RaisedFrom.of_readDigit (by omega) (by omega) hr)
    · next d hr =>
      have hlt := (readDigit_ok.1 hr).1
      obtain ⟨len, -, -, rfl⟩ := playEvent_next.1 h
      exact .inr ⟨rfl, fun _ => rfl, by simp [Instr.length]; omega, by simp, by simp [Instr.endsScan]⟩
  | noteC m digit => exact note .c m digit _ h rfl rfl (by simp)
  | noteD m digit => exact note .d m digit _ h rfl rfl (by simp)
  | noteE m digit => exact note .e m digit _ h rfl rfl (by simp)
  | noteF m digit => exact note .f m digit _ h rfl rfl (by simp)
  | noteG m digit => exact note .g m digit _ h rfl rfl (by simp)
  | noteA m digit => exact note .a m digit _ h rfl rfl (by simp)
  | noteB m digit => exact note .b m digit _ h rfl rfl (by simp)

/-- A command that completes leaves STATE as it was. -/
theorem Completed.state_eq {i : Instr} {s t : State} (h : Completed i s t) : t.state = s.state := by
  rw [h.same]

theorem Completed.nlen_eq {i : Instr} {s t : State} (h : Completed i s t) : t.nlen = s.nlen := by
  rw [h.same]

theorem Instr.one_le_length (i : Instr) : 1 ≤ i.length := by
  cases i <;> simp only [Instr.length] <;> omega

/-- A command that completes and is not END moves POS up, by its length and not past NLEN (10_state.md R21,
20_memory.md R53). -/
theorem Completed.pos_toNat {i : Instr} {s t : State} (h : Completed i s t) (hi : i ≠ .endText)
    (hp : s.pos.toNat < s.nlen.toNat) :
    t.pos.toNat = s.pos.toNat + i.length ∧ t.pos.toNat ≤ t.nlen.toNat := by
  have h1 := h.inside hi hp
  have h2 := s.nlen.isLt
  have h3 : t.pos.toNat = s.pos.toNat + i.length := by
    rw [h.moved hi, BitVec.toNat_add, BitVec.toNat_ofNat]
    have : i.length < 2 ^ 32 := by omega
    rw [Nat.mod_eq_of_lt this, Nat.mod_eq_of_lt (by omega)]
  exact ⟨h3, by rw [h.nlen_eq, h3]; exact h1⟩

end Sys2Proof.Machine
end

