-- ==== Sys2Proof/Laws/PerInstr.lean ====
section
/-! SUPPORT. Statements about every instruction as syntax, one lemma per constructor: the length of an encoding. -/

namespace Sys2Proof.Laws

/-- The encoding of an instruction has the instruction's length, 1 to 3 bytes (30_encoding.md R70, R78). -/
def EncodingLength.Statement (i : Instr) : Prop :=
  (encode i).length = i.length ∧ 1 ≤ i.length ∧ i.length ≤ 3

theorem EncodingLength.endText : EncodingLength.Statement .endText := by
  exact ⟨rfl, by simp [Instr.length], by simp [Instr.length]⟩

theorem EncodingLength.wsHt : EncodingLength.Statement .wsHt := by
  exact ⟨rfl, by simp [Instr.length], by simp [Instr.length]⟩

theorem EncodingLength.wsLf : EncodingLength.Statement .wsLf := by
  exact ⟨rfl, by simp [Instr.length], by simp [Instr.length]⟩

theorem EncodingLength.wsVt : EncodingLength.Statement .wsVt := by
  exact ⟨rfl, by simp [Instr.length], by simp [Instr.length]⟩

theorem EncodingLength.wsFf : EncodingLength.Statement .wsFf := by
  exact ⟨rfl, by simp [Instr.length], by simp [Instr.length]⟩

theorem EncodingLength.wsCr : EncodingLength.Statement .wsCr := by
  exact ⟨rfl, by simp [Instr.length], by simp [Instr.length]⟩

theorem EncodingLength.wsSp : EncodingLength.Statement .wsSp := by
  exact ⟨rfl, by simp [Instr.length], by simp [Instr.length]⟩

theorem EncodingLength.octUp : EncodingLength.Statement .octUp := by
  exact ⟨rfl, by simp [Instr.length], by simp [Instr.length]⟩

theorem EncodingLength.octDn : EncodingLength.Statement .octDn := by
  exact ⟨rfl, by simp [Instr.length], by simp [Instr.length]⟩

theorem EncodingLength.oct (digit : Byte) : EncodingLength.Statement (.oct digit) := by
  exact ⟨rfl, by simp [Instr.length], by simp [Instr.length]⟩

theorem EncodingLength.tempo (digit : Byte) : EncodingLength.Statement (.tempo digit) := by
  exact ⟨rfl, by simp [Instr.length], by simp [Instr.length]⟩

theorem EncodingLength.rest (digit : Byte) : EncodingLength.Statement (.rest digit) := by
  exact ⟨rfl, by simp [Instr.length], by simp [Instr.length]⟩

theorem EncodingLength.noteC (m : Modifier) (digit : Byte) : EncodingLength.Statement (.noteC m digit) := by
  cases m <;> exact ⟨rfl, by simp [Instr.length, modifierLength], by simp [Instr.length, modifierLength]⟩

theorem EncodingLength.noteD (m : Modifier) (digit : Byte) : EncodingLength.Statement (.noteD m digit) := by
  cases m <;> exact ⟨rfl, by simp [Instr.length, modifierLength], by simp [Instr.length, modifierLength]⟩

theorem EncodingLength.noteE (m : Modifier) (digit : Byte) : EncodingLength.Statement (.noteE m digit) := by
  cases m <;> exact ⟨rfl, by simp [Instr.length, modifierLength], by simp [Instr.length, modifierLength]⟩

theorem EncodingLength.noteF (m : Modifier) (digit : Byte) : EncodingLength.Statement (.noteF m digit) := by
  cases m <;> exact ⟨rfl, by simp [Instr.length, modifierLength], by simp [Instr.length, modifierLength]⟩

theorem EncodingLength.noteG (m : Modifier) (digit : Byte) : EncodingLength.Statement (.noteG m digit) := by
  cases m <;> exact ⟨rfl, by simp [Instr.length, modifierLength], by simp [Instr.length, modifierLength]⟩

theorem EncodingLength.noteA (m : Modifier) (digit : Byte) : EncodingLength.Statement (.noteA m digit) := by
  cases m <;> exact ⟨rfl, by simp [Instr.length, modifierLength], by simp [Instr.length, modifierLength]⟩

theorem EncodingLength.noteB (m : Modifier) (digit : Byte) : EncodingLength.Statement (.noteB m digit) := by
  cases m <;> exact ⟨rfl, by simp [Instr.length, modifierLength], by simp [Instr.length, modifierLength]⟩

end Sys2Proof.Laws
end

