-- ==== Sys2Proof/Laws/Synthesis.lean ====
section
/-! SUPPORT. The fixed-point reference table of Machine/Synthesis.lean against the reals of 40_wavetable.md R91: the error
of each computed sine and harmonic sum, and that an accepted WT_ROM meets R94 (d) (`waveTablesNear_sound`). -/

namespace Sys2Proof.Machine

/-! ### The sines of the first quarter -/

/-- `twiceCosine` is 2·cos(π / 2^(n+1)), too small by at most two units. -/
theorem twiceCosine_error {p : Nat} (hp : 1 ≤ p) (n : Nat) :
    Real.sqrtTwoAddSeries 0 n * 2 ^ p - 2 ≤ twiceCosine p n ∧
      (twiceCosine p n : ℝ) ≤ Real.sqrtTwoAddSeries 0 n * 2 ^ p := by
  have hK : (2 : ℝ) ≤ 2 ^ p := by
    calc (2 : ℝ) = 2 ^ 1 := by norm_num
      _ ≤ 2 ^ p := pow_le_pow_right₀ (by norm_num) hp
  induction n with
  | zero => simp [twiceCosine]
  | succ n ih =>
    obtain ⟨h1, h2⟩ := ih
    have hc0 : 0 ≤ Real.sqrtTwoAddSeries 0 n := Real.sqrtTwoAddSeries_zero_nonneg n
    have hs : Real.sqrtTwoAddSeries 0 (n + 1) = √(2 + Real.sqrtTwoAddSeries 0 n) := rfl
    rw [hs]
    generalize Real.sqrtTwoAddSeries 0 n = c at *
    have hsq : √(2 + c) ^ 2 = 2 + c := Real.sq_sqrt (by linarith)
    have hs0 : 0 ≤ √(2 + c) := Real.sqrt_nonneg _
    generalize √(2 + c) = s at *
    have hs1 : 1.4 ≤ s := by nlinarith
    have u1 : ((twiceCosine p (n + 1) : ℕ) : ℝ) ^ 2 ≤ (2 * 2 ^ p + twiceCosine p n) * 2 ^ p := by
      have := Nat.sqrt_le' ((2 * 2 ^ p + twiceCosine p n) * 2 ^ p)
      rw [twiceCosine]
      exact_mod_cast this
    have u2 : (2 * 2 ^ p + (twiceCosine p n : ℝ)) * 2 ^ p < (((twiceCosine p (n + 1) : ℕ) : ℝ) + 1) ^ 2 := by
      have := Nat.lt_succ_sqrt' ((2 * 2 ^ p + twiceCosine p n) * 2 ^ p)
      rw [twiceCosine]
      exact_mod_cast this
    have hv0 : (0 : ℝ) ≤ (twiceCosine p (n + 1) : ℕ) := by positivity
    generalize ((twiceCosine p (n + 1) : ℕ) : ℝ) = v at *
    generalize ((twiceCosine p n : ℕ) : ℝ) = w at *
    generalize (2 : ℝ) ^ p = K at *
    have hsK : s ^ 2 * K ^ 2 = (2 + c) * K ^ 2 := by rw [hsq]
    have hw1 : (c * K - 2) * K ≤ w * K := mul_le_mul_of_nonneg_right h1 (by linarith)
    have hw2 : w * K ≤ c * K * K := mul_le_mul_of_nonneg_right h2 (by linarith)
    constructor
    · have : (s * K - 1) ^ 2 < (v + 1) ^ 2 := by nlinarith
      have := lt_of_pow_lt_pow_left₀ 2 (by linarith) this
      linarith
    · have : v ^ 2 ≤ (s * K) ^ 2 := by nlinarith
      exact le_of_sq_le_sq this (by positivity)

/-- One step of the recurrence multiplies the error by less than 4. -/
theorem nextTerm_error {p q t t0 : Nat} {bias : Nat} {Q T T0 B d e : ℝ} (hb : (bias : ℝ) = B * q)
    (hQ : 0 ≤ Q) (hQ4 : Q ≤ 4) (hq : |(q : ℝ) - Q * 2 ^ p| ≤ d) (ht : |(t : ℝ) - T * 2 ^ p| ≤ e)
    (ht0 : |(t0 : ℝ) - T0 * 2 ^ p| ≤ e) (hT : |T - B| ≤ 1) (he : e ≤ 2 ^ p) (hd : 2 * d + 1 ≤ e)
    (hX : 0 ≤ (2 - Q) * T - T0 + B * Q) :
    |(nextTerm p q bias t t0 : ℝ) - ((2 - Q) * T - T0 + B * Q) * 2 ^ p| ≤ 4 * e := by
  have hK : (0 : ℝ) < 2 ^ p := by positivity
  have hd0 : 0 ≤ d := (abs_nonneg _).trans hq
  have f1 : ((q * t / 2 ^ p : ℕ) : ℝ) ≤ q * t / 2 ^ p := by exact_mod_cast Nat.cast_div_le (α := ℝ)
  have f2 : (q * t : ℝ) / 2 ^ p < ((q * t / 2 ^ p : ℕ) : ℝ) + 1 := by
    rw [div_lt_iff₀ hK]
    exact_mod_cast Nat.lt_mul_of_div_lt (Nat.lt_succ_self (q * t / 2 ^ p)) (by positivity)
  have z0 : (2 * t + bias : ℝ) - (t0 + (q * t / 2 ^ p : ℕ)) ≤ nextTerm p q bias t t0 := by
    unfold nextTerm
    have : 2 * t + bias ≤ 2 * t + bias - (t0 + q * t / 2 ^ p) + (t0 + q * t / 2 ^ p) := by omega
    have : (2 * t + bias : ℝ) ≤ (2 * t + bias - (t0 + q * t / 2 ^ p) : ℕ) + (t0 + (q * t / 2 ^ p : ℕ)) := by
      exact_mod_cast this
    linarith
  have z1 : (nextTerm p q bias t t0 : ℝ) = 0 ∨
      (nextTerm p q bias t t0 : ℝ) = (2 * t + bias : ℝ) - (t0 + (q * t / 2 ^ p : ℕ)) := by
    unfold nextTerm
    rcases Nat.le_total (2 * t + bias) (t0 + q * t / 2 ^ p) with h | h
    · left; simp [Nat.sub_eq_zero_of_le h]
    · right; rw [Nat.cast_sub h]; push_cast; ring
  have expand : (2 * t + bias : ℝ) - t0 - q * t / 2 ^ p - ((2 - Q) * T - T0 + B * Q) * 2 ^ p =
      (2 - Q) * (t - T * 2 ^ p) - (t0 - T0 * 2 ^ p) - (q - Q * 2 ^ p) * (t / 2 ^ p - B) := by
    rw [hb]; field_simp; ring
  have hw : |(t : ℝ) / 2 ^ p - B| ≤ 2 := by
    have h1 : |(t : ℝ) / 2 ^ p - T| ≤ 1 := by
      have : (t : ℝ) / 2 ^ p - T = (t - T * 2 ^ p) / 2 ^ p := by field_simp
      rw [this, abs_div, abs_of_pos hK, div_le_one hK]
      exact ht.trans he
    calc |(t : ℝ) / 2 ^ p - B| = |(t / 2 ^ p - T) + (T - B)| := by ring_nf
      _ ≤ _ := (abs_add_le _ _).trans (by linarith)
  have a1 : |(2 - Q) * (t - T * 2 ^ p)| ≤ 2 * e := by
    rw [abs_mul]
    exact mul_le_mul (abs_le.2 ⟨by linarith, by linarith⟩) ht (abs_nonneg _) (by norm_num)
  have a2 : |((q : ℝ) - Q * 2 ^ p) * (t / 2 ^ p - B)| ≤ d * 2 := by
    rw [abs_mul]
    exact mul_le_mul hq hw (abs_nonneg _) hd0
  have hX' : 0 ≤ ((2 - Q) * T - T0 + B * Q) * 2 ^ p := by positivity
  generalize ((2 - Q) * T - T0 + B * Q) * 2 ^ p = X at *
  generalize ((nextTerm p q bias t t0 : ℕ) : ℝ) = N at *
  generalize ((q * t / 2 ^ p : ℕ) : ℝ) = f at *
  generalize (q * t : ℝ) / 2 ^ p = g at *
  rw [abs_le] at a1 a2 ht0 ⊢
  rcases z1 with h | h
  · constructor <;> linarith
  · constructor <;> linarith

theorem length_cosines (p q : Nat) : ∀ n t t0, (cosines p q n t t0).length = n
  | 0, _, _ => rfl
  | n + 1, _, _ => by simp [cosines, length_cosines p q n]

/-- The cosines of equally spaced angles of the first quarter. -/
theorem cosines_error {p q : Nat} {x d : ℝ} (hx : 0 ≤ x) (hq : |(q : ℝ) - (2 - 2 * Real.cos x) * 2 ^ p| ≤ d) (n m : Nat)
    (t t0 : Nat) {e : ℝ} (hd : 2 * d + 1 ≤ e) (he : e * 4 ^ n ≤ 2 ^ p) (hm : (m + n) * x ≤ Real.pi / 2)
    (ht : |(t : ℝ) - Real.cos ((m + 1) * x) * 2 ^ p| ≤ e) (ht0 : |(t0 : ℝ) - Real.cos (m * x) * 2 ^ p| ≤ e) :
    ∀ j < n, |((cosines p q n t t0).getD j 0 : ℝ) - Real.cos ((m + 1 + j) * x) * 2 ^ p| ≤ e * 4 ^ j := by
  have he0 : 0 ≤ e := (abs_nonneg _).trans ht
  induction n generalizing m t t0 e with
  | zero => intro j hj; omega
  | succ n ih =>
    intro j hj
    rcases j with _ | j
    · simpa [cosines] using ht
    · have hle : e ≤ 2 ^ p := by
        have : (1 : ℝ) ≤ 4 ^ (n + 1) := one_le_pow₀ (by norm_num)
        nlinarith
      have hcos : (2 - (2 - 2 * Real.cos x)) * Real.cos ((m + 1) * x) - Real.cos (m * x) + 0 * (2 - 2 * Real.cos x) =
          Real.cos ((m + 1 + 1) * x) := by
        have h1 : ((m : ℝ) + 1 + 1) * x = (m + 1) * x + x := by ring
        have h2 : (m : ℝ) * x = (m + 1) * x - x := by ring
        rw [h1, h2, Real.cos_add, Real.cos_sub]; ring
      have hpos : 0 ≤ Real.cos ((m + 1 + 1) * x) := by
        apply Real.cos_nonneg_of_neg_pi_div_two_le_of_le
        · have := Real.pi_pos; have : 0 ≤ ((m : ℝ) + 1 + 1) * x := by positivity
          linarith
        · refine le_trans ?_ hm
          push_cast
          have : (0 : ℝ) ≤ j := by positivity
          have hn : (1 : ℝ) ≤ n := by exact_mod_cast (by omega : 1 ≤ n)
          nlinarith
      have hn := nextTerm_error (p := p) (q := q) (t := t) (t0 := t0) (bias := 0) (B := 0) (by simp)
        (by linarith [Real.cos_le_one x]) (by linarith [Real.neg_one_le_cos x]) hq ht ht0
        (by simpa using Real.abs_cos_le_one _) hle hd (by rw [hcos]; exact hpos)
      rw [hcos] at hn
      have := ih (m + 1) (nextTerm p q 0 t t0) t (e := 4 * e) (by linarith) (by rw [pow_succ] at he; linarith) (by push_cast at hm ⊢; linarith)
        (by push_cast; exact hn) (by push_cast; linarith) (by linarith) j (by omega)
      simp only [cosines, List.getD_cons_succ]
      push_cast at this ⊢
      calc _ = |((cosines p q n (nextTerm p q 0 t t0) t).getD j 0 : ℝ) -
              Real.cos (((m : ℝ) + 1 + 1 + j) * x) * 2 ^ p| := by congr 4; ring
        _ ≤ 4 * e * 4 ^ j := this
        _ = _ := by ring

/-- The angle between neighbouring entries of a table (R91). -/
noncomputable def tableAngle (c : Config) : ℝ := 2 * Real.pi / tableSize c

theorem tableSize_eq {c : Config} (hb : 2 ≤ c.tableBits) : tableSize c = 4 * quarterSize c := by
  unfold tableSize quarterSize
  obtain ⟨b, hb⟩ := Nat.exists_eq_add_of_le hb
  rw [hb, Nat.add_sub_cancel_left, pow_add]; rfl

theorem quarterSize_mul_tableAngle {c : Config} (hb : 2 ≤ c.tableBits) :
    (quarterSize c : ℝ) * tableAngle c = Real.pi / 2 := by
  have : (quarterSize c : ℝ) ≠ 0 := by unfold quarterSize; positivity
  unfold tableAngle
  rw [tableSize_eq hb]
  push_cast
  field_simp
  ring

theorem two_mul_cos_tableAngle {c : Config} (hb : 2 ≤ c.tableBits) :
    2 * Real.cos (tableAngle c) = Real.sqrtTwoAddSeries 0 (c.tableBits - 2) := by
  have h := Real.cos_pi_over_two_pow (c.tableBits - 2)
  have : tableAngle c = Real.pi / 2 ^ (c.tableBits - 2 + 1) := by
    unfold tableAngle tableSize
    obtain ⟨b, hb⟩ := Nat.exists_eq_add_of_le hb
    rw [hb, Nat.add_sub_cancel_left]
    push_cast
    rw [pow_add, pow_succ]
    field_simp
    ring
  rw [this, h]; ring

/-- The bound on the error of `quarterSines`. -/
def sineError (c : Config) : ℝ := 5 * 4 ^ quarterSize c

theorem length_quarterSines (c : Config) : (quarterSines c).length = quarterSize c + 1 := by
  simp [quarterSines, length_cosines]

theorem sineError_mul_le (c : Config) {n : Nat} (hn : n ≤ oddCount c 0) :
    28 * sineError c * 4 ^ n ≤ (2 : ℝ) ^ guardBits c := by
  unfold sineError guardBits
  calc (28 : ℝ) * (5 * 4 ^ quarterSize c) * 4 ^ n ≤ 2 ^ 8 * 4 ^ quarterSize c * 4 ^ oddCount c 0 := by
        have : (4 : ℝ) ^ n ≤ 4 ^ oddCount c 0 := pow_le_pow_right₀ (by norm_num) hn
        have h1 : (0 : ℝ) < 4 ^ quarterSize c := by positivity
        have h2 : (0 : ℝ) < 4 ^ n := by positivity
        calc (28 : ℝ) * (5 * 4 ^ quarterSize c) * 4 ^ n ≤ 2 ^ 8 * 4 ^ quarterSize c * 4 ^ n := by nlinarith
          _ ≤ _ := mul_le_mul_of_nonneg_left this (by positivity)
    _ = _ := by rw [pow_add, pow_add, pow_mul, pow_mul]; norm_num

theorem guard_le_fixed (c : Config) : (2 : ℝ) ^ guardBits c ≤ 2 ^ fixedBits c :=
  pow_le_pow_right₀ (by norm_num) (by unfold fixedBits; omega)

theorem getD_reverse {l : List Nat} {n i : Nat} (hl : l.length = n + 1) (hi : i ≤ n) :
    l.reverse.getD i 0 = l.getD (n - i) 0 := by
  rw [List.getD_eq_getElem?_getD, List.getD_eq_getElem?_getD, List.getElem?_reverse (by omega), hl]
  congr 2

/-- `quarterSines` holds the sines of the first quarter. -/
theorem quarterSines_error {c : Config} (hb : 2 ≤ c.tableBits) {i : Nat} (hi : i ≤ quarterSize c) :
    |((quarterSines c).getD i 0 : ℝ) - Real.sin (i * tableAngle c) * 2 ^ fixedBits c| ≤ sineError c := by
  have hp : 1 ≤ fixedBits c := by unfold fixedBits; omega
  have hangle := quarterSize_mul_tableAngle hb
  have hcos := two_mul_cos_tableAngle hb
  have hle : sineError c ≤ 2 ^ fixedBits c := by
    have := (sineError_mul_le c (Nat.zero_le _)).trans (guard_le_fixed c)
    have h0 : 0 ≤ sineError c := by unfold sineError; positivity
    simp at this
    linarith
  obtain ⟨w1, w2⟩ := twiceCosine_error hp (c.tableBits - 2)
  rw [← hcos] at w1 w2
  have hlen := length_quarterSines c
  have hsin : Real.sin (i * tableAngle c) = Real.cos ((quarterSize c - i : ℕ) * tableAngle c) := by
    rw [← Real.cos_pi_div_two_sub, ← hangle, Nat.cast_sub hi]; congr 1; ring
  have hget : (quarterSines c).getD i 0 = (2 ^ fixedBits c :: cosines (fixedBits c)
      (2 * 2 ^ fixedBits c - twiceCosine (fixedBits c) (c.tableBits - 2)) (quarterSize c)
      (twiceCosine (fixedBits c) (c.tableBits - 2) / 2) (2 ^ fixedBits c)).getD (quarterSize c - i) 0 := by
    exact getD_reverse (by simp [length_cosines]) hi
  rw [hsin, hget]
  have hx0 : 0 ≤ tableAngle c := by unfold tableAngle; positivity
  generalize fixedBits c = p at *
  generalize twiceCosine p (c.tableBits - 2) = w at *
  generalize tableAngle c = x at *
  rcases Nat.eq_zero_or_pos (quarterSize c - i) with h | h
  · rw [h]
    simp
    unfold sineError; positivity
  · obtain ⟨j, hj⟩ : ∃ j, quarterSize c - i = j + 1 := ⟨_, (Nat.succ_pred_eq_of_pos h).symm⟩
    rw [hj, List.getD_cons_succ]
    have hwK : w ≤ 2 * 2 ^ p := by
      have : (w : ℝ) ≤ 2 * 2 ^ p := by
        have := Real.cos_le_one x
        have : (0 : ℝ) < 2 ^ p := by positivity
        nlinarith
      exact_mod_cast this
    have half1 : (w : ℝ) / 2 - 1 ≤ ((w / 2 : ℕ) : ℝ) := by
      have : w ≤ 2 * (w / 2) + 1 := by omega
      have : (w : ℝ) ≤ 2 * ((w / 2 : ℕ) : ℝ) + 1 := by exact_mod_cast this
      linarith
    have half2 : ((w / 2 : ℕ) : ℝ) ≤ (w : ℝ) / 2 := by exact_mod_cast Nat.cast_div_le (α := ℝ)
    have := cosines_error (p := p) (q := 2 * 2 ^ p - w) (x := x) (d := 2) hx0
      (by rw [Nat.cast_sub hwK, abs_le]; push_cast; constructor <;> linarith) (quarterSize c) 0 (w / 2) (2 ^ p) (e := 5)
      (by norm_num) hle (by simpa using hangle.le) (by rw [abs_le]; simp; constructor <;> linarith) (by simp)
      j (by omega)
    push_cast at this ⊢
    rw [zero_add] at this
    calc _ = _ := by congr 4; ring
      _ ≤ 5 * 4 ^ j := this
      _ ≤ sineError c := by
        unfold sineError
        have : (4 : ℝ) ^ j ≤ 4 ^ quarterSize c := pow_le_pow_right₀ (by norm_num) (by omega)
        linarith

/-! ### The sums of harmonics -/

/-- A term rounded down and divided by its harmonic. -/
theorem quotient_error {t h : Nat} {T e : ℝ} {K : ℝ} (hh : 1 ≤ h) (ht : |(t : ℝ) - T * K| ≤ e) (he : 1 ≤ e) :
    |((t / h : ℕ) : ℝ) - T / h * K| ≤ 2 * e := by
  have hh' : (1 : ℝ) ≤ h := by exact_mod_cast hh
  have f1 : ((t / h : ℕ) : ℝ) ≤ t / h := Nat.cast_div_le
  have f2 : (t : ℝ) / h < ((t / h : ℕ) : ℝ) + 1 := by
    rw [div_lt_iff₀ (by linarith)]
    exact_mod_cast Nat.lt_mul_of_div_lt (Nat.lt_succ_self (t / h)) (by omega)
  have h1 : |(t : ℝ) / h - T / h * K| ≤ e := by
    have : (t : ℝ) / h - T / h * K = (t - T * K) / h := by ring
    rw [this, abs_div, abs_of_pos (by linarith : (0 : ℝ) < h)]
    exact (div_le_self (abs_nonneg _) hh').trans ht
  rw [abs_le] at h1 ⊢
  constructor <;> linarith

/-- The sum of (1 + sin(h·x)) / h over `n` odd harmonics from the m-th on. -/
noncomputable def liftedSum (x : ℝ) (m n : Nat) : ℝ :=
  ∑ j ∈ Finset.range n, (1 + Real.sin ((2 * (m + j) + 1) * x)) / (2 * (m + j) + 1)

theorem liftedSum_succ (x : ℝ) (m n : Nat) :
    liftedSum x m (n + 1) = (1 + Real.sin ((2 * m + 1) * x)) / (2 * m + 1) + liftedSum x (m + 1) n := by
  unfold liftedSum
  rw [Finset.sum_range_succ']
  push_cast
  rw [add_zero, add_comm]
  congr 1
  refine Finset.sum_congr rfl fun j _ => ?_
  rw [show (m : ℝ) + (j + 1) = m + 1 + j by ring]

theorem sumHarmonics_error {p q : Nat} {x d : ℝ} (hq : |(q : ℝ) - 4 * Real.sin x ^ 2 * 2 ^ p| ≤ d) (n m : Nat)
    (t t0 acc : Nat) {e a A : ℝ} (hd : 2 * d + 1 ≤ e) (he : e * 4 ^ n ≤ 2 ^ p)
    (ht : |(t : ℝ) - (1 + Real.sin ((2 * m + 1) * x)) * 2 ^ p| ≤ e)
    (ht0 : |(t0 : ℝ) - (1 + Real.sin ((2 * m - 1) * x)) * 2 ^ p| ≤ e) (ha : |(acc : ℝ) - A * 2 ^ p| ≤ a) :
    |(sumHarmonics p q n (2 * m + 1) t t0 acc : ℝ) - (A + liftedSum x m n) * 2 ^ p| ≤ a + (4 ^ n - 1) * e := by
  have hd0 : 0 ≤ d := (abs_nonneg _).trans hq
  induction n generalizing m t t0 acc e a A with
  | zero => simpa [sumHarmonics, liftedSum] using ha
  | succ n ih =>
    have hpow : (1 : ℝ) ≤ 4 ^ n := one_le_pow₀ (by norm_num)
    have hle : e ≤ 2 ^ p := by rw [pow_succ] at he; nlinarith
    have hnext : (2 - 4 * Real.sin x ^ 2) * (1 + Real.sin ((2 * m + 1) * x)) - (1 + Real.sin ((2 * m - 1) * x)) +
        1 * (4 * Real.sin x ^ 2) = 1 + Real.sin ((2 * m + 3) * x) := by
      have h1 : (2 * (m : ℝ) + 3) * x = (2 * m + 1) * x + 2 * x := by ring
      have h2 : (2 * (m : ℝ) - 1) * x = (2 * m + 1) * x - 2 * x := by ring
      have h3 : Real.cos (2 * x) = 1 - 2 * Real.sin x ^ 2 := by
        rw [Real.cos_two_mul]; have := Real.sin_sq_add_cos_sq x; linarith
      rw [h1, h2, Real.sin_add, Real.sin_sub, h3]; ring
    have hsin1 := Real.neg_one_le_sin ((2 * m + 3) * x)
    have hsq := Real.sin_sq_add_cos_sq x
    have hn := nextTerm_error (p := p) (q := q) (t := t) (t0 := t0) (bias := q) (B := 1) (by simp)
      (by positivity) (by nlinarith [sq_nonneg (Real.cos x)]) hq ht ht0 (by simpa using Real.abs_sin_le_one _) hle hd
      (by rw [hnext]; linarith)
    rw [hnext] at hn
    have hquot := quotient_error (h := 2 * m + 1) (by omega) ht (by linarith)
    have hacc : |((acc + t / (2 * m + 1) : ℕ) : ℝ) -
        (A + (1 + Real.sin ((2 * m + 1) * x)) / (2 * m + 1)) * 2 ^ p| ≤ a + 2 * e := by
      push_cast at hquot ⊢
      rw [abs_le] at *
      constructor <;> linarith
    have := ih (m + 1) (nextTerm p q q t t0) t (acc + t / (2 * m + 1)) (e := 4 * e) (by linarith)
      (by rw [pow_succ] at he; linarith) (by push_cast; rw [show (2 * ((m : ℝ) + 1) + 1) = 2 * m + 3 by ring]; exact hn)
      (by push_cast; rw [show (2 * ((m : ℝ) + 1) - 1) = 2 * m + 1 by ring]; linarith) hacc
    rw [liftedSum_succ, ← add_assoc, sumHarmonics]
    refine this.trans ?_
    rw [pow_succ]
    nlinarith

/-- The sum of 1 / h over the first `n` odd h, over the reals. -/
theorem harmonicSum_error (p n : Nat) :
    |(harmonicSum p n : ℝ) - (∑ j ∈ Finset.range n, 1 / (2 * (j : ℝ) + 1)) * 2 ^ p| ≤ n := by
  induction n with
  | zero => simp [harmonicSum]
  | succ n ih =>
    rw [Finset.sum_range_succ, harmonicSum]
    have f1 : ((2 ^ p / (2 * n + 1) : ℕ) : ℝ) ≤ 2 ^ p / (2 * n + 1) := by
      exact_mod_cast Nat.cast_div_le (α := ℝ) (m := 2 ^ p) (n := 2 * n + 1)
    have f2 : (2 : ℝ) ^ p / (2 * n + 1) < ((2 ^ p / (2 * n + 1) : ℕ) : ℝ) + 1 := by
      rw [div_lt_iff₀ (by positivity)]
      exact_mod_cast Nat.lt_mul_of_div_lt (Nat.lt_succ_self (2 ^ p / (2 * n + 1))) (by omega)
    have e : (1 : ℝ) / (2 * n + 1) * 2 ^ p = 2 ^ p / (2 * n + 1) := by ring
    push_cast
    rw [add_mul, e]
    rw [abs_le] at *
    constructor <;> linarith

/-- The unnormalized wave of level k over the reals (R91). -/
noncomputable def rawWave (c : Config) (k i : Nat) : ℝ :=
  ∑ h ∈ (Finset.range (harmonicCount c k + 1)).filter (fun h => h % 2 = 1),
    Real.sin (2 * Real.pi * h * i / tableSize c) / h

/-- The odd harmonics up to H are the first (H + 1) / 2 odd numbers. -/
theorem sum_odd_eq (f : Nat → ℝ) (H : Nat) :
    ∑ h ∈ (Finset.range (H + 1)).filter (fun h => h % 2 = 1), f h = ∑ j ∈ Finset.range ((H + 1) / 2), f (2 * j + 1) := by
  induction H with
  | zero => simp [Finset.filter_singleton]
  | succ H ih =>
    rw [Finset.range_add_one, Finset.filter_insert]
    rcases Nat.mod_two_eq_zero_or_one (H + 1) with h | h
    · rw [if_neg (by omega), ih]
      congr 2
      omega
    · have h2 : (H + 1 + 1) / 2 = (H + 1) / 2 + 1 := by omega
      rw [if_pos h, Finset.sum_insert (by simp), ih, h2, Finset.sum_range_succ, add_comm]
      congr 2
      omega

theorem rawWave_eq (c : Config) (k i : Nat) :
    rawWave c k i =
      ∑ j ∈ Finset.range (oddCount c k), Real.sin ((2 * j + 1) * (i * tableAngle c)) / (2 * j + 1) := by
  unfold rawWave oddCount
  rw [sum_odd_eq]
  refine Finset.sum_congr rfl fun j _ => ?_
  unfold tableAngle
  push_cast
  congr 2
  ring

theorem liftedSum_eq (c : Config) (k i : Nat) :
    liftedSum (i * tableAngle c) 0 (oddCount c k) =
      rawWave c k i + ∑ j ∈ Finset.range (oddCount c k), 1 / (2 * (j : ℝ) + 1) := by
  rw [rawWave_eq, ← Finset.sum_add_distrib]
  unfold liftedSum
  refine Finset.sum_congr rfl fun j _ => ?_
  push_cast
  rw [zero_add]
  ring

theorem one_le_harmonicCount (c : Config) (k : Nat) : 1 ≤ harmonicCount c k := by
  cases k <;> simp [harmonicCount]

theorem oddCount_le (c : Config) (k : Nat) : oddCount c k ≤ oddCount c 0 := by
  induction k with
  | zero => exact le_refl _
  | succ k ih =>
    refine le_trans ?_ ih
    have := one_le_harmonicCount c k
    unfold oddCount
    simp only [harmonicCount]
    omega

/-- `levelSums` less its excess is the raw wave in the first quarter, within `radius`. -/
theorem levelSums_error {c : Config} (hb : 2 ≤ c.tableBits) (k : Nat) {i : Nat} (hi : i ≤ quarterSize c) :
    |((levelSums c k).getD i 0 : ℝ) - harmonicSum (fixedBits c) (oddCount c k) - rawWave c k i * 2 ^ fixedBits c| ≤
      radius c := by
  have hs := quarterSines_error hb hi
  have hget : (levelSums c k).getD i 0 = indexSum (fixedBits c) (oddCount c k) ((quarterSines c).getD i 0) := by
    have : i < (quarterSines c).length := by rw [length_quarterSines]; omega
    unfold levelSums
    rw [List.getD_eq_getElem _ _ (by simpa using this), List.getD_eq_getElem _ _ this, List.getElem_map]
  have hn := oddCount_le c k
  have hguard := sineError_mul_le c hn
  have hfix := guard_le_fixed c
  have hharm := harmonicSum_error (fixedBits c) (oddCount c k)
  have hlift := liftedSum_eq c k i
  have hn4 : (oddCount c k : ℝ) ≤ 4 ^ oddCount c k := by
    exact_mod_cast (Nat.lt_pow_self (by norm_num : 1 < 4)).le
  have he1 : 1 ≤ sineError c := by
    unfold sineError
    have : (1 : ℝ) ≤ 4 ^ quarterSize c := one_le_pow₀ (by norm_num)
    linarith
  have hpow : (1 : ℝ) ≤ 4 ^ oddCount c k := one_le_pow₀ (by norm_num)
  have hradius : (radius c : ℝ) = 2 ^ guardBits c := by unfold radius; push_cast; rfl
  rw [hget, hradius]
  generalize (quarterSines c).getD i 0 = s at *
  generalize sineError c = e at *
  generalize fixedBits c = p at *
  generalize oddCount c k = n at *
  generalize (i : ℝ) * tableAngle c = x at *
  have hle : e ≤ 2 ^ p := by nlinarith
  have hK : (0 : ℝ) < 2 ^ p := by positivity
  have hq : |((4 * s * s / 2 ^ p : ℕ) : ℝ) - 4 * Real.sin x ^ 2 * 2 ^ p| ≤ 13 * e := by
    have f1 : ((4 * s * s / 2 ^ p : ℕ) : ℝ) ≤ 4 * s * s / 2 ^ p := by
      exact_mod_cast Nat.cast_div_le (α := ℝ) (m := 4 * s * s) (n := 2 ^ p)
    have f2 : (4 * s * s : ℝ) / 2 ^ p < ((4 * s * s / 2 ^ p : ℕ) : ℝ) + 1 := by
      rw [div_lt_iff₀ hK]
      exact_mod_cast Nat.lt_mul_of_div_lt (Nat.lt_succ_self (4 * s * s / 2 ^ p)) (by positivity)
    have h1 : (4 * s * s : ℝ) / 2 ^ p - 4 * Real.sin x ^ 2 * 2 ^ p =
        4 * ((s - Real.sin x * 2 ^ p) * ((s - Real.sin x * 2 ^ p) / 2 ^ p + 2 * Real.sin x)) := by
      field_simp; ring
    have h2 : |(s - Real.sin x * 2 ^ p) / 2 ^ p + 2 * Real.sin x| ≤ 3 := by
      have a1 : |(s - Real.sin x * 2 ^ p) / 2 ^ p| ≤ 1 := by
        rw [abs_div, abs_of_pos hK, div_le_one hK]; exact hs.trans hle
      have a2 := Real.abs_sin_le_one x
      rw [abs_le] at *
      constructor <;> linarith
    have h3 : |(4 * s * s : ℝ) / 2 ^ p - 4 * Real.sin x ^ 2 * 2 ^ p| ≤ 12 * e := by
      rw [h1, abs_mul, abs_mul, abs_of_pos (by norm_num : (0 : ℝ) < 4)]
      nlinarith [mul_le_mul hs h2 (abs_nonneg _) (by linarith)]
    rw [abs_le] at *
    constructor <;> linarith
  have hs1 := Real.neg_one_le_sin x
  have hs2 := Real.sin_le_one x
  have ht0 : |((2 ^ p - s : ℕ) : ℝ) - (1 + Real.sin ((2 * (0 : ℕ) - 1) * x)) * 2 ^ p| ≤ 27 * e := by
    have hneg : (2 * ((0 : ℕ) : ℝ) - 1) * x = -x := by push_cast; ring
    rw [hneg, Real.sin_neg]
    rw [abs_le] at hs
    rcases Nat.le_total s (2 ^ p) with h | h
    · rw [Nat.cast_sub h, abs_le]; push_cast; constructor <;> linarith
    · rw [Nat.sub_eq_zero_of_le h]
      have h' : (2 : ℝ) ^ p ≤ s := by exact_mod_cast h
      rw [abs_le]
      push_cast
      constructor
      · linarith
      · nlinarith
  have key := sumHarmonics_error (p := p) (q := 4 * s * s / 2 ^ p) (x := x) hq n 0 (2 ^ p + s) (2 ^ p - s) 0
    (e := 27 * e) (a := 0) (A := 0) (by linarith) (by nlinarith)
    (by
      have hone : (2 * ((0 : ℕ) : ℝ) + 1) * x = x := by push_cast; ring
      rw [hone]
      rw [abs_le] at hs ⊢
      push_cast
      constructor <;> linarith) ht0 (by simp)
  rw [hlift] at key
  unfold indexSum
  generalize ((sumHarmonics p (4 * s * s / 2 ^ p) n 1 (2 ^ p + s) (2 ^ p - s) 0 : ℕ) : ℝ) = v at *
  generalize ((harmonicSum p n : ℕ) : ℝ) = u at *
  simp only [zero_add] at key
  rw [add_mul] at key
  have hmul : (4 : ℝ) ^ n ≤ e * 4 ^ n := le_mul_of_one_le_left (by linarith) he1
  rw [abs_le] at *
  constructor <;> linarith

/-! ### The whole cycle -/

theorem half_mul_tableAngle {c : Config} (hb : 2 ≤ c.tableBits) :
    ((2 * quarterSize c : ℕ) : ℝ) * tableAngle c = Real.pi := by
  have := quarterSize_mul_tableAngle hb
  push_cast
  linarith

/-- The wave is symmetric about its quarter. -/
theorem rawWave_reflect {c : Config} (hb : 2 ≤ c.tableBits) (k : Nat) {i : Nat} (hi : i ≤ 2 * quarterSize c) :
    rawWave c k (2 * quarterSize c - i) = rawWave c k i := by
  rw [rawWave_eq, rawWave_eq]
  refine Finset.sum_congr rfl fun j _ => ?_
  have h := Real.sin_nat_mul_pi_sub ((2 * j + 1) * (i * tableAngle c)) (2 * j + 1)
  rw [Nat.cast_sub hi, sub_mul, half_mul_tableAngle hb, mul_sub]
  push_cast at h
  rw [h, Odd.neg_one_pow ⟨j, rfl⟩]
  ring

/-- The wave is antisymmetric about its half. -/
theorem rawWave_half {c : Config} (hb : 2 ≤ c.tableBits) (k i : Nat) :
    rawWave c k (2 * quarterSize c + i) = -rawWave c k i := by
  rw [rawWave_eq, rawWave_eq, ← Finset.sum_neg_distrib]
  refine Finset.sum_congr rfl fun j _ => ?_
  have h := Real.sin_add_nat_mul_pi ((2 * j + 1) * (i * tableAngle c)) (2 * j + 1)
  have e : ((2 * quarterSize c + i : ℕ) : ℝ) * tableAngle c = i * tableAngle c + Real.pi := by
    rw [Nat.cast_add, add_mul, half_mul_tableAngle hb, add_comm]
  push_cast at h
  rw [e, mul_add, h, Odd.neg_one_pow ⟨j, rfl⟩]
  ring

/-- The entries of `fullTable` in terms of the first quarter. -/
theorem fullTable_getElem? {quarter : List Word} {n : Nat} (hl : quarter.length = n + 1) (hn : 1 ≤ n) :
    (fullTable quarter).length = 4 * n ∧
    (∀ i ≤ n, (fullTable quarter)[i]? = quarter[i]?) ∧
    (∀ i, n < i → i < 2 * n → (fullTable quarter)[i]? = quarter[2 * n - i]?) ∧
    ∀ i < 2 * n, (fullTable quarter)[2 * n + i]? = (fullTable quarter)[i]?.map negated := by
  have hlen : (quarter ++ quarter.dropLast.reverse.dropLast).length = 2 * n := by simp [hl]; omega
  unfold fullTable
  generalize hA : quarter ++ quarter.dropLast.reverse.dropLast = half at *
  refine ⟨by simp [hlen]; omega, fun i hi => ?_, fun i h1 h2 => ?_, fun i hi => ?_⟩
  · rw [List.getElem?_append_left (by omega), ← hA, List.getElem?_append_left (by omega)]
  · rw [List.getElem?_append_left (by omega), ← hA, List.getElem?_append_right (by omega), List.getElem?_dropLast,
      List.getElem?_reverse (by simp [hl]; omega), List.getElem?_dropLast]
    simp only [List.length_reverse, List.length_dropLast, hl]
    rw [if_pos (by omega), if_pos (by omega)]
    congr 1
    omega
  · rw [List.getElem?_append_right (by omega), List.getElem?_append_left (by omega), hlen]
    simp

/-! ### R94 (d) -/

theorem foldl_max_spec (l : List Nat) (a : Nat) :
    a ≤ l.foldl max a ∧ (∀ x ∈ l, x ≤ l.foldl max a) ∧ (l.foldl max a = a ∨ l.foldl max a ∈ l) := by
  induction l generalizing a with
  | nil => simp
  | cons y l ih =>
    obtain ⟨h1, h2, h3⟩ := ih (max a y)
    refine ⟨(le_max_left _ _).trans h1, ?_, ?_⟩
    · intro x hx
      rcases List.mem_cons.1 hx with rfl | hx
      · exact (le_max_right _ _).trans h1
      · exact h2 x hx
    · simp only [List.foldl_cons, List.mem_cons]
      rcases h3 with h | h
      · rcases le_total a y with h' | h'
        · rw [max_eq_right h'] at h
          exact .inr (.inl (by rw [max_eq_right h']; exact h))
        · rw [max_eq_left h'] at h
          exact .inl (by rw [max_eq_left h']; exact h)
      · exact .inr (.inr h)

theorem le_mul_succ_div (a : Nat) {d : Nat} (hd : 0 < d) (w : Nat) :
    (a : ℝ) * w ≤ d * ((a * w / d + 1 : ℕ) : ℝ) := by
  have := Nat.lt_mul_of_div_lt (Nat.lt_succ_self (a * w / d)) hd
  rw [Nat.mul_comm (Nat.succ _)] at this
  exact_mod_cast this.le

/-- A known entry is the binary32 nearest to raw / m. -/
theorem entryBelow_nearest {r excess peak sum : Nat} {raw m K : ℝ} (hK : 0 < K)
    (hraw : |(sum : ℝ) - excess - raw * K| ≤ r) (hm1 : (peak : ℝ) - excess - r ≤ m * K)
    (hm2 : m * K ≤ (peak : ℝ) - excess + r) (hpos : excess + r < peak) (hle : sum ≤ peak)
    (hk : entryKnown r excess peak sum = true) : IsNearestBinary32 (raw / m) (entryBelow r excess peak sum) := by
  simp only [entryKnown, Bool.and_eq_true, decide_eq_true_eq, beq_iff_eq] at hk
  obtain ⟨hex, heq⟩ := hk
  have hpos' : (excess : ℝ) + r < peak := by exact_mod_cast hpos
  have hex' : (excess : ℝ) ≤ sum + r := by exact_mod_cast hex
  have hmK : 0 < m * K := by linarith
  have hm : 0 < m := pos_of_mul_pos_left hmK hK.le
  rw [abs_le] at hraw
  have c1 : ((peak + r - excess : ℕ) : ℝ) = peak + r - excess := by rw [Nat.cast_sub (by omega)]; push_cast; ring
  have c2 : ((peak - (excess + r) : ℕ) : ℝ) = peak - excess - r := by rw [Nat.cast_sub (by omega)]; push_cast; ring
  have c3 : ((sum + 3 * r - excess : ℕ) : ℝ) = sum + 3 * r - excess := by rw [Nat.cast_sub (by omega)]; push_cast; ring
  have habs1 : |raw| * K ≤ sum + 3 * r - excess := by
    rcases le_total 0 raw with h | h
    · rw [abs_of_nonneg h]; have : (0 : ℝ) ≤ r := by positivity
      linarith
    · rw [abs_of_nonpos h]; linarith
  have habs2 : ((sum - (excess + r) : ℕ) : ℝ) ≤ |raw| * K := by
    rcases Nat.le_total sum (excess + r) with h | h
    · rw [Nat.sub_eq_zero_of_le h]; push_cast; positivity
    · rw [Nat.cast_sub h]
      have : raw * K ≤ |raw| * K := mul_le_mul_of_nonneg_right (le_abs_self _) hK.le
      push_cast; linarith
  have hlo : (((sum - (excess + r)) * 2 ^ 256 / (peak + r - excess) : ℕ) : ℝ) ≤ |raw| / m * 2 ^ 256 := by
    refine Nat.cast_div_le.trans ?_
    have hden : (0 : ℝ) < peak + r - excess := by have : (0 : ℝ) ≤ r := by positivity
                                                  linarith
    rw [c1, div_le_iff₀ hden, Nat.cast_mul, Nat.cast_pow, Nat.cast_ofNat]
    have e : |raw| / m * 2 ^ 256 * (peak + r - excess) = |raw| * K * 2 ^ 256 * ((peak + r - excess) / (m * K)) := by
      field_simp
    rw [e]
    have h1 : 1 ≤ ((peak : ℝ) + r - excess) / (m * K) := by rw [le_div_iff₀ hmK]; linarith
    have h2 : ((sum - (excess + r) : ℕ) : ℝ) * 2 ^ 256 ≤ |raw| * K * 2 ^ 256 :=
      mul_le_mul_of_nonneg_right habs2 (by positivity)
    exact h2.trans (le_mul_of_one_le_right (by positivity) h1)
  have hhi : |raw| / m * 2 ^ 256 ≤ ((sum + 3 * r - excess) * 2 ^ 256 / (peak - (excess + r)) + 1 : ℕ) := by
    have h1 := le_mul_succ_div (sum + 3 * r - excess) (by omega : 0 < peak - (excess + r)) (2 ^ 256)
    rw [Nat.cast_pow, Nat.cast_ofNat] at h1
    rw [c2, c3] at h1
    generalize (((sum + 3 * r - excess) * 2 ^ 256 / (peak - (excess + r)) + 1 : ℕ) : ℝ) = H at *
    have hH : 0 ≤ H := by
      by_contra hneg
      rw [not_le] at hneg
      have h2 : (0 : ℝ) ≤ (sum + 3 * r - excess) * 2 ^ 256 := by
        have : (0 : ℝ) ≤ sum + 3 * r - excess := le_trans (by positivity) habs1
        positivity
      nlinarith
    rw [div_mul_eq_mul_div, div_le_iff₀ hm]
    have h2 : |raw| * K * 2 ^ 256 ≤ H * m * K := by
      calc |raw| * K * 2 ^ 256 ≤ (sum + 3 * r - excess) * 2 ^ 256 := mul_le_mul_of_nonneg_right habs1 (by positivity)
        _ ≤ (peak - excess - r) * H := h1
        _ ≤ m * K * H := mul_le_mul_of_nonneg_right hm1 hH
        _ = _ := by ring
    have h3 : |raw| * 2 ^ 256 * K ≤ H * m * K := by linarith
    exact le_of_mul_le_mul_right h3 hK
  have hone : (sum - (excess + r)) * 2 ^ 256 / (peak + r - excess) ≤ 2 ^ 256 := by
    apply Nat.div_le_of_le_mul
    exact Nat.mul_le_mul_right _ (by omega)
  have hnear := f32Round_nearest (x := |raw| / m) (by norm_num : 149 ≤ 256) (by positivity) hlo hhi hone heq
  rcases le_or_gt 0 raw with h | h
  · rw [abs_of_nonneg h] at hnear
    exact hnear
  · have hz : sum - (excess + r) = 0 := by
      have : raw * K < 0 := mul_neg_of_neg_of_pos h hK
      have : (sum : ℝ) < excess + r := by linarith
      have : sum < excess + r := by exact_mod_cast this
      omega
    have hword : entryBelow r excess peak sum = 0 := by unfold entryBelow; rw [hz]; simp; decide
    have := hnear.neg
    rw [abs_of_neg h, neg_div, neg_neg] at this
    have hz2 : f32Round false ((sum - (excess + r)) * 2 ^ 256 / (peak + r - excess)) 256 = 0 := hword
    rw [hz2] at this
    rw [hword]
    simpa [negated] using this

/-- Each index has the magnitude of an index of the first quarter. -/
theorem abs_rawWave_quarter {c : Config} (hb : 2 ≤ c.tableBits) (k : Nat) {i : Nat} (hi : i < tableSize c) :
    ∃ j ≤ quarterSize c, |rawWave c k i| = |rawWave c k j| := by
  have half : ∀ i < 2 * quarterSize c, ∃ j ≤ quarterSize c, |rawWave c k i| = |rawWave c k j| := by
    intro i hi
    rcases Nat.le_total i (quarterSize c) with h | h
    · exact ⟨i, h, rfl⟩
    · exact ⟨2 * quarterSize c - i, by omega, by rw [rawWave_reflect hb k hi.le]⟩
  rw [tableSize_eq hb] at hi
  rcases Nat.lt_or_ge i (2 * quarterSize c) with h | h
  · exact half i h
  · obtain ⟨d, rfl⟩ := Nat.exists_eq_add_of_le h
    rw [rawWave_half hb, abs_neg]
    exact half d (by omega)

/-- The reference table of a level, from nearest entries in its first quarter. -/
theorem fullTable_nearest {c : Config} (hb : 2 ≤ c.tableBits) (k : Nat) {m : ℝ} {quarter : List Word}
    (hl : quarter.length = quarterSize c + 1)
    (hq : ∀ i ≤ quarterSize c, ∃ v, quarter[i]? = some v ∧ IsNearestBinary32 (rawWave c k i / m) v) :
    (fullTable quarter).length = tableSize c ∧
    ∀ i < tableSize c, ∃ v, (fullTable quarter)[i]? = some v ∧ IsNearestBinary32 (rawWave c k i / m) v := by
  have hpos : 1 ≤ quarterSize c := Nat.one_le_two_pow
  obtain ⟨h1, h2, h3, h4⟩ := fullTable_getElem? hl hpos
  have half : ∀ i < 2 * quarterSize c,
      ∃ v, (fullTable quarter)[i]? = some v ∧ IsNearestBinary32 (rawWave c k i / m) v := by
    intro i hi
    rcases Nat.lt_or_ge (quarterSize c) i with h | h
    · rw [h3 i h hi, ← rawWave_reflect hb k hi.le]
      exact hq _ (by omega)
    · rw [h2 i h]
      exact hq i h
  rw [tableSize_eq hb]
  refine ⟨h1, fun i hi => ?_⟩
  rcases Nat.lt_or_ge i (2 * quarterSize c) with h | h
  · exact half i h
  · obtain ⟨d, rfl⟩ := Nat.exists_eq_add_of_le h
    obtain ⟨v, hv, hn⟩ := half d (by omega)
    refine ⟨negated v, by rw [h4 d (by omega), hv]; rfl, ?_⟩
    rw [rawWave_half hb, neg_div]
    exact hn.neg

theorem length_levelSums (c : Config) (k : Nat) : (levelSums c k).length = quarterSize c + 1 := by
  simp [levelSums, length_quarterSines]

theorem withinTolerance_sound {c : Config} {v e : Word} (h : withinTolerance c v e = true) :
    |(f32Exact e : ℝ) - f32Exact v| * c.wtTol.den ≤ c.wtTol.num * 2 ^ 149 := by
  simp only [withinTolerance, Bool.or_eq_true, beq_iff_eq, decide_eq_true_eq] at h
  rcases h with rfl | h
  · simp
  · have h' : (((f32Exact e - f32Exact v).natAbs : ℕ) : ℝ) * c.wtTol.den ≤ c.wtTol.num * 2 ^ 149 := by
      exact_mod_cast h
    rw [Nat.cast_natAbs] at h'
    push_cast at h'
    exact h'

/-- An accepted table lies within WT_TOL of R91 over the reals. -/
theorem tableNear_sound {c : Config} (hb : 2 ≤ c.tableBits) (k : Nat) {table : List Word}
    (hl : table.length = tableSize c)
    (h : tableNear c (harmonicSum (fixedBits c) (oddCount c k)) (levelSums c k) table = true) :
    ∃ m, IsWavePeak c (rawWave c k) m ∧ ∀ i < tableSize c, ∃ v e, IsNearestBinary32 (rawWave c k i / m) v ∧
      table[i]? = some e ∧ |(f32Exact e : ℝ) - f32Exact v| * c.wtTol.den ≤ c.wtTol.num * 2 ^ 149 := by
  simp only [tableNear, Bool.and_eq_true, decide_eq_true_eq] at h
  obtain ⟨⟨hpos, hknown⟩, hall⟩ := h
  obtain ⟨-, hmax, hmem⟩ := foldl_max_spec (levelSums c k) 0
  have herr := fun i (hi : i ≤ quarterSize c) => levelSums_error hb k hi
  have hlen := length_levelSums c k
  have hpk : (levelSums c k).foldl max 0 ∈ levelSums c k := hmem.resolve_left (by omega)
  generalize harmonicSum (fixedBits c) (oddCount c k) = excess at *
  generalize (levelSums c k).foldl max 0 = peak at *
  generalize levelSums c k = sums at *
  generalize hr : radius c = r at *
  have hget : ∀ i ≤ quarterSize c, sums[i]? = some (sums.getD i 0) ∧ sums.getD i 0 ∈ sums := by
    intro i hi
    have : i < sums.length := by omega
    rw [List.getD_eq_getElem _ _ this]
    exact ⟨List.getElem?_eq_getElem this, List.getElem_mem this⟩
  have hpos' : (excess : ℝ) + r < peak := by exact_mod_cast hpos
  have hsize := tableSize_eq hb
  have hq1 : 1 ≤ quarterSize c := Nat.one_le_two_pow
  obtain ⟨i0, hi0, hbig⟩ := Finset.exists_max_image (Finset.range (tableSize c)) (fun i => |rawWave c k i|)
    ⟨0, Finset.mem_range.2 (by omega)⟩
  have hm1 : (peak : ℝ) - excess - r ≤ |rawWave c k i0| * 2 ^ fixedBits c := by
    obtain ⟨j, hj, hje⟩ := List.mem_iff_getElem.1 hpk
    have hj' : j ≤ quarterSize c := by omega
    have h1 := herr j hj'
    rw [List.getD_eq_getElem _ _ hj, hje, abs_le] at h1
    have h2 : |rawWave c k j| ≤ |rawWave c k i0| := hbig j (Finset.mem_range.2 (by omega))
    have h3 : rawWave c k j * 2 ^ fixedBits c ≤ |rawWave c k i0| * 2 ^ fixedBits c :=
      mul_le_mul_of_nonneg_right ((le_abs_self _).trans h2) (by positivity)
    linarith
  have hm2 : |rawWave c k i0| * 2 ^ fixedBits c ≤ (peak : ℝ) - excess + r := by
    obtain ⟨j, hj, he⟩ := abs_rawWave_quarter hb k (Finset.mem_range.1 hi0)
    have h1 := herr j hj
    have h2 : ((sums.getD j 0 : ℕ) : ℝ) ≤ peak := by exact_mod_cast hmax _ (hget j hj).2
    have h3 := List.all_eq_true.1 hknown _ (hget j hj).2
    simp only [entryKnown, Bool.and_eq_true, decide_eq_true_eq] at h3
    have h4 : (excess : ℝ) ≤ (sums.getD j 0 : ℕ) + r := by exact_mod_cast h3.1
    rw [he]
    rw [abs_le] at h1
    rcases le_total 0 (rawWave c k j) with h | h
    · rw [abs_of_nonneg h]; linarith
    · rw [abs_of_nonpos h]; linarith
  have hquarter := fullTable_nearest hb k (m := |rawWave c k i0|) (quarter := sums.map (entryBelow r excess peak))
    (by simpa using hlen) fun i hi => ⟨entryBelow r excess peak (sums.getD i 0), by rw [List.getElem?_map, (hget i hi).1]; rfl,
      entryBelow_nearest (by positivity) (herr i hi) hm1 hm2 hpos (hmax _ (hget i hi).2)
        (List.all_eq_true.1 hknown _ (hget i hi).2)⟩
  refine ⟨|rawWave c k i0|, ⟨fun i hi => hbig i (Finset.mem_range.2 hi), i0, Finset.mem_range.1 hi0, rfl⟩, fun i hi => ?_⟩
  obtain ⟨v, hv, hn⟩ := hquarter.2 i hi
  have he : table[i]? = some table[i] := List.getElem?_eq_getElem (by omega)
  refine ⟨v, table[i], hn, he, withinTolerance_sound (List.all_eq_true.1 hall (v, table[i]) ?_)⟩
  exact List.mem_of_getElem? (i := i) (by rw [List.getElem?_zip_eq_some]; exact ⟨hv, he⟩)

/-- A valid configuration meets R94 (d): its WT_ROM lies within WT_TOL of R91 over the reals (R100 (d)). -/
theorem nearReference_of_configValid {c : Config} (h : configValid c = true) : NearReference c := by
  simp only [configValid, Bool.and_eq_true] at h
  obtain ⟨⟨⟨⟨hrange, -⟩, -⟩, hok⟩, hnear⟩ := h
  have hb : 2 ≤ c.tableBits := by simp [parametersInRange] at hrange; omega
  simp only [waveTablesOk, Bool.and_eq_true, beq_iff_eq] at hok
  intro k hk
  have hk' : k < c.wtRom.length := by omega
  have htable := List.all_eq_true.1 hok.2 _ (List.getElem_mem hk')
  simp only [waveTableOk, Bool.and_eq_true, beq_iff_eq] at htable
  have hn := List.all_eq_true.1 hnear k (List.mem_range.2 hk)
  rw [List.getD_eq_getElem _ _ hk'] at hn
  obtain ⟨m, hm, hall⟩ := tableNear_sound hb k htable.1.1.1 hn
  refine ⟨rawWave c k, m, fun i => rfl, hm, fun i hi => ?_⟩
  obtain ⟨v, e, h1, h2, h3⟩ := hall i hi
  exact ⟨v, e, h1, by rw [List.getElem?_eq_getElem hk']; exact h2, h3⟩

end Sys2Proof.Machine
end

