-- ==== Sys2Proof/Laws/ReferenceValid.lean ====
section
/-! SUPPORT. REF is a valid configuration (40_wavetable.md R100): `refConfig_valid`. Evaluating `waveTablesNear` on REF as
it is written takes the kernel minutes, so the sums and roundings are evaluated in an equal form that names the
arithmetic of `Nat` directly. -/

-- Each evaluation keeps to the memory of a check when they run one after another.
set_option Elab.async false

namespace Sys2Proof.Machine

/-- `sumHarmonics`, evaluated directly. -/
def sumDirect (unit q : Nat) : Nat → Nat → Nat → Nat → Nat → Nat
  | 0, _, _, _, acc => acc
  | n + 1, h, t, t0, acc =>
    sumDirect unit q n (Nat.add h 2)
      (Nat.sub (Nat.add (Nat.mul 2 t) q) (Nat.add t0 (Nat.div (Nat.mul q t) unit))) t (Nat.add acc (Nat.div t h))

theorem sumDirect_eq (p q n h t t0 acc : Nat) : sumDirect (2 ^ p) q n h t t0 acc = sumHarmonics p q n h t t0 acc := by
  induction n generalizing h t t0 acc with
  | zero => rfl
  | succ n ih => exact ih _ _ _ _

/-- `f32RoundMagnitude` at scale 256 but for its cut at infinity, with the shift of m given. -/
def roundAt (shift m : Nat) : Nat :=
  match Nat.ble (Nat.mul 2 (Nat.mod m (Nat.pow 2 shift))) (Nat.pow 2 shift) with
  | false => Nat.add (Nat.mul (Nat.sub shift 107) 8388608) (Nat.add (Nat.div m (Nat.pow 2 shift)) 1)
  | true =>
    match Nat.beq (Nat.mul 2 (Nat.mod m (Nat.pow 2 shift))) (Nat.pow 2 shift) with
    | false => Nat.add (Nat.mul (Nat.sub shift 107) 8388608) (Nat.div m (Nat.pow 2 shift))
    | true =>
      Nat.add (Nat.mul (Nat.sub shift 107) 8388608)
        (Nat.add (Nat.div m (Nat.pow 2 shift)) (Nat.mod (Nat.div m (Nat.pow 2 shift)) 2))

theorem roundAt_eq (shift m : Nat) : roundAt shift m = (shift - 107) * 2 ^ 23 + roundHalfEven m shift := by
  have hdiv : ∀ a b, Nat.div a b = a / b := fun _ _ => rfl
  have hmod : ∀ a b, Nat.mod a b = a % b := fun _ _ => rfl
  unfold roundAt roundHalfEven
  simp only [Nat.add_eq, Nat.mul_eq, Nat.sub_eq, hdiv, hmod, Nat.pow_eq]
  rw [show (2 : Nat) ^ 23 = 8388608 by norm_num]
  generalize 2 ^ shift = unit
  have := Nat.mod_two_eq_zero_or_one (m / unit)
  split
  · next h =>
    have h : unit < 2 * (m % unit) := by
      by_contra h'
      rw [Nat.ble_eq_true_of_le (not_lt.1 h')] at h
      cases h
    rw [if_pos (.inl h)]
  · next h =>
    have h : 2 * (m % unit) ≤ unit := Nat.le_of_ble_eq_true h
    split
    · next h2 =>
      have h2 := Nat.ne_of_beq_eq_false h2
      rw [if_neg (by omega)]
    · next h2 =>
      have h2 := Nat.eq_of_beq_eq_true h2
      split
      · omega
      · omega

/-- The shift of m is `shift`. -/
def shiftIs (shift m : Nat) : Bool :=
  Nat.ble (Nat.succ m) (Nat.pow 2 (Nat.add shift 24))
    && (Nat.beq shift 107 || (Nat.ble 107 shift && Nat.ble (Nat.pow 2 (Nat.add shift 23)) m))

/-- A shift for m, which rounds to `entry`: that of the entry, or one less where the rounding carries. -/
def shiftFor (entry m : Nat) : Nat :=
  match Nat.ble (Nat.pow 2 (Nat.add (Nat.div entry 8388608) 129)) m with
  | true => Nat.add (Nat.div entry 8388608) 106
  | false => Nat.add (Nat.sub (Nat.div entry 8388608) 2) 107

/-- m / 2^256 rounds to `entry`. -/
def roundsTo (entry m : Nat) : Bool := shiftIs (shiftFor entry m) m && Nat.beq (roundAt (shiftFor entry m) m) entry

theorem shiftIs_sound {shift m : Nat} (h : shiftIs shift m = true) : f32Shift m 256 = shift := by
  unfold shiftIs at h
  simp only [Bool.and_eq_true, Bool.or_eq_true] at h
  obtain ⟨h1, h2⟩ := h
  have h1 : m < 2 ^ (shift + 24) := Nat.le_of_ble_eq_true h1
  have hlog : Nat.log2 m < shift + 24 := by
    rcases Nat.eq_zero_or_pos m with rfl | hm
    · simp
    · exact (Nat.log2_lt (by omega)).2 h1
  unfold f32Shift
  rcases h2 with h2 | ⟨h2, h3⟩
  · have := Nat.eq_of_beq_eq_true h2
    omega
  · have h2 : 107 ≤ shift := Nat.le_of_ble_eq_true h2
    have h3 : 2 ^ (shift + 23) ≤ m := Nat.le_of_ble_eq_true h3
    have hm : m ≠ 0 := by have := Nat.one_le_two_pow (n := shift + 23); omega
    have := (Nat.le_log2 hm).2 h3
    omega

theorem roundsTo_sound {m : Nat} {v : Word} (h : roundsTo v.toNat m = true) (hv : v.toNat ≤ 0x7F800000) :
    f32Round false m 256 = v := by
  unfold roundsTo at h
  rw [Bool.and_eq_true] at h
  have hr := Nat.eq_of_beq_eq_true h.2
  rw [roundAt_eq] at hr
  apply BitVec.eq_of_toNat_eq
  rw [f32Round_toNat, f32RoundMagnitude, shiftIs_sound h.1]
  norm_num at hr ⊢
  omega

/-- Each sum rounds to its entry, from below and from above; `below` and `above` are the two bounds on m. -/
def entriesDirect (excess r below above : Nat) : List Nat → List Nat → Bool
  | [], [] => true
  | sum :: sums, entry :: entries =>
    Nat.ble excess (Nat.add sum r)
      && roundsTo entry (Nat.div (Nat.mul (Nat.sub sum (Nat.add excess r)) (Nat.pow 2 256)) above)
      && roundsTo entry (Nat.add (Nat.div (Nat.mul (Nat.sub (Nat.add sum (Nat.mul 3 r)) excess) (Nat.pow 2 256)) below) 1)
      && entriesDirect excess r below above sums entries
  | [], _ :: _ => false
  | _ :: _, [] => false

theorem entriesDirect_sound {excess r peak : Nat} {sums : List Nat} {quarter : List Word}
    (h : entriesDirect excess r (peak - (excess + r)) (peak + r - excess) sums (quarter.map BitVec.toNat) = true)
    (hlt : quarter.all (fun v => v.toNat ≤ 0x7F800000) = true) :
    sums.all (entryKnown r excess peak) = true ∧ sums.map (entryBelow r excess peak) = quarter := by
  induction sums generalizing quarter with
  | nil => cases quarter with
    | nil => exact ⟨rfl, rfl⟩
    | cons v quarter => cases h
  | cons sum sums ih =>
    cases quarter with
    | nil => cases h
    | cons v quarter =>
      simp only [List.map_cons, entriesDirect, Bool.and_eq_true] at h
      obtain ⟨⟨⟨h1, h2⟩, h3⟩, h4⟩ := h
      simp only [List.all_cons, Bool.and_eq_true, decide_eq_true_eq] at hlt
      obtain ⟨i1, i2⟩ := ih h4 hlt.2
      have h1 : excess ≤ sum + r := Nat.le_of_ble_eq_true h1
      have hb : entryBelow r excess peak sum = v := roundsTo_sound h2 hlt.1
      have ha : entryAbove r excess peak sum = v := roundsTo_sound h3 hlt.1
      constructor
      · rw [List.all_cons, i1, Bool.and_true, entryKnown, hb, ha]
        simp [h1]
      · rw [List.map_cons, i2, hb]

/-- The check of one level whose table is made of its first quarter. -/
def levelDirect (unit r n excess : Nat) (sines quarter : List Nat) : Bool :=
  levelOf (sines.map fun s => sumDirect unit (Nat.div (Nat.mul (Nat.mul 4 s) s) unit) n 1 (Nat.add unit s) (Nat.sub unit s) 0)
where
  levelOf (sums : List Nat) : Bool :=
    peakOf sums (sums.foldl (fun a b => match Nat.ble a b with | true => b | false => a) 0)
  peakOf (sums : List Nat) (peak : Nat) : Bool :=
    Nat.ble (Nat.succ (Nat.add excess r)) peak
      && entriesDirect excess r (Nat.sub peak (Nat.add excess r)) (Nat.sub (Nat.add peak r) excess) sums quarter

theorem foldl_max_direct (l : List Nat) (a : Nat) :
    l.foldl (fun a b => match Nat.ble a b with | true => b | false => a) a = l.foldl max a := by
  congr 1
  funext a b
  split
  · next h => rw [max_eq_right (Nat.le_of_ble_eq_true h)]
  · next h =>
    rw [max_eq_left]
    by_contra h'
    rw [Nat.ble_eq_true_of_le (not_le.1 h').le] at h
    cases h

/-- `levelDirect` is `tableNear` where the table is made of the quarter that it compares with. -/
theorem tableNear_of_direct {c : Config} {k p g n : Nat} {quarter : List Word} (hp : fixedBits c = p)
    (hg : guardBits c = g) (hn : oddCount c k = n)
    (h : levelDirect (2 ^ p) (2 ^ g) n (harmonicSum p n) (quarterSines c) (quarter.map BitVec.toNat) = true)
    (hlt : quarter.all (fun v => v.toNat ≤ 0x7F800000) = true) :
    tableNear c (harmonicSum (fixedBits c) (oddCount c k)) (levelSums c k) (fullTable quarter) = true := by
  have hsums : (quarterSines c).map (fun s => sumDirect (2 ^ p) (Nat.div (Nat.mul (Nat.mul 4 s) s) (2 ^ p)) n 1
      (Nat.add (2 ^ p) s) (Nat.sub (2 ^ p) s) 0) = levelSums c k := by
    unfold levelSums
    rw [hp, hn]
    refine List.map_congr_left fun s _ => ?_
    rw [sumDirect_eq]
    rfl
  have hrad : radius c = 2 ^ g := by unfold radius; rw [hg]
  unfold levelDirect levelDirect.levelOf levelDirect.peakOf at h
  rw [hsums, foldl_max_direct, Bool.and_eq_true] at h
  obtain ⟨h1, h2⟩ := h
  have h1 : harmonicSum p n + 2 ^ g < (levelSums c k).foldl max 0 := Nat.le_of_ble_eq_true h1
  obtain ⟨h3, h4⟩ := entriesDirect_sound h2 hlt
  unfold tableNear
  rw [hp, hn, hrad, h3, h4]
  simp only [h1, decide_true, Bool.true_and, List.all_eq_true]
  intro e he
  obtain ⟨i, hi, rfl⟩ := List.mem_iff_getElem.1 he
  simp [withinTolerance]

/-! ### REF -/

theorem refConfig_bits : guardBits refConfig = 1532 ∧ fixedBits refConfig = 1724 := by decide +kernel
theorem refConfig_counts :
    (List.range 8).map (oddCount refConfig) = [250, 125, 63, 31, 16, 8, 4, 2] := by decide +kernel

theorem refQuarter_finite : [refQuarter0, refQuarter1, refQuarter2, refQuarter3, refQuarter4, refQuarter5, refQuarter6,
    refQuarter7].all (fun quarter => quarter.all (fun v => v.toNat ≤ 0x7F800000)) = true := by decide +kernel

theorem refLevel0 : levelDirect (2 ^ 1724) (2 ^ 1532) 250 (harmonicSum 1724 250) (quarterSines refConfig)
    (refQuarter0.map BitVec.toNat) = true := by decide +kernel
theorem refLevel1 : levelDirect (2 ^ 1724) (2 ^ 1532) 125 (harmonicSum 1724 125) (quarterSines refConfig)
    (refQuarter1.map BitVec.toNat) = true := by decide +kernel
theorem refLevel2 : levelDirect (2 ^ 1724) (2 ^ 1532) 63 (harmonicSum 1724 63) (quarterSines refConfig)
    (refQuarter2.map BitVec.toNat) = true := by decide +kernel
theorem refLevel3 : levelDirect (2 ^ 1724) (2 ^ 1532) 31 (harmonicSum 1724 31) (quarterSines refConfig)
    (refQuarter3.map BitVec.toNat) = true := by decide +kernel
theorem refLevel4 : levelDirect (2 ^ 1724) (2 ^ 1532) 16 (harmonicSum 1724 16) (quarterSines refConfig)
    (refQuarter4.map BitVec.toNat) = true := by decide +kernel
theorem refLevel5 : levelDirect (2 ^ 1724) (2 ^ 1532) 8 (harmonicSum 1724 8) (quarterSines refConfig)
    (refQuarter5.map BitVec.toNat) = true := by decide +kernel
theorem refLevel6 : levelDirect (2 ^ 1724) (2 ^ 1532) 4 (harmonicSum 1724 4) (quarterSines refConfig)
    (refQuarter6.map BitVec.toNat) = true := by decide +kernel
theorem refLevel7 : levelDirect (2 ^ 1724) (2 ^ 1532) 2 (harmonicSum 1724 2) (quarterSines refConfig)
    (refQuarter7.map BitVec.toNat) = true := by decide +kernel

/-- The WT_ROM of REF meets R94 (d) with WT_TOL 0. -/
theorem refConfig_near : waveTablesNear refConfig = true := by
  have hcount := refConfig_counts
  have hfin := refQuarter_finite
  simp only [List.all_cons, List.all_nil, Bool.and_true, Bool.and_eq_true] at hfin
  have hc : oddCount refConfig 0 = 250 ∧ oddCount refConfig 1 = 125 ∧ oddCount refConfig 2 = 63 ∧
      oddCount refConfig 3 = 31 ∧ oddCount refConfig 4 = 16 ∧ oddCount refConfig 5 = 8 ∧ oddCount refConfig 6 = 4 ∧
      oddCount refConfig 7 = 2 := by
    simpa [List.range_succ] using hcount
  unfold waveTablesNear
  rw [List.all_eq_true]
  intro k hk
  have hk : k < 8 := List.mem_range.1 hk
  have near : ∀ {k n : Nat} {quarter : List Word}, oddCount refConfig k = n →
      levelDirect (2 ^ 1724) (2 ^ 1532) n (harmonicSum 1724 n) (quarterSines refConfig) (quarter.map BitVec.toNat) = true →
      quarter.all (fun v => v.toNat ≤ 0x7F800000) = true → refConfig.wtRom.getD k [] = fullTable quarter →
      tableNear refConfig (harmonicSum (fixedBits refConfig) (oddCount refConfig k)) (levelSums refConfig k)
        (refConfig.wtRom.getD k []) = true := by
    intro k n quarter hn hd hlt ht
    rw [ht]
    exact tableNear_of_direct refConfig_bits.2 refConfig_bits.1 hn hd hlt
  interval_cases k
  · exact near hc.1 refLevel0 hfin.1 rfl
  · exact near hc.2.1 refLevel1 hfin.2.1 rfl
  · exact near hc.2.2.1 refLevel2 hfin.2.2.1 rfl
  · exact near hc.2.2.2.1 refLevel3 hfin.2.2.2.1 rfl
  · exact near hc.2.2.2.2.1 refLevel4 hfin.2.2.2.2.1 rfl
  · exact near hc.2.2.2.2.2.1 refLevel5 hfin.2.2.2.2.2.1 rfl
  · exact near hc.2.2.2.2.2.2.1 refLevel6 hfin.2.2.2.2.2.2.1 rfl
  · exact near hc.2.2.2.2.2.2.2 refLevel7 hfin.2.2.2.2.2.2.2 rfl

theorem refConfig_ranges : (parametersInRange refConfig && strictlyIncreasing (thresholds refConfig)
    && (noteRates refConfig).all (fun r => 1 ≤ r && r ≤ 0xFFFFFFFF) && waveTablesOk refConfig) = true := by
  decide +kernel

/-- REF is valid (R100). -/
theorem refConfig_valid : configValid refConfig = true := by
  unfold configValid
  rw [refConfig_ranges, refConfig_near]
  rfl

end Sys2Proof.Machine
end

