-- ==== Sys2Proof/Laws/Tick.lean ====
section
/-! SUPPORT. The scan: its step bound is enough, one iteration unfolds it, and an induction along it. -/

namespace Sys2Proof.Machine

/-- Two continuations that agree after every command that completes give the same iteration. -/
theorem scanCommand_congr {f g : State → Host.Outcome State Fault Refusal} {s : State}
    (h : ∀ i u, s.pos.toNat < s.nlen.toNat → Completed i s u → i.endsScan = false → f u = g u) :
    scanCommand f s = scanCommand g s := by
  unfold scanCommand
  split
  · rfl
  · next hp =>
    simp [pastEnd_eq_false] at hp
    split <;> try rfl
    next i hi =>
    split
    · cases he : exec i s with
      | fault r => rfl
      | refused r => rfl
      | next u =>
        simp only [afterCommand]
        split
        · rfl
        · next hu =>
          split
          · rfl
          · next hends =>
            rcases exec_cases he with hr | hc
            · exact absurd hr.state_eq hu
            · exact h i u hp hc (by simpa using hends)
    · rfl

/-- A completed command that lets the scan go on brings POS nearer to NLEN (R113). -/
theorem Completed.measure_lt {i : Instr} {s u : State} (h : Completed i s u) (he : i.endsScan = false)
    (hp : s.pos.toNat < s.nlen.toNat) : u.nlen.toNat - u.pos.toNat < s.nlen.toNat - s.pos.toNat := by
  have hne : i ≠ .endText := by rintro rfl; cases he
  have := (h.pos_toNat hne hp).1
  have := Instr.one_le_length i
  rw [h.nlen_eq]
  omega

theorem scanWithin_eq {n m : Nat} {s : State} (hn : s.nlen.toNat - s.pos.toNat + 1 ≤ n)
    (hm : s.nlen.toNat - s.pos.toNat + 1 ≤ m) : scanWithin n s = scanWithin m s := by
  induction n generalizing m s with
  | zero => omega
  | succ n ih =>
    cases m with
    | zero => omega
    | succ m =>
      refine scanCommand_congr fun i u hp hc he => ?_
      have := hc.measure_lt he hp
      exact ih (by omega) (by omega)

/-- The step bound of the scan is enough: one iteration unfolds the scan (R113). -/
theorem scan_unfold (s : State) : scan s = scanCommand scan s := by
  refine scanCommand_congr fun i u hp hc he => ?_
  have := hc.measure_lt he hp
  exact scanWithin_eq (by omega) (le_refl _)

/-- What the scan can do at a command (R113): run past the text, meet an illegal byte, raise an error in the command,
end the tick, or go on. -/
theorem scan_cases {s t : State} (hb : s.state = .busy) (h : scan s = .next t) :
    (s.nlen.toNat ≤ s.pos.toNat ∧ t = raiseError .noTerminator s.pos.toNat 0 0 s) ∨
    (s.pos.toNat < s.nlen.toNat ∧ ∃ c, decode (commandBytes s) = .error (.illegal c) ∧
      t = raiseError .syntaxError s.pos.toNat c c s) ∨
    (s.pos.toNat < s.nlen.toNat ∧ ∃ i, decode (commandBytes s) = .ok i ∧
      ((exec i s = .next t ∧ RaisedFrom s t) ∨
       ∃ u, exec i s = .next u ∧ Completed i s u ∧
        ((i.endsScan = true ∧ t = finishTick u) ∨ (i.endsScan = false ∧ scan u = .next t)))) := by
  rw [scan_unfold] at h
  unfold scanCommand at h
  split at h
  · next hp => cases h; exact .inl ⟨pastEnd_eq_true.1 hp, rfl⟩
  · next hp =>
    simp [pastEnd_eq_false] at hp
    split at h
    · next c hc =>
      split at h
      · cases h; exact .inr (.inl ⟨hp, c, hc, rfl⟩)
      · cases h
    · cases h
    · next i hi =>
      split at h
      · refine .inr (.inr ⟨hp, i, hi, ?_⟩)
        cases he : exec i s with
        | fault r => rw [he] at h; cases h
        | refused r => rw [he] at h; cases h
        | next u =>
          rw [he] at h
          simp only [afterCommand] at h
          rcases exec_cases he with hr | hc
          · rw [if_pos hr.state_eq] at h
            cases h
            exact .inl ⟨rfl, hr⟩
          · rw [if_neg (by rw [hc.state_eq, hb]; simp)] at h
            refine .inr ⟨u, rfl, hc, ?_⟩
            split at h
            · next hends => cases h; exact .inl ⟨hends, rfl⟩
            · next hends => exact .inr ⟨by simpa using hends, h⟩
      · cases h

/-- Induction along a scan that answers a next state. -/
theorem scan_induction {P : State → State → Prop}
    (pastText : ∀ s, s.state = .busy → s.nlen.toNat ≤ s.pos.toNat →
      P s (raiseError .noTerminator s.pos.toNat 0 0 s))
    (illegal : ∀ s c, s.state = .busy → s.pos.toNat < s.nlen.toNat →
      decode (commandBytes s) = .error (.illegal c) → P s (raiseError .syntaxError s.pos.toNat c c s))
    (raised : ∀ s i u, s.state = .busy → s.pos.toNat < s.nlen.toNat → decode (commandBytes s) = .ok i →
      exec i s = .next u → RaisedFrom s u → P s u)
    (event : ∀ s i u, s.state = .busy → s.pos.toNat < s.nlen.toNat → decode (commandBytes s) = .ok i →
      exec i s = .next u → Completed i s u → i.endsScan = true → P s (finishTick u))
    (more : ∀ s i u t, s.state = .busy → s.pos.toNat < s.nlen.toNat → decode (commandBytes s) = .ok i →
      exec i s = .next u → Completed i s u → i.endsScan = false → P u t → P s t)
    {s t : State} (hb : s.state = .busy) (h : scan s = .next t) : P s t := by
  generalize hn : s.nlen.toNat - s.pos.toNat = n
  induction n using Nat.strong_induction_on generalizing s with
  | _ n ih =>
    rcases scan_cases hb h with ⟨hp, rfl⟩ | ⟨hp, c, hc, rfl⟩ | ⟨hp, i, hi, ⟨he, hr⟩ | ⟨u, he, hc, hends | hmore⟩⟩
    · exact pastText s hb hp
    · exact illegal s c hb hp hc
    · exact raised s i t hb hp hi he hr
    · obtain ⟨hends, rfl⟩ := hends
      exact event s i u hb hp hi he hc hends
    · obtain ⟨hends, hs⟩ := hmore
      have hlt := hc.measure_lt hends hp
      exact more s i u t hb hp hi he hc hends (ih _ (hn ▸ hlt) (by rw [hc.state_eq, hb]) hs rfl)

/-- The tick step is a sustained tick, the terminal check, or the scan (R111 to R113). -/
theorem tickStep_eq (s : State) :
    tickStep s = if 1 < s.cnt.toNat ∨ s.done = true then .next (finishTick (sustain s)) else scan (sustain s) := by
  have h : 0 < (sustain s).cnt.toNat ↔ 1 < s.cnt.toNat := by
    simp only [sustain_cnt]
    split
    · next h => simp [h]
    · next h =>
      have : s.cnt.toNat ≠ 0 := fun e => h (BitVec.eq_of_toNat_eq (by simpa using e))
      have hlt := s.cnt.isLt
      rw [BitVec.toNat_sub]
      simp
      omega
  unfold tickStep
  by_cases h1 : 1 < s.cnt.toNat
  · rw [if_pos (h.2 h1), if_pos (.inl h1)]
  · rw [if_neg (fun e => h1 (h.1 e))]
    by_cases h2 : s.done = true
    · rw [if_pos (by simpa using h2), if_pos (.inr h2)]
    · rw [if_neg (by simpa using h2), if_neg (by rintro (e | e); exacts [h1 e, h2 e])]

end Sys2Proof.Machine
end

