-- ==== Sys2Proof/Laws/Renderer.lean ====
section
/-! SUPPORT. What the sample steps, the block's step and the host's moves can do: one inversion lemma each. -/

namespace Sys2Proof.Machine

theorem sinkFull_iff {s : State} : sinkFull s = true ↔ s.outCount.toNat = outputLimit s.cfg := by
  simp [sinkFull]

/-- A sample is the interpolation of two entries in [-1, 1] (R98). -/
theorem sampleAt_next {s : State} {p : Word} {k : Nat} {x : Word} :
    sampleAt s p k = .next x ↔
      ∃ a b, waveEntry s k (tableIndex s.cfg p) = some a ∧
        waveEntry s k (nextIndex s.cfg (tableIndex s.cfg p)) = some b ∧
        f32InUnit a = true ∧ f32InUnit b = true ∧ x = interpolate a b (weight s.cfg p) := by
  unfold sampleAt
  split
  · next a b ha hb =>
    rw [ha, hb]
    split
    · next hu =>
      simp at hu
      constructor
      · intro e; cases e; exact ⟨a, b, rfl, rfl, hu.1, hu.2, rfl⟩
      · rintro ⟨a', b', ha', hb', -, -, rfl⟩
        cases ha'; cases hb'; rfl
    · next hu =>
      constructor
      · intro e; cases e
      · rintro ⟨a', b', ha', hb', h1, h2, -⟩
        cases ha'; cases hb'
        simp [h1, h2] at hu
  · next h => simp [h]
  · next h => simp [h]

/-- The silent sample step overflows or emits a zero (R152). -/
theorem silentStep_next {s t : State} (h : silentStep s = .next t) :
    (sinkFull s = true ∧ t = outputOverflow s) ∨
    (sinkFull s = false ∧ t = countSample (appendSample 0 s)) := by
  unfold silentStep at h
  split at h
  · next hf => cases h; exact .inl ⟨hf, rfl⟩
  · next hf => cases h; exact .inr ⟨by simpa using hf, rfl⟩

/-- The voiced sample step overflows or emits the quantized sample and advances the phase (R153). -/
theorem voicedStep_next {s t : State} (h : voicedStep s = .next t) :
    ∃ x, sampleAt s s.phase s.lvl.toNat = .next x ∧
      ((sinkFull s = true ∧ t = outputOverflow s) ∨
       (sinkFull s = false ∧ t = countSample (advancePhase (appendSample (quantize x) s)))) := by
  unfold voicedStep at h
  split at h
  · cases h
  · cases h
  · next x hx =>
    refine ⟨x, hx, ?_⟩
    split at h
    · next hf => cases h; exact .inl ⟨hf, rfl⟩
    · next hf => cases h; exact .inr ⟨by simpa using hf, rfl⟩

/-- The block's step (R150). -/
theorem blockStep_next {s t : State} (h : blockStep s = .next t) :
    (s.state ≠ .busy ∧ t = s) ∨
    (s.state = .busy ∧ s.rstate = .needTick ∧ tickStep s = .next t) ∨
    (s.state = .busy ∧ s.rstate = .emit ∧ s.rate = 0 ∧ silentStep s = .next t) ∨
    (s.state = .busy ∧ s.rstate = .emit ∧ s.rate ≠ 0 ∧ voicedStep s = .next t) := by
  unfold blockStep at h
  split at h
  · next h1 h2 => exact .inr (.inl ⟨h1, h2, h⟩)
  · next h1 h2 =>
    split at h
    · next h3 => exact .inr (.inr (.inl ⟨h1, h2, h3, h⟩))
    · next h3 => exact .inr (.inr (.inr ⟨h1, h2, h3, h⟩))
  · next h1 => cases h; exact .inl ⟨by simp [h1], rfl⟩
  · next h1 => cases h; exact .inl ⟨by simp [h1], rfl⟩
  · next h1 => cases h; exact .inl ⟨by simp [h1], rfl⟩

/-- A move of the host (R64). -/
theorem hostMove_next {m : HostMove} {s t : State} (h : hostMove m s = .next t) :
    (m = .yield ∧ blockStep s = .next t) ∨
    (∃ offset bytes, m = .readRegister offset bytes ∧ windowAccess offset bytes = true ∧
      t = { s with hostData := readRegister s offset }) ∨
    (∃ offset bytes value, m = .writeRegister offset bytes value ∧ windowAccess offset bytes = true ∧
      t = writeRegister offset value s) ∨
    (∃ index value, m = .writeText index value ∧ ¬(s.state = .busy ∧ index.toNat < s.nlen.toNat) ∧
      index.toNat ≠ 2 ^ 32 - 1 ∧ t = { s with text := Memory.write s.text index.toNat value }) ∨
    (∃ c, m = .hardwareReset c ∧ configValid c = true ∧
      t = { State.powerOn c with text := s.text, sink := s.sink, inbox := s.inbox, hostData := s.hostData }) := by
  cases m with
  | yield => exact .inl ⟨rfl, h⟩
  | readRegister offset bytes =>
    simp only [hostMove] at h
    split at h
    · next hw => cases h; exact .inr (.inl ⟨_, _, rfl, hw, rfl⟩)
    · cases h
  | writeRegister offset bytes value =>
    simp only [hostMove] at h
    split at h
    · next hw => cases h; exact .inr (.inr (.inl ⟨_, _, _, rfl, hw, rfl⟩))
    · cases h
  | writeText index value =>
    simp only [hostMove, writeText] at h
    split at h
    · cases h
    · next h1 =>
      split at h
      · cases h
      · next h2 => cases h; exact .inr (.inr (.inr (.inl ⟨_, _, rfl, h1, h2, rfl⟩)))
  | hardwareReset c =>
    simp only [hostMove, hardwareReset] at h
    split at h
    · next hv => cases h; exact .inr (.inr (.inr (.inr ⟨_, rfl, hv, rfl⟩)))
    · cases h

/-- What a register write does (R34 to R36, R40). -/
theorem writeRegister_cases (offset : Nat) (value : Word) (s : State) :
    writeRegister offset value s = s ∨ writeRegister offset value s = softReset s ∨
    (s.state ≠ .busy ∧ writeRegister offset value s = startRegisters s) ∨
    (s.state ≠ .busy ∧ writeRegister offset value s = { s with nlen := value }) := by
  unfold writeRegister
  split
  · unfold writeControl
    split
    · exact .inr (.inl rfl)
    · split
      · unfold startRender
        split
        · exact .inl rfl
        · next h => exact .inr (.inr (.inl ⟨h, rfl⟩))
      · exact .inl rfl
  · unfold writeLength
    split
    · exact .inl rfl
    · next h => exact .inr (.inr (.inr ⟨h, rfl⟩))
  · exact .inl rfl

/-- A step is the block's own or the host's next move (R64). -/
theorem step_next {s t : State} (h : step s = .next t) :
    (s.inbox = [] ∧ blockStep s = .next t) ∨
    (∃ m rest, s.inbox = m :: rest ∧ hostMove m { s with inbox := rest } = .next t) := by
  unfold step takeStep at h
  split at h
  · next he => exact .inl ⟨he, h⟩
  · next m rest he => exact .inr ⟨m, rest, he, h⟩

/-- With no host move pending, a step is the block's own. -/
theorem step_of_noMove {s : State} (h : s.inbox = []) : step s = blockStep s := by
  unfold step takeStep; rw [h]

end Sys2Proof.Machine
end

