-- ==== Sys2Proof/Tests/Slice0.lean ====
section
/-! SUPPORT. The model's own tests. Expected results come from spec/: the encodings of 30_encoding.md, the examples of
41_sequencer.md and the vectors of 95_test_vectors.md (V, E, P, S and section numbers below). At the end, a witness for
the hypotheses of each statement. -/

-- Each test is a kernel evaluation; one after another they stay within the memory of a check.
set_option Elab.async false

namespace Sys2Proof.Machine.Tests

/-! ### Helpers -/

/-- The next state of an outcome. -/
def nextOf : Host.Outcome State Fault Refusal → Option State
  | .next s => some s
  | .fault _ => none
  | .refused _ => none

/-- A block under `c` that has just been started on a text. -/
def started (c : Config) (bytes : List Byte) : State :=
  startRegisters { State.powerOn c with text := storeText bytes 0 [], nlen := BitVec.ofNat 32 bytes.length }

/-- STATE, ERR_CODE, ERR_POS, ERR_BYTE and ERR_CMD after one step: the columns of 95_test_vectors.md 2.7. -/
def errorOf (s : State) : Option (BlockState × ErrorCode × Word × Byte × Byte) :=
  (nextOf (step s)).map fun t => (t.state, t.errCode, t.errPos, t.errByte, t.errCmd)

/-- POS, OCT, TEMPO, CNT, RATE and LVL after one step. -/
def tickOf (s : State) : Option (Word × BitVec 3 × BitVec 4 × Word × Word × BitVec 5) :=
  (nextOf (step s)).map fun t => (t.pos, t.oct, t.tempo, t.cnt, t.rate, t.lvl)

/-- A small valid configuration: two levels of four entries, two samples a tick, room for twelve samples. -/
def tiny : Config :=
  { refConfig with
    nLevels := 2, tableBits := 2, tickSamples := 2, outCapacity := some 12
    wtRom := [[0, 0x3F800000, 0, 0xBF800000], [0, 0x3F800000, 0, 0xBF800000]] }

/-! ### Well-formedness: each check refuses an ill-formed term (20_memory.md R54, 30_encoding.md R73) -/

theorem test_wellFormed_refuses_lowercase_operand : (Instr.oct 0x61).wellFormed = false := by decide
theorem test_wellFormed_refuses_lowercase_digit_of_note : (Instr.noteC .hash 0x7A).wellFormed = false := by decide
theorem test_wellFormed_refuses_modifier_as_digit : (Instr.noteC .natural 0x23).wellFormed = false := by decide
theorem test_wellFormed_accepts_modifier_then_modifier : (Instr.noteC .hash 0x2B).wellFormed = true := by decide

/-! ### Decoding: each row's bytes, written from 30_encoding.md R71 and R75 -/

theorem test_decode_end : decode [0x00] = .ok .endText := by decide
theorem test_decode_wsHt : decode [0x09] = .ok .wsHt := by decide
theorem test_decode_wsLf : decode [0x0A] = .ok .wsLf := by decide
theorem test_decode_wsVt : decode [0x0B] = .ok .wsVt := by decide
theorem test_decode_wsFf : decode [0x0C] = .ok .wsFf := by decide
theorem test_decode_wsCr : decode [0x0D] = .ok .wsCr := by decide
theorem test_decode_wsSp : decode [0x20] = .ok .wsSp := by decide
theorem test_decode_octUp : decode [0x3E] = .ok .octUp := by decide
theorem test_decode_octDn : decode [0x3C] = .ok .octDn := by decide
theorem test_decode_oct : decode [0x4F, 0x33] = .ok (.oct 0x33) := by decide
theorem test_decode_oct_lowercase : decode [0x6F, 0x33] = .ok (.oct 0x33) := by decide
theorem test_decode_tempo : decode [0x54, 0x34] = .ok (.tempo 0x34) := by decide
theorem test_decode_tempo_lowercase : decode [0x74, 0x30] = .ok (.tempo 0x30) := by decide
theorem test_decode_rest : decode [0x52, 0x30] = .ok (.rest 0x30) := by decide
theorem test_decode_rest_lowercase : decode [0x72, 0x39] = .ok (.rest 0x39) := by decide
theorem test_decode_noteC : decode [0x43, 0x23, 0x34] = .ok (.noteC .hash 0x34) := by decide
theorem test_decode_noteD : decode [0x44, 0x23, 0x34] = .ok (.noteD .hash 0x34) := by decide
theorem test_decode_noteE : decode [0x45, 0x23, 0x34] = .ok (.noteE .hash 0x34) := by decide
theorem test_decode_noteF : decode [0x46, 0x23, 0x34] = .ok (.noteF .hash 0x34) := by decide
theorem test_decode_noteG : decode [0x47, 0x23, 0x34] = .ok (.noteG .hash 0x34) := by decide
theorem test_decode_noteA : decode [0x41, 0x23, 0x34] = .ok (.noteA .hash 0x34) := by decide
theorem test_decode_noteB : decode [0x42, 0x23, 0x34] = .ok (.noteB .hash 0x34) := by decide
theorem test_decode_noteC_natural : decode [0x63, 0x38, 0x23] = .ok (.noteC .natural 0x38) := by decide
theorem test_decode_noteB_flat : decode [0x62, 0x2D, 0x31] = .ok (.noteB .minus 0x31) := by decide
theorem test_decode_noteG_plus : decode [0x47, 0x2B, 0x39] = .ok (.noteG .plus 0x39) := by decide
theorem test_decode_rejects_lowercase_z : decode [0x7A, 0x00] = .error (.illegal 0x5A) := by decide
theorem test_decode_rejects_high_byte : decode [0x80, 0x00] = .error (.illegal 0x80) := by decide
theorem test_decode_rejects_digit : decode [0x35] = .error (.illegal 0x35) := by decide
theorem test_decode_rejects_nothing : decode [] = .error .noByte := by decide
theorem test_tableWord_note : decodeTableWord 24 0x342363 = some (.noteC .hash 0x34) := by decide
theorem test_tableWord_short : decodeTableWord 8 0xFF4F = some (.oct 0x00) := by decide

/-! ### One tick: 41_sequencer.md examples and 95_test_vectors.md 2.6 -/

theorem test_ws_then_rest : -- V7, R117
    tickOf (started refConfig [0x09, 0x0A, 0x0B, 0x0C, 0x0D, 0x20, 0x52, 0x30, 0x00]) = some (8, 2, 4, 5, 0, 0) := by
  decide +kernel
theorem test_octaveUp_clamps : -- V4
    tickOf (started refConfig [0x4F, 0x34, 0x3E, 0x00]) = some (3, 4, 4, 0, 0, 0) := by decide +kernel
theorem test_octaveDown_clamps : -- V5
    tickOf (started refConfig [0x3C, 0x3C, 0x3C, 0x00]) = some (3, 0, 4, 0, 0, 0) := by decide +kernel
theorem test_octave_digit_folded : -- V3
    tickOf (started refConfig [0x6F, 0x33, 0x00]) = some (2, 3, 4, 0, 0, 0) := by decide +kernel
theorem test_tempo_scales_rest : -- V8
    tickOf (started refConfig [0x54, 0x39, 0x52, 0x30, 0x00]) = some (4, 2, 9, 10, 0, 0) := by decide +kernel
theorem test_noteC : -- P1, tick 1
    tickOf (started refConfig [0x54, 0x34, 0x20, 0x4F, 0x30, 0x20, 0x43, 0x38, 0x00]) =
      some (8, 0, 4, 160, 6370029, 1) := by decide +kernel
theorem test_noteC_nudged_up : -- V13
    tickOf (started refConfig [0x4F, 0x30, 0x43, 0x2D, 0x30, 0x00]) = some (5, 0, 4, 5, 6370029, 1) := by
  decide +kernel
theorem test_noteD_sharp : -- R126
    tickOf (started refConfig [0x4F, 0x31, 0x44, 0x23, 0x33, 0x00]) = some (5, 1, 4, 20, 15150569, 2) := by
  decide +kernel
theorem test_noteE_sharp : -- R127
    tickOf (started refConfig [0x54, 0x30, 0x65, 0x23, 0x31, 0x00]) = some (5, 2, 0, 2, 34011878, 4) := by
  decide +kernel
theorem test_noteF : -- R128
    tickOf (started refConfig [0x54, 0x31, 0x4F, 0x33, 0x46, 0x35, 0x00]) = some (6, 3, 1, 16, 68023756, 5) := by
  decide +kernel
theorem test_noteG_plus : -- R129
    tickOf (started refConfig [0x54, 0x39, 0x4F, 0x34, 0x47, 0x2B, 0x39, 0x00]) =
      some (7, 4, 9, 480, 161788670, 6) := by decide +kernel
theorem test_noteA : -- R130
    tickOf (started refConfig [0x41, 0x34, 0x00]) = some (2, 2, 4, 30, 42852281, 4) := by decide +kernel
theorem test_noteB_nudged_down : -- R131, V14
    tickOf (started refConfig [0x4F, 0x34, 0x42, 0x23, 0x30, 0x00]) = some (5, 4, 4, 5, 192400238, 6) := by
  decide +kernel
theorem test_end_of_text : -- V1, R151
    (nextOf (step (started refConfig [0x00]))).map (fun t => (t.state, t.done, t.pos, t.rstate, statusWord t)) =
      some (.done, true, 0, .needTick, 6) := by decide +kernel
theorem test_sustain_no_fetch : -- 2.6, CNT 3 on entry, nothing written
    tickOf { started refConfig [] with cnt := 3, rate := 6370029 } = some (0, 2, 4, 2, 6370029, 1) := by
  decide +kernel

/-! ### Errors: 95_test_vectors.md 2.7 -/

theorem test_error_E1 :
    errorOf (started refConfig [0x5A, 0x34, 0x00]) = some (.error, .syntaxError, 0, 0x5A, 0x5A) := by decide +kernel
theorem test_error_E2 :
    errorOf (started refConfig [0x7A, 0x00]) = some (.error, .syntaxError, 0, 0x5A, 0x5A) := by decide +kernel
theorem test_error_E7 :
    errorOf (started refConfig [0x4F, 0x35, 0x00]) = some (.error, .rangeError, 1, 0x35, 0x4F) := by decide +kernel
theorem test_error_E8 :
    errorOf (started refConfig [0x4F, 0x00]) = some (.error, .rangeError, 1, 0x00, 0x4F) := by decide +kernel
theorem test_error_E9 :
    errorOf (started refConfig [0x4F, 0x20, 0x33, 0x00]) = some (.error, .rangeError, 1, 0x20, 0x4F) := by decide +kernel
theorem test_error_E10 :
    errorOf (started refConfig [0x54, 0x58, 0x00]) = some (.error, .rangeError, 1, 0x58, 0x54) := by decide +kernel
theorem test_error_E11 :
    errorOf (started refConfig [0x43, 0x23, 0x2B, 0x34, 0x00]) = some (.error, .rangeError, 2, 0x2B, 0x43) := by decide +kernel
theorem test_error_E12 :
    errorOf (started refConfig [0x43, 0x00]) = some (.error, .rangeError, 1, 0x00, 0x43) := by decide +kernel
theorem test_error_E13 :
    errorOf (started refConfig [0x4F]) = some (.error, .noTerminator, 1, 0x00, 0x4F) := by decide +kernel
theorem test_error_E14 :
    errorOf (started refConfig [0x43]) = some (.error, .noTerminator, 1, 0x00, 0x43) := by decide +kernel
theorem test_error_E15 :
    errorOf (started refConfig [0x43, 0x23]) = some (.error, .noTerminator, 2, 0x00, 0x43) := by decide +kernel
theorem test_error_E16 :
    errorOf (started refConfig []) = some (.error, .noTerminator, 0, 0x00, 0x00) := by decide +kernel
theorem test_overflow_before_first_sample : -- E20
    errorOf { started { refConfig with outCapacity := some 0 } [0x72, 0x30] with
      pos := 2, cnt := 5, rstate := .emit } = some (.error, .outputOverflow, 2, 0, 0) := by decide +kernel
theorem test_unwritten_byte_faults : -- log 5
    step { started refConfig [] with nlen := 1 } = .fault .unwrittenText := by
  have h : (match step { started refConfig [] with nlen := 1 } with | .fault r => r == .unwrittenText | _ => false) =
      true := by decide +kernel
  revert h
  cases step { started refConfig [] with nlen := 1 } with
  | next s => simp
  | fault r => cases r <;> simp
  | refused r => simp

/-! ### Tables, lookup, interpolation, quantizer, phase: 95_test_vectors.md 2.1 to 2.5 and 2.8 -/

theorem test_tiny_valid : configValid tiny = true := by decide +kernel
/-- One entry, sin(π) in R91, is 0.5. -/
def far : Config := { tiny with wtRom := [[0, 0x3F800000, 0x3F000000, 0xBF800000], [0, 0x3F800000, 0, 0xBF800000]] }
theorem test_far_table_refused : -- R94 (d), R100 (d): all else holds
    (configValid far, waveTablesOk far) = (false, true) := by decide +kernel
theorem test_far_table_within_tolerance : -- R94 (d) with WT_TOL 1/2, which the entry reaches
    (configValid { far with wtTol := ⟨1, 2⟩ }, configValid { far with wtTol := ⟨499, 1000⟩ }) = (true, false) := by
  decide +kernel
theorem test_thresholds : -- 2.2
    thresholds refConfig =
      [3895661, 7791323, 15582647, 31165295, 62330591, 124661182, 249322364, 0xFFFFFFFF] := by decide +kernel
theorem test_harmonics : -- 2.2
    (List.range 8).map (harmonicCount refConfig) = [500, 250, 125, 62, 31, 15, 7, 3] := by decide +kernel
theorem test_noteRates : -- 2.1, n = 0, 33, 34 and 59
    [0, 33, 34, 59].map (noteRateOf refConfig) = [6370029, 42852281, 45400410, 192400238] := by decide +kernel
theorem test_selectLevel : -- 2.3
    ([1, 3895661, 3895662, 7791323, 7791324, 249322364, 249322365, 0xFFFFFFFF] : List Word).map
      (selectLevel (buildRoms refConfig).thr) = [0, 0, 1, 1, 2, 6, 7, 7] := by decide +kernel
theorem test_reference_waves : -- 2.9, entries 1 and 512 of levels 0 and 7
    ((refWtRom.getD 0 []).getD 1 0, (refWtRom.getD 0 []).getD 512 0, (refWtRom.getD 7 []).getD 1 0,
      (refWtRom.getD 7 []).getD 512 0) = (0x3F3A4BB9, 0x3F58F67C, 0x3BD541B8, 0x3F3504F3) := by decide +kernel
theorem test_interpolate_quarter : -- 2.4, p = 0x00680000
    interpolate 0x3E800000 0x3F400000 (weight refConfig 0x00680000) = 0x3EC00000 := by decide +kernel
theorem test_interpolate_wrap : -- 2.4, p = 0xFFFFFFFF: -2^-21
    (nextIndex refConfig (tableIndex refConfig 0xFFFFFFFF),
      interpolate 0xBF800000 0 (weight refConfig 0xFFFFFFFF)) = (0, 0xB5000000) := by decide +kernel
theorem test_quantize : -- 2.5
    ([0x3F800000, 0xBF800000, 0x3F7FFFFF, 0xBF7FFFFF, 0x3F800001, 0x3F000000, 0xBF000000, 0x3E800000, 0x80000000,
      0x38000100, 0x37FFC076] : List Word).map quantizeInt =
      [32767, -32767, 32766, -32766, 32767, 16383, -16383, 8191, 0, 1, 0] := by decide +kernel
theorem test_second_sample : -- 2.8 and P1: PHASE 6370029 at level 1 gives 30576, PHASE becomes 12740058
    (nextOf (step { started refConfig [] with
      rstate := .emit, rate := 6370029, lvl := 1, phase := 6370029, cnt := 160, outCount := 1, subcnt := 1 })).map
      (fun t => (t.phase, Memory.read t.sink 1, t.outCount, t.subcnt)) = some (12740058, some 30576, 2, 2) := by
  decide +kernel
theorem test_phase_wraps : -- 2.8
    (advancePhase { started tiny [] with phase := 0xFFFFFFF0, rate := 0x20 }).phase = 0x10 := by decide +kernel

/-! ### The host's side: program P5 -/

theorem test_reset_views : (statusWord State.reset, seqStateWord State.reset) = (0, 0x42) := by decide +kernel
theorem test_start : -- P5 step 3
    (nextOf (step { State.powerOn tiny with inbox := [.writeRegister 0 4 1] })).map statusWord = some 1 := by
  decide +kernel
theorem test_softReset_wins : -- P5 step 7
    (nextOf (step { started tiny [0x00] with outCount := 5, inbox := [.writeRegister 0 4 3] })).map
      (fun t => (t.state, t.outCount, t.nlen)) = some (.idle, 0, 0) := by decide +kernel
theorem test_render_of_a_rest : -- P5 on a small configuration: from reset, the host loads "R0" and starts it
    (nextOf (Host.Core.run Sys2Proof.core 22 { State.powerOn tiny with
      inbox := [.writeText 0 0x52, .writeText 1 0x30, .writeText 2 0x00, .writeRegister 8 4 3, .writeRegister 0 4 1,
        .readRegister 4 4] })).map (fun t => (statusWord t, t.outCount, t.pos, t.hostData)) =
      some (6, 10, 2, 1) := by decide +kernel
theorem test_misaligned_access_refused :
    (match step { State.powerOn tiny with inbox := [.readRegister 2 4] } with
      | .refused r => r == .hostAccess 2 4 | _ => false) = true := by decide +kernel

/-! ### A word placed where the next step fetches (log 8) -/

theorem test_fetchWord_note :
    (nextOf (step (State.reset.withFetchWord 24 0x343241))).map (fun t => (t.errCode, t.cnt, t.rate)) =
      some (.noError, 15, 42852281) := by decide +kernel
theorem test_fetchWord_octave_without_digit : -- operand bits above nbits are 0: RANGE_ERROR, R114
    (nextOf (step (State.reset.withFetchWord 8 0x4F))).map (fun t => (t.errCode, t.errPos)) =
      some (.rangeError, 1) := by decide +kernel

/-! ### Witnesses: a state and operands that meet the hypotheses of each statement, at the ends of their ranges -/

/-- About to parse: the text "O4B#9" and a NUL. -/
def parsing : State := started tiny [0x4F, 0x34, 0x42, 0x23, 0x39, 0x00]
/-- Playing A4 with two ticks left, at the first sample of a tick. -/
def voiced : State :=
  { started tiny [0x41, 0x30, 0x00] with pos := 2, cnt := 2, rate := 42852281, lvl := 1, rstate := .emit }
/-- Playing a rest, at the last sample of its last tick. -/
def silent : State := { started tiny [0x52, 0x30, 0x00] with
  pos := 2, cnt := 1, rstate := .emit, subcnt := 1, outCount := 1, sink := [(0, 0)] }
/-- A voiced sample due and no room left. -/
def full : State := { voiced with outCount := 12, sink := (List.range 12).map fun j => (j, 0) }
/-- A sustained tick due. -/
def sustained : State := { voiced with rstate := .needTick, subcnt := 2 }
/-- A configuration whose NOTE0_FREQ is the whole number 65. -/
def tiny65 : Config := { tiny with note0Pow12 := ⟨65 ^ 12, 1⟩ }

theorem witness_parsing_inv : parsing.Inv := by constructor <;> decide +kernel
theorem witness_voiced_inv : voiced.Inv := by constructor <;> decide +kernel
theorem witness_silent_inv : silent.Inv := by constructor <;> decide +kernel
theorem witness_full_inv : full.Inv := by constructor <;> decide +kernel
theorem witness_sustained_inv : sustained.Inv := by constructor <;> decide +kernel

theorem witness_DecodeInvertsEncode : (Instr.noteC .natural 0x60).wellFormed = true ∧
    (Instr.noteB .minus 0x7B).wellFormed = true ∧ (Instr.oct 0xFF).wellFormed = true := by decide
theorem witness_DecodedCommandIsWellFormed : decode [0x63, 0x23, 0x7A] = .ok (.noteC .hash 0x5A) := by decide
theorem witness_EncodeInvertsDecode : decode [0x63, 0x23, 0x34] = .ok (.noteC .hash 0x34) ∧
    (Instr.noteC .hash 0x34).length ≤ [(0x63 : Byte), 0x23, 0x34].length := by decide
theorem witness_IllegalSpaceIsRejected : inIllegalSpace (fold 0x01) = true ∧ inIllegalSpace (fold 0xFF) = true ∧
    inIllegalSpace (fold 0x7A) = true ∧ inIllegalSpace (fold 0x74) = false ∧ inIllegalSpace (fold 0x00) = false := by
  decide
theorem witness_FoldMapsLowercaseOnly : 0x61 ≤ (0x61 : Byte).toNat ∧ (0x61 : Byte).toNat ≤ 0x7A ∧
    0x61 ≤ (0x7A : Byte).toNat ∧ (0x7A : Byte).toNat ≤ 0x7A ∧ (0x60 : Byte).toNat < 0x61 ∧ 0x7A < (0x7B : Byte).toNat := by
  decide
theorem witness_OctaveUpClamps : (started tiny []).oct.toNat ≤ 4 ∧ { started tiny [] with oct := 4 }.oct.toNat ≤ 4 := by
  decide +kernel
theorem witness_OctaveSetCompletes : 4 ≤ 4 ∧ parsing.pos.toNat + 1 < parsing.nlen.toNat := by decide +kernel
theorem witness_TempoSetCompletes : 9 ≤ 9 ∧ parsing.pos.toNat + 1 < parsing.nlen.toNat := by decide +kernel
theorem witness_RestCompletes : parsing.Inv ∧ 9 ≤ 9 ∧ parsing.pos.toNat + 1 < parsing.nlen.toNat :=
  ⟨witness_parsing_inv, by decide +kernel⟩
theorem witness_DigitCommandErrors : (started tiny [0x4F]).nlen.toNat ≤ (started tiny [0x4F]).pos.toNat + 1 ∧
    parsing.pos.toNat + 1 < parsing.nlen.toNat ∧ (0x2F : Byte).toNat < 0x30 ∧ 0x30 + 4 < (0x35 : Byte).toNat ∧
    0x30 + 9 < (0x3A : Byte).toNat := by decide +kernel
theorem witness_NoteCompletes : parsing.Inv ∧ 9 ≤ 9 ∧
    parsing.pos.toNat + 1 + modifierLength .minus < parsing.nlen.toNat := ⟨witness_parsing_inv, by decide +kernel⟩
theorem witness_NoteErrorPriority : (started tiny [0x43]).nlen.toNat ≤ (started tiny [0x43]).pos.toNat + 1 ∧
    (started tiny [0x43, 0x23]).nlen.toNat = (started tiny [0x43, 0x23]).pos.toNat + 2 ∧ Modifier.hash ≠ .natural ∧
    parsing.pos.toNat + 1 + modifierLength .hash < parsing.nlen.toNat ∧ (0x2F : Byte).toNat < 0x30 ∧
    0x39 < (0x3A : Byte).toNat := by decide +kernel
theorem witness_PitchClampSaturates : -- raw -1, 0, 59 and 60
    0 ≤ 4 ∧ 4 ≤ 4 ∧ (-1 : Int) = semitone .c + modifierDelta .minus + 12 * 0 ∧
    (0 : Int) = semitone .c + modifierDelta .natural + 12 * 0 ∧
    (59 : Int) = semitone .b + modifierDelta .natural + 12 * 4 ∧ (60 : Int) = semitone .b + modifierDelta .hash + 12 * 4 := by
  decide
theorem witness_CommandFrame : (nextOf (exec (.oct 0x35) parsing)).map (fun t => t.state) = some .error ∧
    (nextOf (exec (.noteB .hash 0x39) parsing)).map (fun t => t.state) = some .busy := by decide +kernel
theorem witness_RegisterWriters :
    (nextOf (exec (.oct 0x34) parsing)).map (fun t => decide (t.oct ≠ parsing.oct)) = some true ∧
    (nextOf (exec (.tempo 0x39) parsing)).map (fun t => decide (t.tempo ≠ parsing.tempo)) = some true ∧
    (nextOf (exec (.rest 0x39) parsing)).map (fun t => decide (t.cnt ≠ parsing.cnt)) = some true ∧
    (nextOf (exec (.noteB .hash 0x39) parsing)).map (fun t => decide (t.rate ≠ parsing.rate)) = some true ∧
    (nextOf (exec .endText parsing)).map (fun t => decide (t.done ≠ parsing.done)) = some true := by decide +kernel
theorem witness_CommandErrorEntry : parsing.state ≠ .error ∧
    (nextOf (exec (.oct 0x35) parsing)).map (fun t => t.state) = some .error := by decide +kernel
theorem witness_SustainedTick : sustained.state = .busy ∧ sustained.rstate = .needTick ∧ sustained.done = false ∧
    sustained.inbox = [] ∧ 2 ≤ sustained.cnt.toNat := by decide +kernel
theorem witness_TickAfterDone : { sustained with done := true }.state = .busy ∧
    { sustained with done := true }.rstate = .needTick ∧ { sustained with done := true }.inbox = [] := by decide +kernel
theorem witness_atCommand : parsing.AtCommand := by constructor <;> decide +kernel
theorem witness_StepRunsDecodedInstruction : parsing.AtCommand ∧ parsing.pos.toNat < parsing.nlen.toNat ∧
    decode (commandBytes parsing) = .ok (.oct 0x34) ∧ bytesWritten parsing (Instr.oct 0x34).length = true ∧
    (nextOf (exec (.oct 0x34) { parsing with cnt := 0 })).map (fun t => decide (t.state = .error)) = some false :=
  ⟨witness_atCommand, by decide +kernel⟩
theorem witness_StepRunsDecodedInstruction_event : { parsing with pos := 2, cnt := 1 }.AtCommand ∧
    decode (commandBytes { parsing with pos := 2, cnt := 1 }) = .ok (.noteB .hash 0x39) ∧
    bytesWritten { parsing with pos := 2, cnt := 1 } 3 = true ∧
    (nextOf (exec (.noteB .hash 0x39) { parsing with pos := 2, cnt := 0 })).isSome = true :=
  ⟨by constructor <;> decide +kernel, by decide +kernel⟩
theorem witness_StepRunsDecodedInstruction_error : (started tiny [0x4F, 0x35]).AtCommand ∧
    decode (commandBytes (started tiny [0x4F, 0x35])) = .ok (.oct 0x35) ∧
    bytesWritten (started tiny [0x4F, 0x35]) 2 = true ∧
    (nextOf (exec (.oct 0x35) { started tiny [0x4F, 0x35] with cnt := 0 })).map (fun t => t.state) = some .error :=
  ⟨by constructor <;> decide +kernel, by decide +kernel⟩
theorem witness_StepRunsDecodedInstruction_fault :
    (started { tiny with len := [] } [0x52, 0x30]).AtCommand ∧
    decode (commandBytes (started { tiny with len := [] } [0x52, 0x30])) = .ok (.rest 0x30) ∧
    bytesWritten (started { tiny with len := [] } [0x52, 0x30]) 2 = true ∧
    (match exec (.rest 0x30) { started { tiny with len := [] } [0x52, 0x30] with cnt := 0 } with
      | .fault r => r == .tableIndex | _ => false) = true :=
  ⟨by constructor <;> decide +kernel, by decide +kernel⟩
theorem witness_IllegalByteRaisesSyntaxError : (started tiny [0x7A]).AtCommand ∧
    (started tiny [0x7A]).pos.toNat < (started tiny [0x7A]).nlen.toNat ∧
    textByte (started tiny [0x7A]) 0 = some 0x7A ∧ inIllegalSpace (fold 0x7A) = true :=
  ⟨by constructor <;> decide +kernel, by decide +kernel⟩
theorem witness_MissingTerminatorRaisesError : (started tiny []).AtCommand ∧
    (started tiny []).nlen.toNat ≤ (started tiny []).pos.toNat :=
  ⟨by constructor <;> decide +kernel, by decide +kernel⟩
theorem witness_NulEndsRender : (started tiny [0x00]).AtCommand ∧
    (started tiny [0x00]).pos.toNat < (started tiny [0x00]).nlen.toNat ∧ textByte (started tiny [0x00]) 0 = some 0 :=
  ⟨by constructor <;> decide +kernel, by decide +kernel⟩
theorem witness_SilentSampleStep : silent.Inv ∧ silent.AtSample ∧ silent.rate = 0 ∧
    silent.outCount.toNat ≠ outputLimit silent.cfg :=
  ⟨witness_silent_inv, by constructor <;> decide +kernel, by decide +kernel⟩
theorem witness_VoicedSampleStep : voiced.Inv ∧ voiced.AtSample ∧ voiced.rate ≠ 0 ∧
    voiced.outCount.toNat ≠ outputLimit voiced.cfg :=
  ⟨witness_voiced_inv, by constructor <;> decide +kernel, by decide +kernel⟩
theorem witness_FullSinkRaisesOverflow : full.Inv ∧ full.AtSample ∧ full.outCount.toNat =
    (match full.cfg.outCapacity with | none => 2 ^ 32 - 1 | some n => min n (2 ^ 32 - 1)) :=
  ⟨witness_full_inv, by constructor <;> decide +kernel, by decide +kernel⟩
theorem witness_SelectLevelGuarantee : configValid refConfig = true ∧ (0xFFFFFFFF : Word) ≠ 0 ∧ (1 : Word) ≠ 0 :=
  ⟨refConfig_valid, by decide⟩
theorem witness_SampleLookupsInRange : configValid voiced.cfg = true ∧ voiced.rom = buildRoms voiced.cfg ∧
    1 < voiced.cfg.nLevels ∧ tableIndex voiced.cfg 0xFFFFFFFF = tableSize voiced.cfg - 1 ∧
    tableIndex voiced.cfg 0 ≠ tableSize voiced.cfg - 1 := by decide +kernel
theorem witness_ZeroFractionGivesEntry : f32InUnit 0xBF800000 = true ∧ f32InUnit 0x3F800000 = true ∧
    phaseFraction tiny 0xC0000000 = 0 ∧ (0xBF800000 : Word) ≠ 0x80000000 ∧ f32InUnit 0x80000000 = true := by decide +kernel
theorem witness_QuantizeStaysSymmetric : f32InUnit 0x3F800000 = true ∧ f32InUnit 0xBF800000 = true := by decide
theorem witness_TickEmitsTickSamples : voiced.Inv ∧ voiced.AtSample ∧ voiced.subcnt = 0 ∧
    voiced.outCount.toNat + voiced.cfg.tickSamples ≤ outputLimit voiced.cfg :=
  ⟨witness_voiced_inv, by constructor <;> decide +kernel, by decide +kernel⟩
theorem witness_EventLastsItsDuration : voiced.Inv ∧ voiced.AtSample ∧ voiced.subcnt = 0 ∧ 1 ≤ voiced.cnt.toNat ∧
    voiced.outCount.toNat + voiced.cnt.toNat * voiced.cfg.tickSamples ≤ outputLimit voiced.cfg :=
  ⟨witness_voiced_inv, by constructor <;> decide +kernel, by decide +kernel⟩
theorem witness_AppendedSamplesAreFinal : silent.Inv ∧ silent.inbox = [] ∧ (nextOf (step silent)).isSome = true ∧
    0 < silent.outCount.toNat := ⟨witness_silent_inv, by decide +kernel⟩
theorem witness_BlockNeverWritesItsProgram : parsing.inbox = [] ∧ (nextOf (step parsing)).isSome = true := by
  decide +kernel
theorem witness_NoteTableFormula : configValid tiny65 = true ∧ 59 < 60 ∧ (0 : ℝ) < 65 ∧
    (65 : ℝ) ^ 12 * tiny65.note0Pow12.den = tiny65.note0Pow12.num :=
  ⟨by decide +kernel, by decide, by norm_num, by norm_num [tiny65]⟩
theorem witness_ThresholdFormula : configValid refConfig = true ∧ 6 + 1 < refConfig.nLevels ∧
    (buildRoms refConfig).thr[6]? = some 249322364 ∧ (buildRoms refConfig).thr[7]? = some 0xFFFFFFFF :=
  ⟨refConfig_valid, by decide +kernel⟩
theorem witness_StartBeginsRender : (1 : Word).getLsbD 0 = true ∧ (1 : Word).getLsbD 1 = false ∧
    { State.powerOn tiny with inbox := [.writeRegister 0 4 1] }.inbox = [.writeRegister 0 4 1] ∧
    { State.powerOn tiny with inbox := [.writeRegister 0 4 1] }.state ≠ .busy ∧
    { parsing with inbox := [.writeRegister 0 4 1] }.state = .busy := by decide +kernel
theorem witness_ControlWriteWithoutCommand : (0xFFFFFFFC : Word).getLsbD 0 = false ∧ (0xFFFFFFFC : Word).getLsbD 1 = false ∧
    { parsing with inbox := [.writeRegister 0 4 0xFFFFFFFC] }.inbox = [.writeRegister 0 4 0xFFFFFFFC] := by decide +kernel
theorem witness_SoftResetResetsRegisters : (3 : Word).getLsbD 1 = true ∧
    { parsing with inbox := [.writeRegister 0 4 3] }.inbox = [.writeRegister 0 4 3] := by decide +kernel
theorem witness_LengthRegister : { parsing with inbox := [.writeRegister 8 4 7] }.inbox = [.writeRegister 8 4 7] ∧
    parsing.state = .busy ∧ { State.powerOn tiny with inbox := [.writeRegister 8 4 7] }.state ≠ .busy := by
  decide +kernel
theorem witness_HostAccessRules :
    { parsing with inbox := [.readRegister 0x3C 4] }.inbox = [.readRegister 0x3C 4] ∧ 0x3C % 4 = 0 ∧ 0x3C < 0x40 ∧
    { parsing with inbox := [.writeRegister 0x04 4 1] }.inbox = [.writeRegister 0x04 4 1] ∧ 0x04 ≠ 0x00 ∧ 0x04 ≠ 0x08 ∧
    { parsing with inbox := [.readRegister 0x3E 4] }.inbox = [.readRegister 0x3E 4] ∧ 0x3E % 4 ≠ 0 ∧
    { parsing with inbox := [.writeRegister 0 2 1] }.inbox = [.writeRegister 0 2 1] ∧ 2 ≠ 4 := by decide +kernel
theorem witness_AccessOutsideWindowIsRefused : 0x40 % 4 = 0 ∧ 0x40 ≤ 0x40 ∧
    { parsing with inbox := [.readRegister 0x40 4] }.inbox = [.readRegister 0x40 4] ∧
    { parsing with inbox := [.writeRegister 0x40 4 1] }.inbox = [.writeRegister 0x40 4 1] := by decide +kernel
theorem witness_RegisterWindowReads : { parsing with inbox := [.readRegister 0x2C 4] }.inbox = [.readRegister 0x2C 4] := by
  decide +kernel
theorem witness_HardwareResetBuilds : configValid tiny = true ∧ configValid { tiny with nLevels := 1 } = false ∧
    { parsing with inbox := [.hardwareReset tiny] }.inbox = [.hardwareReset tiny] := by decide +kernel
theorem witness_HardwareResetRefusesFarTables : ¬ NearReference far ∧
    { parsing with inbox := [.hardwareReset far] }.inbox = [.hardwareReset far] := by
  refine ⟨fun h => ?_, by decide +kernel⟩
  obtain ⟨raw, m, hraw, -, hall⟩ := h 0 (by decide)
  obtain ⟨v, e, hv, he, htol⟩ := hall 2 (by decide)
  have hzero : rawWave far 0 0 = 0 := by simp [rawWave]
  have hraw2 : raw 2 = 0 := by
    rw [hraw 2]
    have := rawWave_half (c := far) (by decide) 0 0
    rw [hzero, neg_zero] at this
    exact this
  have he : (0x3F000000 : Word) = e := Option.some.inj he
  have hv0 := (hv.2 0 (by decide)).1
  rw [hraw2, zero_div, zero_mul, sub_zero, sub_zero, show f32Exact 0 = 0 by decide] at hv0
  have hv0 : (f32Exact v : ℝ) = 0 := by simpa using hv0
  rw [hv0, ← he, show f32Exact 0x3F000000 = 2 ^ 148 by decide +kernel] at htol
  norm_num [far, tiny, refConfig] at htol
theorem witness_TextWrites : { parsing with inbox := [.writeText 5 0] }.inbox = [.writeText 5 0] ∧
    parsing.state = .busy ∧ (5 : Word).toNat < parsing.nlen.toNat ∧ parsing.nlen.toNat ≤ (6 : Word).toNat ∧
    (State.powerOn tiny).state ≠ .busy ∧ (0xFFFFFFFE : Word).toNat < 2 ^ 32 - 1 ∧
    (0xFFFFFFFF : Word).toNat = 2 ^ 32 - 1 := by decide +kernel
theorem witness_QuiescentBlockKeepsState : (State.powerOn tiny).state ≠ .busy ∧ (State.powerOn tiny).inbox = [] := by
  decide +kernel
theorem witness_StepKeepsInvariant : voiced.Inv ∧ (nextOf (step voiced)).isSome = true :=
  ⟨witness_voiced_inv, by decide +kernel⟩
theorem witness_ValidBlockNeverStops : parsing.Inv ∧ parsing.TextWritten ∧ parsing.inbox = [] :=
  ⟨witness_parsing_inv, by unfold State.TextWritten; decide +kernel, by decide +kernel⟩
theorem witness_EveryRenderEnds : parsing.Inv ∧ parsing.TextWritten ∧ parsing.inbox = [] ∧ parsing.state = .busy :=
  ⟨witness_parsing_inv, by unfold State.TextWritten; decide +kernel, by decide +kernel⟩

end Sys2Proof.Machine.Tests
end

/-! PROOFS. What the commands write (10_state.md R22 to R25, R27): one inversion lemma, and the frame and the writers of
each register from it. -/

namespace Sys2Proof.Machine

/-! ### Digits and octaves in range -/

/-- A digit byte that the check takes has a value in its range (R72). -/
theorem digitValue_le {hi : Nat} {b : Byte} (h : isDigit hi b = true) : digitValue b ≤ hi := by
  have := isDigit_iff.1 h
  simp only [digitValue]
  omega

/-- OCTUP keeps OCT in its range (R22, R118). -/
theorem octUp_legal {o : BitVec 3} (h : o.toNat ≤ maxOctave) :
    (if o.toNat < maxOctave then o + 1 else o).toNat ≤ maxOctave := by
  by_cases hlt : o.toNat < maxOctave
  · rw [if_pos hlt, BitVec.toNat_add]
    exact (Nat.mod_le _ _).trans hlt
  · rwa [if_neg hlt]

/-- OCTDN keeps OCT in its range (R22, R119). -/
theorem octDn_legal {o : BitVec 3} (h : o.toNat ≤ maxOctave) :
    (if 0 < o.toNat then o - 1 else o).toNat ≤ maxOctave := by
  by_cases hpos : 0 < o.toNat
  · rw [if_pos hpos]
    bv_omega
  · rwa [if_neg hpos]

/-! ### What a command writes -/

/-- What a command that raises no error writes beside POS: DONE and RATE by END, OCT or TEMPO a value in its range, CNT
and RATE by an event, and nothing by whitespace. -/
inductive Writes (s : State) : Instr → State → Prop
  | endText : Writes s .endText { s with done := true, rate := 0 }
  | whitespace (i : Instr) (goesOn : i.endsScan = false) : Writes s i (advance 1 s)
  | octave (i : Instr) (n : Nat) (o : BitVec 3) (command : i = .octUp ∨ i = .octDn ∨ ∃ d, i = .oct d)
      (legal : s.oct.toNat ≤ maxOctave → o.toNat ≤ maxOctave) : Writes s i (advance n { s with oct := o })
  | tempo (digit : Byte) (v : BitVec 4) (legal : v.toNat ≤ 9) :
      Writes s (.tempo digit) (advance 2 { s with tempo := v })
  | event (i : Instr) (n : Nat) (cnt rate : Word) (command : (∃ d, i = .rest d) ∨ ∃ l m d, i = noteInstr l m d) :
      Writes s i (advance n { s with cnt := cnt, rate := rate })

/-- The note command of a letter is `NoteEvent` of that letter (R125 to R131). -/
theorem exec_noteInstr (l : Letter) (m : Modifier) (digit : Byte) (s : State) :
    exec (noteInstr l m digit) s = noteEvent l m digit s := by
  cases l <;> rfl

theorem noteInstr_writes {l : Letter} {m : Modifier} {digit : Byte} {s t : State}
    (h : exec (noteInstr l m digit) s = .next t) : RaisedFrom s t ∨ Writes s (noteInstr l m digit) t := by
  rw [exec_noteInstr] at h
  rcases noteEvent_cases h with hr | ⟨-, ht⟩
  · exact .inl hr
  · have ht : t = advance (2 + modifierLength m) { s with cnt := t.cnt, rate := t.rate } := ht
    rw [ht]
    exact .inr (.event _ _ _ _ (.inr ⟨l, m, digit, rfl⟩))

theorem oct_writes {digit : Byte} {s t : State} (h : exec (.oct digit) s = .next t) :
    RaisedFrom s t ∨ Writes s (.oct digit) t := by
  simp only [exec, execOct] at h
  split at h
  · next hr => cases h; exact .inl (RaisedFrom.of_readDigit (by omega) (by omega) hr)
  · next d hr =>
    cases h
    obtain ⟨-, hdigit, rfl⟩ := readDigit_ok.1 hr
    have hd := digitValue_le hdigit
    refine .inr (.octave _ _ _ (.inr (.inr ⟨digit, rfl⟩)) fun _ => ?_)
    rw [BitVec.toNat_ofNat]
    exact (Nat.mod_le _ _).trans hd

theorem tempo_writes {digit : Byte} {s t : State} (h : exec (.tempo digit) s = .next t) :
    RaisedFrom s t ∨ Writes s (.tempo digit) t := by
  simp only [exec, execTempo] at h
  split at h
  · next hr => cases h; exact .inl (RaisedFrom.of_readDigit (by omega) (by omega) hr)
  · next d hr =>
    cases h
    obtain ⟨-, hdigit, rfl⟩ := readDigit_ok.1 hr
    have hd := digitValue_le hdigit
    refine .inr (.tempo _ _ ?_)
    rw [BitVec.toNat_ofNat]
    exact (Nat.mod_le _ _).trans hd

theorem rest_writes {digit : Byte} {s t : State} (h : exec (.rest digit) s = .next t) :
    RaisedFrom s t ∨ Writes s (.rest digit) t := by
  simp only [exec, execRest] at h
  split at h
  · next hr => cases h; exact .inl (RaisedFrom.of_readDigit (by omega) (by omega) hr)
  · obtain ⟨len, -, -, rfl⟩ := playEvent_next.1 h
    exact .inr (.event _ _ _ _ (.inl ⟨digit, rfl⟩))

/-- Every command raises an error or writes as `Writes` says. -/
theorem exec_writes {i : Instr} {s t : State} (h : exec i s = .next t) : RaisedFrom s t ∨ Writes s i t := by
  cases i with
  | endText => cases h; exact .inr .endText
  | wsHt => cases h; exact .inr (.whitespace _ rfl)
  | wsLf => cases h; exact .inr (.whitespace _ rfl)
  | wsVt => cases h; exact .inr (.whitespace _ rfl)
  | wsFf => cases h; exact .inr (.whitespace _ rfl)
  | wsCr => cases h; exact .inr (.whitespace _ rfl)
  | wsSp => cases h; exact .inr (.whitespace _ rfl)
  | octUp => cases h; exact .inr (.octave _ _ _ (.inl rfl) octUp_legal)
  | octDn => cases h; exact .inr (.octave _ _ _ (.inr (.inl rfl)) octDn_legal)
  | oct digit => exact oct_writes h
  | tempo digit => exact tempo_writes h
  | rest digit => exact rest_writes h
  | noteC m digit => exact noteInstr_writes (l := .c) h
  | noteD m digit => exact noteInstr_writes (l := .d) h
  | noteE m digit => exact noteInstr_writes (l := .e) h
  | noteF m digit => exact noteInstr_writes (l := .f) h
  | noteG m digit => exact noteInstr_writes (l := .g) h
  | noteA m digit => exact noteInstr_writes (l := .a) h
  | noteB m digit => exact noteInstr_writes (l := .b) h

/-- Settles O18: an error entry leaves the frame and ends in ERROR; a command that completes writes registers of the
sequencer only. -/
theorem commandFrame : Obligations.CommandFrame := by
  intro i s t h
  rcases exec_cases h with hr | hc
  · obtain ⟨code, p, byte, cmd, rfl, -⟩ := hr
    simp [textByte]
  · rw [hc.same]
    simp [textByte]

/-- Settles O19: each kind of command writes its own registers, and an error entry none of these. -/
theorem registerWriters : Obligations.RegisterWriters := by
  intro i s t h
  rcases exec_writes h with hr | hw
  · obtain ⟨code, p, byte, cmd, rfl, -⟩ := hr
    simp
  · cases hw with
    | endText => simp
    | whitespace => simp
    | octave _ _ _ command => simp [command]
    | tempo => simp
    | event _ _ _ _ command => simp [command]

end Sys2Proof.Machine

/-! PROOFS. The invariant of the machine (`State.Inv`): reset meets it, and each update of a step keeps it. -/

namespace Sys2Proof.Machine

/-! ### What a valid configuration gives -/

/-- The ranges of R100 (c) that the invariant leans on. -/
theorem ranges_of_configValid {c : Config} (h : configValid c = true) :
    2 ≤ c.nLevels ∧ c.defaultTempo.toNat ≤ 9 ∧ c.defaultOctave.toNat ≤ maxOctave ∧
      1 ≤ c.tickSamples ∧ c.tickSamples ≤ 2 ^ 32 - 1 := by
  simp only [configValid, Bool.and_eq_true] at h
  obtain ⟨⟨⟨⟨hrange, -⟩, -⟩, -⟩, -⟩ := h
  simp only [parametersInRange, Bool.and_eq_true, decide_eq_true_eq] at hrange
  omega

/-- THR has an entry for each level (R93). -/
theorem length_thr {c : Config} (h : 1 ≤ c.nLevels) : (buildRoms c).thr.length = c.nLevels := by
  simp only [buildRoms, thresholds, List.length_map, List.length_append, List.length_range, List.length_singleton]
  omega

/-- SelectLevel answers an index of THR (R96). -/
theorem selectLevel_lt {thr : List Word} (h : 1 ≤ thr.length) (r : Word) : selectLevel thr r < thr.length := by
  simp only [selectLevel]
  omega

/-- Append overflows at 2^32 - 1 at the latest (R56). -/
theorem outputLimit_le (c : Config) : outputLimit c ≤ 2 ^ 32 - 1 := by
  unfold outputLimit
  split
  · exact le_rfl
  · exact min_le_right _ _

/-- While BUSY the render has not ended (R27, R31). -/
theorem State.Inv.not_done {s : State} (hs : s.Inv) (hb : s.state = .busy) : s.done = false := by
  have := hs.doneLegal
  simpa [hb] using this

/-! ### Reset and START -/

/-- Reset under a valid configuration meets the invariant (R44, R90). -/
theorem powerOn_inv {c : Config} (h : configValid c = true) : (State.powerOn c).Inv := by
  obtain ⟨hlevels, htempo, hoct, htick, -⟩ := ranges_of_configValid h
  exact {
    cfgValid := h
    romBuilt := rfl
    octLegal := hoct
    tempoLegal := htempo
    posLegal := fun _ => le_rfl
    lvlLegal := Nat.lt_of_lt_of_le Nat.zero_lt_two hlevels
    subcntLegal := Nat.zero_le _
    emitLegal := fun _ he => by cases he
    countLegal := Nat.zero_le _
    sinkWritten := fun j hj => absurd hj (Nat.not_lt_zero j)
    errorLegal := by simp [State.powerOn]
    doneLegal := by simp [State.powerOn]
    textWf := rfl
    sinkWf := rfl }

/-- Settles O53: reset under REF, which is valid. -/
theorem resetMeetsInvariant : Obligations.ResetMeetsInvariant := powerOn_inv refConfig_valid

/-- A reset keeps the memories outside the block (R43), so it meets the invariant where they are in canonical form. -/
theorem powerOn_with_memories_inv {c : Config} {s : State} (hc : configValid c = true) (hs : s.Inv) :
    { State.powerOn c with text := s.text, sink := s.sink, inbox := s.inbox, hostData := s.hostData }.Inv :=
  { powerOn_inv hc with
    sinkWritten := fun j hj => absurd hj (Nat.not_lt_zero j)
    textWf := hs.textWf
    sinkWf := hs.sinkWf }

theorem softReset_inv {s : State} (hs : s.Inv) : (softReset s).Inv :=
  { powerOn_with_memories_inv hs.cfgValid hs with romBuilt := hs.romBuilt }

/-- START writes every register but NLEN as reset does, and STATE (R157). -/
theorem startRegisters_inv {s : State} (hs : s.Inv) : (startRegisters s).Inv :=
  { softReset_inv hs with
    posLegal := fun _ => Nat.zero_le _
    emitLegal := fun _ he => by cases he
    errorLegal := by simp
    doneLegal := by simp }

/-! ### The tick -/

/-- Error entry while BUSY (R184). -/
theorem raiseError_inv {s : State} (hs : s.Inv) (hb : s.state = .busy) {code : ErrorCode} (hcode : code ≠ .noError)
    (p : Nat) (byte cmd : Byte) : (raiseError code p byte cmd s).Inv :=
  { hs with
    posLegal := fun h => by cases h
    emitLegal := fun h => by cases h
    errorLegal := by simp [hcode]
    doneLegal := by simp [hs.not_done hb] }

theorem RaisedFrom.inv {s t : State} (h : RaisedFrom s t) (hs : s.Inv) (hb : s.state = .busy) : t.Inv := by
  obtain ⟨code, p, byte, cmd, rfl, -, hcode⟩ := h
  refine raiseError_inv hs hb ?_ p byte cmd
  rcases hcode with ⟨rfl, -⟩ | ⟨rfl, -⟩ <;> simp

/-- CNT is in no range of the invariant. -/
theorem sustain_inv {s : State} (hs : s.Inv) : (sustain s).Inv := { hs with }

/-- The end of a tick that is not terminal: a level of the table, and samples left to emit (R151). -/
theorem finishTick_inv {s : State} (hs : s.Inv) (hb : s.state = .busy) : (finishTick s).Inv := by
  obtain ⟨hlevels, -, -, htick, -⟩ := ranges_of_configValid hs.cfgValid
  have hlen : s.rom.thr.length = s.cfg.nLevels := by rw [hs.romBuilt, length_thr (by omega)]
  have hlevel : (BitVec.ofNat 5 (selectLevel s.rom.thr s.rate)).toNat < s.cfg.nLevels := by
    rw [BitVec.toNat_ofNat, ← hlen]
    exact (Nat.mod_le _ _).trans_lt (selectLevel_lt (by omega) _)
  rw [finishTick_of_not_done s (hs.not_done hb)]
  exact { hs with
    lvlLegal := by
      show (if s.rate = 0 then s.lvl else _).toNat < _
      split
      · exact hs.lvlLegal
      · exact hlevel
    subcntLegal := Nat.zero_le _
    emitLegal := fun _ _ => htick }

/-- The terminal tick: STATE follows DONE (R151, R116). -/
theorem finishTick_end_inv {s : State} (hs : s.Inv) (hb : s.state = .busy) :
    (finishTick { s with done := true, rate := 0 }).Inv := by
  have hcode : s.errCode = .noError := by simpa [hb] using hs.errorLegal
  rw [finishTick_of_done _ rfl]
  exact { hs with
    posLegal := fun h => by cases h
    emitLegal := fun h => by cases h
    errorLegal := by simp [hcode]
    doneLegal := by simp }

/-- A command that completes, END apart, keeps the invariant. -/
theorem Completed.inv {i : Instr} {s u : State} (hc : Completed i s u) (he : exec i s = .next u) (hi : i ≠ .endText)
    (hs : s.Inv) (hb : s.state = .busy) (hp : s.pos.toNat < s.nlen.toNat) : u.Inv := by
  have hpos := (hc.pos_toNat hi hp).2
  rcases exec_writes he with hr | hw
  · have : s.state = .error := hc.state_eq.symm.trans hr.state_eq
    rw [hb] at this
    cases this
  · cases hw with
    | endText => exact absurd rfl hi
    | whitespace => exact { hs with posLegal := fun _ => hpos }
    | octave _ _ _ _ legal => exact { hs with octLegal := legal hs.octLegal, posLegal := fun _ => hpos }
    | tempo _ _ legal => exact { hs with tempoLegal := legal, posLegal := fun _ => hpos }
    | event => exact { hs with posLegal := fun _ => hpos }

/-- The scan keeps the invariant: an induction along its commands (R113). -/
theorem scan_inv {s t : State} (hs : s.Inv) (hb : s.state = .busy) (h : scan s = .next t) : t.Inv := by
  refine scan_induction (P := fun s t => s.Inv → t.Inv) ?pastText ?illegal ?raised ?event ?more hb h hs
  case pastText => exact fun s hb _ hs => raiseError_inv hs hb (by simp) _ _ _
  case illegal => exact fun s c hb _ _ hs => raiseError_inv hs hb (by simp) _ _ _
  case raised => exact fun s i u hb _ _ _ hr hs => hr.inv hs hb
  case event =>
    intro s i u hb hp _ he hc _ hs
    by_cases hi : i = .endText
    · subst hi
      cases he
      exact finishTick_end_inv hs hb
    · exact finishTick_inv (hc.inv he hi hs hb hp) (hc.state_eq.trans hb)
  case more =>
    intro s i u t hb hp _ he hc hends ih hs
    have hi : i ≠ .endText := by rintro rfl; cases hends
    exact ih (hc.inv he hi hs hb hp)

theorem tickStep_inv {s t : State} (hs : s.Inv) (hb : s.state = .busy) (h : tickStep s = .next t) : t.Inv := by
  rw [tickStep_eq] at h
  split at h
  · cases h
    exact finishTick_inv (sustain_inv hs) hb
  · exact scan_inv (sustain_inv hs) hb h

/-! ### The sample steps -/

/-- Append below the limit: the new sample stands at the old OUT_COUNT (R56). -/
theorem appendSample_inv {s : State} (hs : s.Inv) (hf : sinkFull s = false) (v : Sample) : (appendSample v s).Inv := by
  have hne : s.outCount.toNat ≠ outputLimit s.cfg := fun e => by simp [sinkFull_iff.2 e] at hf
  have hle := hs.countLegal
  have hlimit := outputLimit_le s.cfg
  have hcount : (s.outCount + 1).toNat = s.outCount.toNat + 1 := by
    rw [BitVec.toNat_add]
    simp
    omega
  exact { hs with
    countLegal := by
      show (s.outCount + 1).toNat ≤ outputLimit s.cfg
      omega
    sinkWritten := fun j hj => by
      have hj : j < (s.outCount + 1).toNat := hj
      show (Memory.read (Memory.write s.sink s.outCount.toNat v) j).isSome
      rw [Memory.read_write]
      split
      · rfl
      · exact hs.sinkWritten j (by omega)
    sinkWf := Memory.wf_write _ _ _ hs.sinkWf }

/-- PHASE is in no range of the invariant (R154). -/
theorem advancePhase_inv {s : State} (hs : s.Inv) : (advancePhase s).Inv := { hs with }

/-- SUBCNT counts up to TICK_SAMPLES, and there the tick is over (R152, R153). -/
theorem countSample_inv {s : State} (hs : s.Inv) (hb : s.state = .busy) (he : s.rstate = .emit) :
    (countSample s).Inv := by
  obtain ⟨-, -, -, -, htick⟩ := ranges_of_configValid hs.cfgValid
  have hlt := hs.emitLegal hb he
  have hsub : (s.subcnt + 1).toNat = s.subcnt.toNat + 1 := by
    rw [BitVec.toNat_add]
    simp
    omega
  exact { hs with
    subcntLegal := by
      show (s.subcnt + 1).toNat ≤ s.cfg.tickSamples
      omega
    emitLegal := fun _ hemit => by
      have hne : (s.subcnt + 1).toNat ≠ s.cfg.tickSamples := fun e => by
        rw [countSample_rstate, if_pos e] at hemit
        cases hemit
      show (s.subcnt + 1).toNat < s.cfg.tickSamples
      omega }

theorem silentStep_inv {s t : State} (hs : s.Inv) (hb : s.state = .busy) (he : s.rstate = .emit)
    (h : silentStep s = .next t) : t.Inv := by
  rcases silentStep_next h with ⟨-, rfl⟩ | ⟨hf, rfl⟩
  · exact raiseError_inv hs hb (by simp) _ _ _
  · exact countSample_inv (appendSample_inv hs hf _) hb he

theorem voicedStep_inv {s t : State} (hs : s.Inv) (hb : s.state = .busy) (he : s.rstate = .emit)
    (h : voicedStep s = .next t) : t.Inv := by
  obtain ⟨x, -, ⟨-, rfl⟩ | ⟨hf, rfl⟩⟩ := voicedStep_next h
  · exact raiseError_inv hs hb (by simp) _ _ _
  · exact countSample_inv (advancePhase_inv (appendSample_inv hs hf _)) hb he

/-- The block's own step keeps the invariant (R150). -/
theorem blockStep_inv {s t : State} (hs : s.Inv) (h : blockStep s = .next t) : t.Inv := by
  rcases blockStep_next h with ⟨-, rfl⟩ | ⟨hb, -, ht⟩ | ⟨hb, he, -, ht⟩ | ⟨hb, he, -, ht⟩
  · exact hs
  · exact tickStep_inv hs hb ht
  · exact silentStep_inv hs hb he ht
  · exact voicedStep_inv hs hb he ht

/-! ### The host's moves -/

/-- A register write keeps the invariant; NLEN is written only where no render runs (R34 to R36, R40). -/
theorem writeRegister_inv {s : State} (hs : s.Inv) (offset : Nat) (value : Word) :
    (writeRegister offset value s).Inv := by
  rcases writeRegister_cases offset value s with h | h | ⟨-, h⟩ | ⟨hb, h⟩ <;> rw [h]
  · exact hs
  · exact softReset_inv hs
  · exact startRegisters_inv hs
  · exact { hs with posLegal := fun e => absurd e hb }

theorem hostMove_inv {m : HostMove} {s t : State} (hs : s.Inv) (h : hostMove m s = .next t) : t.Inv := by
  rcases hostMove_next h with ⟨-, hy⟩ | ⟨offset, bytes, -, -, rfl⟩ | ⟨offset, bytes, value, -, -, rfl⟩ |
    ⟨index, value, -, -, -, rfl⟩ | ⟨c, -, hc, rfl⟩
  · exact blockStep_inv hs hy
  · exact { hs with }
  · exact writeRegister_inv hs offset value
  · exact { hs with textWf := Memory.wf_write _ _ _ hs.textWf }
  · exact powerOn_with_memories_inv hc hs

/-- The pending moves are in no range of the invariant. -/
theorem withInbox_inv {s : State} (hs : s.Inv) (rest : List HostMove) : { s with inbox := rest }.Inv := { hs with }

/-- Settles O54: the block's own step and each move of the host keep the invariant. -/
theorem stepKeepsInvariant : Obligations.StepKeepsInvariant := by
  intro s t hs h
  rcases step_next h with ⟨-, hblock⟩ | ⟨m, rest, -, hmove⟩
  · exact blockStep_inv hs hblock
  · exact hostMove_inv (withInbox_inv hs rest) hmove

end Sys2Proof.Machine

/-! PROOFS. The register window (10_state.md R34 to R40) and the reset values (R44). -/

namespace Sys2Proof.Machine

/-! ### A host move as a step -/

/-- A pending host move is the next step (R64). -/
theorem step_of_move {s : State} {m : HostMove} {rest : List HostMove} (h : s.inbox = m :: rest) :
    step s = hostMove m { s with inbox := rest } := by
  unfold step takeStep
  rw [h]

theorem windowAccess_iff {offset bytes : Nat} :
    windowAccess offset bytes = true ↔ bytes = 4 ∧ offset % 4 = 0 ∧ offset < 0x40 := by
  simp [windowAccess, and_assoc]

/-- A read the window takes changes the host's data only (R34). -/
theorem step_readRegister {s : State} {offset bytes : Nat} {rest : List HostMove}
    (h : s.inbox = .readRegister offset bytes :: rest) (hw : windowAccess offset bytes = true) :
    step s = .next { s with inbox := rest, hostData := readRegister s offset } := by
  rw [step_of_move h]
  exact if_pos hw

theorem step_writeRegister {s : State} {offset bytes : Nat} {value : Word} {rest : List HostMove}
    (h : s.inbox = .writeRegister offset bytes value :: rest) (hw : windowAccess offset bytes = true) :
    step s = .next (writeRegister offset value { s with inbox := rest }) := by
  rw [step_of_move h]
  exact if_pos hw

/-- An access the window does not take is refused (R40; log 15). -/
theorem step_readRegister_refused {s : State} {offset bytes : Nat} {rest : List HostMove}
    (h : s.inbox = .readRegister offset bytes :: rest) (hw : ¬ windowAccess offset bytes = true) :
    step s = .refused (.hostAccess offset bytes) := by
  rw [step_of_move h]
  exact if_neg hw

theorem step_writeRegister_refused {s : State} {offset bytes : Nat} {value : Word} {rest : List HostMove}
    (h : s.inbox = .writeRegister offset bytes value :: rest) (hw : ¬ windowAccess offset bytes = true) :
    step s = .refused (.hostAccess offset bytes) := by
  rw [step_of_move h]
  exact if_neg hw

/-! ### Reads and writes of the window -/

/-- The reserved offsets read 0 (R40). -/
theorem readRegister_reserved (s : State) {offset : Nat} (h : 0x30 ≤ offset) : readRegister s offset = 0 := by
  unfold readRegister
  split <;> simp at h ⊢

/-- Offsets other than CTRL and NLEN ignore a write (R40). -/
theorem writeRegister_readOnly (s : State) {offset : Nat} (value : Word) (h0 : offset ≠ 0x00) (h8 : offset ≠ 0x08) :
    writeRegister offset value s = s := by
  unfold writeRegister
  split
  · exact absurd rfl h0
  · exact absurd rfl h8
  · rfl

/-- Settles O43: reset clears NLEN, and a write of it is ignored exactly while BUSY. -/
theorem lengthRegister : Obligations.LengthRegister := by
  refine ⟨fun _ => rfl, fun s value rest h => ?_⟩
  rw [step_writeRegister h (by decide)]
  exact ⟨fun hb => congrArg _ (if_pos hb), fun hb => congrArg _ (if_neg hb)⟩

/-- Settles O57: without START and SOFT_RESET a write of CTRL does nothing. -/
theorem controlWriteWithoutCommand : Obligations.ControlWriteWithoutCommand := by
  intro s value rest h hstart hreset
  rw [step_writeRegister h (by decide)]
  show Host.Outcome.next (writeControl value _) = _
  simp only [writeControl, hreset, hstart, Bool.false_eq_true, if_false]

/-- Settles O44: what the window takes, and what it refuses. -/
theorem hostAccessRules : Obligations.HostAccessRules := by
  intro s offset bytes value rest
  have refused : bytes ≠ 4 ∨ offset % 4 ≠ 0 → ¬ windowAccess offset bytes = true := by
    rw [windowAccess_iff]
    omega
  refine ⟨fun h hbytes halign hin => ?_, fun h hbytes halign hin h0 h8 => ?_, fun h hbad => ?_, fun h hbad => ?_⟩
  · exact ⟨_, readRegister_reserved s, step_readRegister h (windowAccess_iff.2 ⟨hbytes, halign, hin⟩)⟩
  · rw [step_writeRegister h (windowAccess_iff.2 ⟨hbytes, halign, hin⟩), writeRegister_readOnly _ _ h0 h8]
  · exact step_readRegister_refused h (refused hbad)
  · exact step_writeRegister_refused h (refused hbad)

/-- Settles O58: outside the sixteen words the window takes no access (log 15). -/
theorem accessOutsideWindowIsRefused : Obligations.AccessOutsideWindowIsRefused := by
  intro s offset value rest _ hout
  have refused : ¬ windowAccess offset 4 = true := by
    rw [windowAccess_iff]
    omega
  exact ⟨fun h => step_readRegister_refused h refused, fun h => step_writeRegister_refused h refused⟩

/-- Settles O45: each line of the register map is in the window, and reads the register it names. -/
theorem registerWindowReads : Obligations.RegisterWindowReads := by
  intro s offset v rest hmap h
  have line : windowAccess offset 4 = true ∧ readRegister s offset = v := by
    revert hmap
    simp only [List.mem_cons, List.not_mem_nil, or_false, or_imp, Prod.mk.injEq]
    and_intros <;> rintro ⟨rfl, rfl⟩ <;> exact ⟨rfl, rfl⟩
  obtain ⟨hw, rfl⟩ := line
  exact step_readRegister h hw

/-! ### The layouts of the packed registers -/

section
variable {m n : Nat} {x : BitVec m} {y : BitVec n}

/-- A bit of the low part of two fields side by side. -/
theorem getLsbD_append_low {i : Nat} (h : i < n) : (x ++ y).getLsbD i = y.getLsbD i :=
  BitVec.getLsbD_append.trans (if_pos h)

/-- A bit of the high part of two fields side by side. -/
theorem getLsbD_append_high {i : Nat} (h : n ≤ i) : (x ++ y).getLsbD i = x.getLsbD (i - n) :=
  BitVec.getLsbD_append.trans (if_neg (Nat.not_lt.2 h))

/-- A field that starts above the low part of two fields side by side. -/
theorem extract_append_high (start len : Nat) (h : n ≤ start) :
    (x ++ y).extractLsb' start len = x.extractLsb' (start - n) len :=
  BitVec.extractLsb'_append_eq_of_le h

/-- The low part of two fields side by side. -/
theorem extract_append_low : (x ++ y).extractLsb' 0 n = y := BitVec.extractLsb'_append_eq_right

end

/-- What stands above the flags of STATUS: ERR_CODE and zeros (R37). -/
theorem statusWord_above_flags (s : State) {start : Nat} (len : Nat) (h : 4 ≤ start) :
    (statusWord s).extractLsb' start len = (0#24 ++ errorBits s.errCode).extractLsb' (start - 4) len :=
  calc (statusWord s).extractLsb' start len
    _ = (0#24 ++ errorBits s.errCode ++ rstateBits s.rstate ++ BitVec.ofBool s.done).extractLsb' (start - 2) len :=
      extract_append_high start len (by omega)
    _ = (0#24 ++ errorBits s.errCode ++ rstateBits s.rstate).extractLsb' (start - 3) len :=
      extract_append_high (start - 2) len (by omega)
    _ = (0#24 ++ errorBits s.errCode).extractLsb' (start - 4) len := extract_append_high (start - 3) len (by omega)

/-- Bit 2 of STATUS (R27, R37). -/
theorem statusWord_done (s : State) : (statusWord s).getLsbD 2 = s.done :=
  calc (statusWord s).getLsbD 2
    _ = (0#24 ++ errorBits s.errCode ++ rstateBits s.rstate ++ BitVec.ofBool s.done).getLsbD 0 :=
      getLsbD_append_high (by decide)
    _ = (BitVec.ofBool s.done).getLsbD 0 := getLsbD_append_low (by decide)
    _ = s.done := by simp

/-- Bit 3 of STATUS (R30, R37). -/
theorem statusWord_rstate (s : State) : (statusWord s).getLsbD 3 = (rstateBits s.rstate).getLsbD 0 :=
  calc (statusWord s).getLsbD 3
    _ = (0#24 ++ errorBits s.errCode ++ rstateBits s.rstate ++ BitVec.ofBool s.done).getLsbD 1 :=
      getLsbD_append_high (by decide)
    _ = (0#24 ++ errorBits s.errCode ++ rstateBits s.rstate).getLsbD 0 := getLsbD_append_high (by decide)
    _ = (rstateBits s.rstate).getLsbD 0 := getLsbD_append_low (by decide)

/-- The word that STATUS reads right after reset. -/
theorem statusWord_powerOn (c : Config) : statusWord (State.powerOn c) = 0 :=
  show (0#24 ++ errorBits .noError ++ rstateBits .needTick ++ BitVec.ofBool false ++ stateBits .idle : Word) = 0 by
    decide

/-- Settles O46: the fields stand in their places, with the encodings of R30 to R32. -/
theorem statusLayout : Obligations.StatusLayout := by
  refine ⟨statusWord_powerOn, fun s => ⟨?state, statusWord_done s, ?rstate, ?errCode, ?zero⟩⟩
  case state =>
    have low : (statusWord s).extractLsb' 0 2 = stateBits s.state := extract_append_low
    rw [low]
    cases s.state <;> rfl
  case rstate =>
    rw [statusWord_rstate]
    cases s.rstate <;> rfl
  case errCode =>
    rw [statusWord_above_flags s 4 le_rfl, extract_append_low]
    cases s.errCode <;> rfl
  case zero =>
    rw [statusWord_above_flags s 24 (by decide)]
    exact BitVec.extractLsb'_append_eq_left

/-- Settles O47: ERR_BYTE is the low part, ERR_CMD next, then zeros. -/
theorem errInfoLayout : Obligations.ErrInfoLayout := by
  refine ⟨fun _ => show (0#16 ++ 0#8 ++ 0#8 : Word) = 0 by decide, fun s => ?_⟩
  have high : ∀ start len, 8 ≤ start →
      (errInfoWord s).extractLsb' start len = (0#16 ++ s.errCmd).extractLsb' (start - 8) len :=
    fun start len h => extract_append_high start len h
  refine ⟨extract_append_low, ?errCmd, ?zero⟩
  case errCmd =>
    rw [high 8 8 le_rfl]
    exact extract_append_low
  case zero =>
    rw [high 16 16 (by decide)]
    exact BitVec.extractLsb'_append_eq_left

/-- What stands above OCT and bit 3 of SEQ_STATE (R39). -/
theorem seqStateWord_above_oct (s : State) {start : Nat} (len : Nat) (h : 4 ≤ start) :
    (seqStateWord s).extractLsb' start len = (0#11 ++ s.lvl ++ 0#8 ++ s.tempo).extractLsb' (start - 4) len :=
  calc (seqStateWord s).extractLsb' start len
    _ = (0#11 ++ s.lvl ++ 0#8 ++ s.tempo ++ 0#1).extractLsb' (start - 3) len :=
      extract_append_high start len (by omega)
    _ = (0#11 ++ s.lvl ++ 0#8 ++ s.tempo).extractLsb' (start - 4) len := extract_append_high (start - 3) len (by omega)

/-- What stands from LVL on in SEQ_STATE (R39). -/
theorem seqStateWord_above_tempo (s : State) {start : Nat} (len : Nat) (h : 16 ≤ start) :
    (seqStateWord s).extractLsb' start len = (0#11 ++ s.lvl).extractLsb' (start - 16) len :=
  calc (seqStateWord s).extractLsb' start len
    _ = (0#11 ++ s.lvl ++ 0#8 ++ s.tempo).extractLsb' (start - 4) len := seqStateWord_above_oct s len (by omega)
    _ = (0#11 ++ s.lvl ++ 0#8).extractLsb' (start - 4 - 4) len := extract_append_high _ len (by omega)
    _ = (0#11 ++ s.lvl).extractLsb' (start - 4 - 4 - 8) len := extract_append_high _ len (by omega)
    _ = (0#11 ++ s.lvl).extractLsb' (start - 16) len := by rw [Nat.sub_sub, Nat.sub_sub]

/-- The word that SEQ_STATE reads right after reset. -/
theorem seqStateWord_powerOn (c : Config) :
    (seqStateWord (State.powerOn c)).toNat = c.defaultOctave.toNat + c.defaultTempo.toNat * 16 := by
  have fields : ∀ (tempo : BitVec 4) (oct : BitVec 3),
      (0#11 ++ 0#5 ++ 0#8 ++ tempo ++ 0#1 ++ oct).toNat = tempo.toNat <<< 1 <<< 3 ||| oct.toNat := by
    intro tempo oct
    simp only [BitVec.toNat_append, BitVec.toNat_ofNat, Nat.zero_mod, Nat.zero_shiftLeft, Nat.zero_or, Nat.or_zero]
  calc (seqStateWord (State.powerOn c)).toNat
    _ = c.defaultTempo.toNat <<< 1 <<< 3 ||| c.defaultOctave.toNat := fields c.defaultTempo c.defaultOctave
    _ = c.defaultTempo.toNat <<< 1 <<< 3 + c.defaultOctave.toNat :=
      (Nat.shiftLeft_add_eq_or_of_lt c.defaultOctave.isLt _).symm
    _ = c.defaultOctave.toNat + c.defaultTempo.toNat * 16 := by
      simp only [Nat.shiftLeft_eq]
      omega

/-- Settles O48: OCT, a zero, TEMPO, zeros, LVL and zeros side by side. -/
theorem seqStateLayout : Obligations.SeqStateLayout := by
  refine ⟨seqStateWord_powerOn, fun s => ⟨extract_append_low, ?bit3, ?tempo, ?gap, ?lvl, ?zero⟩⟩
  case bit3 =>
    calc (seqStateWord s).getLsbD 3
      _ = (0#11 ++ s.lvl ++ 0#8 ++ s.tempo ++ 0#1).getLsbD 0 := getLsbD_append_high le_rfl
      _ = (0#1).getLsbD 0 := getLsbD_append_low Nat.zero_lt_one
      _ = false := rfl
  case tempo =>
    rw [seqStateWord_above_oct s 4 le_rfl]
    exact extract_append_low
  case gap =>
    rw [seqStateWord_above_oct s 8 (by decide)]
    exact (extract_append_high 4 8 le_rfl).trans extract_append_low
  case lvl =>
    rw [seqStateWord_above_tempo s 5 le_rfl]
    exact extract_append_low
  case zero =>
    rw [seqStateWord_above_tempo s 11 (by decide)]
    exact BitVec.extractLsb'_append_eq_left

/-- Settles O52: every register of the reset state as it is written down, and the table SEMI. -/
theorem resetRegisterValues : Obligations.ResetRegisterValues :=
  ⟨rfl, fun _ => by and_intros <;> rfl⟩

end Sys2Proof.Machine

/-! PROOFS. The text buffer (20_memory.md R51, R54, R67): case folding, the form of a decoded command, and the host's
writes of the text. -/

namespace Sys2Proof.Machine

/-! ### Case folding (R54) -/

theorem isFolded_iff {b : Byte} : isFolded b = true ↔ b.toNat < 0x61 ∨ 0x7A < b.toNat := by
  simp [isFolded]

theorem fold_of_isFolded {b : Byte} (h : isFolded b = true) : fold b = b := if_pos h

/-- A lowercase letter folds to the byte 0x20 below it. -/
theorem toNat_fold_of_lowercase {b : Byte} (hlo : 0x61 ≤ b.toNat) (hhi : b.toNat ≤ 0x7A) :
    (fold b).toNat = b.toNat - 0x20 := by
  have hb : ¬ isFolded b = true := by
    rw [isFolded_iff]
    omega
  have hsub : fold b = b - 0x20 := if_neg hb
  rw [hsub]
  bv_omega

/-- Settles O5: the two branches of `fold`. -/
theorem foldMapsLowercaseOnly : Obligations.FoldMapsLowercaseOnly :=
  fun _ => ⟨toNat_fold_of_lowercase, fun h => fold_of_isFolded (isFolded_iff.2 h)⟩

/-- Folding leaves no lowercase letter: an uppercase letter is none. -/
theorem isFolded_fold (b : Byte) : isFolded (fold b) = true := by
  by_cases h : isFolded b = true
  · rwa [fold_of_isFolded h]
  · rw [isFolded_iff] at h
    have := toNat_fold_of_lowercase (b := b) (by omega) (by omega)
    rw [isFolded_iff]
    omega

/-! ### The form of a decoded command (R54; 30_encoding.md R73) -/

theorem isFolded_operandByte (operands : List Byte) (k : Nat) : isFolded (operandByte operands k) = true :=
  isFolded_fold _

/-- The lookahead leaves no modifier byte unread (R73). -/
theorem isModifierByte_of_modifierOf_natural {b : Byte} (h : modifierOf b = .natural) : isModifierByte b = false := by
  unfold modifierOf at h
  split_ifs at h with hhash hplus hminus
  simp only [isModifierByte, Bool.or_eq_false_iff, beq_eq_false_iff_ne]
  exact ⟨⟨hhash, hplus⟩, hminus⟩

/-- What the decoder answers for a note letter is well-formed: without a modifier the digit is the byte that the
lookahead left unread. -/
theorem decodeNote_wellFormed {note : Modifier → Byte → Instr}
    (hnote : ∀ m digit, (note m digit).wellFormed = noteWellFormed m digit) (operands : List Byte) :
    (decodeNote note operands).wellFormed = true := by
  rw [decodeNote, hnote, noteWellFormed, isFolded_operandByte, Bool.true_and]
  cases hm : modifierOf (operandByte operands 0) with
  | natural =>
    show (false || !isModifierByte (operandByte operands 0)) = true
    rw [isModifierByte_of_modifierOf_natural hm]
    rfl
  | hash => rfl
  | plus => rfl
  | minus => rfl

/-- Each line of the opcode map answers a well-formed command (R75). -/
theorem decodeCommand_wellFormed {c : Byte} {operands : List Byte} {i : Instr}
    (h : decodeCommand c operands = .ok i) : i.wellFormed = true := by
  have digit := isFolded_operandByte operands 0
  have note {n : Modifier → Byte → Instr} (hn : ∀ m d, (n m d).wellFormed = noteWellFormed m d) :=
    decodeNote_wellFormed hn operands
  unfold decodeCommand at h
  split at h <;> cases h
  case h_1 | h_2 | h_3 | h_4 | h_5 | h_6 | h_7 | h_8 | h_9 => rfl
  case h_10 | h_11 | h_12 => exact digit
  case h_13 | h_14 | h_15 | h_16 | h_17 | h_18 | h_19 => exact note fun _ _ => rfl

/-- Settles O2: the command is the opcode map's answer for the first byte, folded. -/
theorem decodedCommandIsWellFormed : Obligations.DecodedCommandIsWellFormed := by
  intro bytes i h
  cases bytes with
  | nil => cases h
  | cons c operands => exact decodeCommand_wellFormed h

/-! ### Host writes of the text (R51, R67; log 16) -/

theorem writeText_refused {s : State} {index : Word} (value : Byte) (hb : s.state = .busy)
    (h : index.toNat < s.nlen.toNat) : writeText index value s = .refused (.textBusy index) :=
  if_pos ⟨hb, h⟩

theorem writeText_next {s : State} {index : Word} (value : Byte) (h : s.state ≠ .busy ∨ s.nlen.toNat ≤ index.toNat)
    (hi : index.toNat ≠ 2 ^ 32 - 1) :
    writeText index value s = .next { s with text := Memory.write s.text index.toNat value } := by
  have hfree : ¬ (s.state = .busy ∧ index.toNat < s.nlen.toNat) := by
    rintro ⟨hb, hlt⟩
    exact h.elim (absurd hb) (Nat.not_le_of_lt hlt)
  exact (if_neg hfree).trans (if_neg hi)

/-- No NLEN exceeds 2^32 - 1, so the last index is never refused. -/
theorem writeText_last {s : State} {index : Word} (value : Byte) (hi : index.toNat = 2 ^ 32 - 1) :
    writeText index value s = .fault .noTextAddress := by
  have hfree : ¬ (s.state = .busy ∧ index.toNat < s.nlen.toNat) := by
    have := s.nlen.isLt
    omega
  exact (if_neg hfree).trans (if_pos hi)

/-- Settles O50: a host write of the text is the next step, and a read after it sees the one byte written. -/
theorem textWrites : Obligations.TextWrites := by
  intro s index value rest h
  have hstep : step s = writeText index value { s with inbox := rest } := step_of_move h
  rw [hstep]
  refine ⟨fun hb hlt => writeText_refused value hb hlt, fun hfree hi => ?_, fun hi => writeText_last value hi⟩
  exact ⟨Memory.write s.text index.toNat value, Memory.read_write_same _ _ _,
    fun a ha => Memory.read_write_other _ _ a _ ha, writeText_next value hfree hi.ne⟩

end Sys2Proof.Machine

/-! PROOFS. What the block's own step leaves unchanged (20_memory.md R51, R64): one inversion lemma, and the frame of
the program and of the samples from it. -/

namespace Sys2Proof.Machine

/-! ### What a step of the block writes -/

/-- The text, NLEN, the parameters and the tables are as before. -/
structure KeepsProgram (s t : State) : Prop where
  text : t.text = s.text
  nlen : t.nlen = s.nlen
  cfg : t.cfg = s.cfg
  rom : t.rom = s.rom

/-- The program, the sink and OUT_COUNT are as before: every step of the block but the append of a sample. -/
structure KeepsMemory (s t : State) : Prop extends KeepsProgram s t where
  sink : t.sink = s.sink
  outCount : t.outCount = s.outCount

/-- One sample is appended where the sink has room (R56). -/
structure Appends (v : Sample) (s t : State) : Prop extends KeepsProgram s t where
  room : sinkFull s = false
  sink : t.sink = Memory.write s.sink s.outCount.toNat v
  outCount : t.outCount = s.outCount + 1

theorem KeepsMemory.refl (s : State) : KeepsMemory s s := ⟨⟨rfl, rfl, rfl, rfl⟩, rfl, rfl⟩

theorem KeepsMemory.trans {s t u : State} (h : KeepsMemory s t) (k : KeepsMemory t u) : KeepsMemory s u where
  text := k.text.trans h.text
  nlen := k.nlen.trans h.nlen
  cfg := k.cfg.trans h.cfg
  rom := k.rom.trans h.rom
  sink := k.sink.trans h.sink
  outCount := k.outCount.trans h.outCount

theorem raiseError_keepsMemory (code : ErrorCode) (p : Nat) (byte cmd : Byte) (s : State) :
    KeepsMemory s (raiseError code p byte cmd s) := ⟨⟨rfl, rfl, rfl, rfl⟩, rfl, rfl⟩

theorem RaisedFrom.keepsMemory {s t : State} (h : RaisedFrom s t) : KeepsMemory s t := by
  obtain ⟨code, p, byte, cmd, rfl, -⟩ := h
  exact raiseError_keepsMemory code p byte cmd s

theorem Completed.keepsMemory {i : Instr} {s t : State} (h : Completed i s t) : KeepsMemory s t := by
  rw [h.same]
  exact ⟨⟨rfl, rfl, rfl, rfl⟩, rfl, rfl⟩

theorem sustain_keepsMemory (s : State) : KeepsMemory s (sustain s) := ⟨⟨rfl, rfl, rfl, rfl⟩, rfl, rfl⟩

theorem finishTick_keepsMemory (s : State) : KeepsMemory s (finishTick s) where
  text := finishTick_text s
  nlen := finishTick_nlen s
  cfg := finishTick_cfg s
  rom := finishTick_rom s
  sink := finishTick_sink s
  outCount := finishTick_outCount s

/-- The scan writes no memory: an induction along its commands (R113). -/
theorem scan_keepsMemory {s t : State} (hb : s.state = .busy) (h : scan s = .next t) : KeepsMemory s t := by
  refine scan_induction (P := KeepsMemory) ?pastText ?illegal ?raised ?event ?more hb h
  case pastText => exact fun s _ _ => raiseError_keepsMemory _ _ _ _ s
  case illegal => exact fun s _ _ _ _ => raiseError_keepsMemory _ _ _ _ s
  case raised => exact fun _ _ _ _ _ _ _ hr => hr.keepsMemory
  case event => exact fun _ _ u _ _ _ _ hc _ => hc.keepsMemory.trans (finishTick_keepsMemory u)
  case more => exact fun _ _ _ _ _ _ _ _ hc _ ih => hc.keepsMemory.trans ih

theorem tickStep_keepsMemory {s t : State} (hb : s.state = .busy) (h : tickStep s = .next t) : KeepsMemory s t := by
  refine (sustain_keepsMemory s).trans ?_
  rw [tickStep_eq] at h
  split at h
  · cases h
    exact finishTick_keepsMemory _
  · exact scan_keepsMemory hb h

/-- A sample step overflows or appends its one sample (R152, R153). -/
theorem silentStep_writes {s t : State} (h : silentStep s = .next t) : KeepsMemory s t ∨ ∃ v, Appends v s t := by
  rcases silentStep_next h with ⟨-, rfl⟩ | ⟨hroom, rfl⟩
  · exact .inl (raiseError_keepsMemory _ _ _ _ s)
  · exact .inr ⟨0, ⟨rfl, rfl, rfl, rfl⟩, hroom, rfl, rfl⟩

theorem voicedStep_writes {s t : State} (h : voicedStep s = .next t) : KeepsMemory s t ∨ ∃ v, Appends v s t := by
  obtain ⟨x, -, ⟨-, rfl⟩ | ⟨hroom, rfl⟩⟩ := voicedStep_next h
  · exact .inl (raiseError_keepsMemory _ _ _ _ s)
  · exact .inr ⟨quantize x, ⟨rfl, rfl, rfl, rfl⟩, hroom, rfl, rfl⟩

/-- The block's step writes no memory, or appends one sample (R150). -/
theorem blockStep_writes {s t : State} (h : blockStep s = .next t) : KeepsMemory s t ∨ ∃ v, Appends v s t := by
  rcases blockStep_next h with ⟨-, rfl⟩ | ⟨hb, -, ht⟩ | ⟨-, -, -, ht⟩ | ⟨-, -, -, ht⟩
  · exact .inl (.refl _)
  · exact .inl (tickStep_keepsMemory hb ht)
  · exact silentStep_writes ht
  · exact voicedStep_writes ht

/-! ### The frames -/

theorem blockStep_keepsProgram {s t : State} (h : blockStep s = .next t) : KeepsProgram s t := by
  rcases blockStep_writes h with hkeep | ⟨v, happend⟩
  · exact hkeep.toKeepsProgram
  · exact happend.toKeepsProgram

/-- Settles O38: whatever the block's step does, the program is as before. -/
theorem blockNeverWritesItsProgram : Obligations.BlockNeverWritesItsProgram := by
  intro s t hinbox h
  rw [step_of_noMove hinbox] at h
  obtain ⟨htext, hnlen, hcfg, hrom⟩ := blockStep_keepsProgram h
  exact ⟨fun a => congrArg (Memory.read · a) htext, hnlen, hcfg, hrom⟩

/-- Below the limit OUT_COUNT does not wrap: the limit fits 32 bits (R56). -/
theorem outCount_succ_toNat {s : State} (hle : s.outCount.toNat ≤ outputLimit s.cfg) (hroom : sinkFull s = false) :
    (s.outCount + 1).toNat = s.outCount.toNat + 1 := by
  have hne : s.outCount.toNat ≠ outputLimit s.cfg := fun e => by simp [sinkFull_iff.2 e] at hroom
  have hlimit := outputLimit_le s.cfg
  bv_omega

/-- Settles O37: the one sample that a step can append stands at the old OUT_COUNT, above every earlier index. -/
theorem appendedSamplesAreFinal : Obligations.AppendedSamplesAreFinal := by
  intro s t hs hinbox h
  rw [step_of_noMove hinbox] at h
  rcases blockStep_writes h with hkeep | ⟨v, happend⟩
  · rw [hkeep.outCount, hkeep.sink]
    exact ⟨le_rfl, fun _ _ => rfl⟩
  · rw [happend.outCount, happend.sink, outCount_succ_toNat hs.countLegal happend.room]
    exact ⟨Nat.le_succ _, fun j hj => Memory.read_write_other _ _ j v hj.ne⟩

end Sys2Proof.Machine

/-! PROOFS. The encoder and the decoder of the commands (30_encoding.md R70 to R78): one inversion lemma of the opcode
map, and the two directions of the round trip. -/

namespace Sys2Proof.Machine

/-! ### The opcode map (R75, R76) -/

/-- The line of a note letter. -/
theorem decodeCommand_letterByte (l : Letter) (operands : List Byte) :
    decodeCommand (letterByte l) operands = .ok (decodeNote (noteInstr l) operands) := by
  cases l <;> rfl

theorem fold_letterByte (l : Letter) : fold (letterByte l) = letterByte l := by
  cases l <;> rfl

theorem encode_noteInstr (l : Letter) (m : Modifier) (digit : Byte) :
    encode (noteInstr l m digit) = letterByte l :: (encodeModifier m ++ [digit]) := by
  cases l <;> rfl

theorem wellFormed_noteInstr (l : Letter) (m : Modifier) (digit : Byte) :
    (noteInstr l m digit).wellFormed = noteWellFormed m digit := by
  cases l <;> rfl

/-- The digit byte and the modifier's, after the letter (R78). -/
theorem length_noteInstr (l : Letter) (m : Modifier) (digit : Byte) :
    (noteInstr l m digit).length = 1 + modifierLength m + 1 := by
  cases l <;> cases m <;> rfl

/-- A line of the opcode map is a command of one byte, a command and its digit byte, or a note (R71, R75). -/
theorem decodeCommand_ok {c : Byte} {operands : List Byte} {i : Instr} (h : decodeCommand c operands = .ok i) :
    (i.length = 1 ∧ encode i = [c]) ∨ (i.length = 2 ∧ encode i = [c, operandByte operands 0]) ∨
      ∃ l, c = letterByte l ∧ i = decodeNote (noteInstr l) operands := by
  unfold decodeCommand at h
  split at h <;> cases h
  case h_1 | h_2 | h_3 | h_4 | h_5 | h_6 | h_7 | h_8 | h_9 => exact .inl ⟨rfl, rfl⟩
  case h_10 | h_11 | h_12 => exact .inr (.inl ⟨rfl, rfl⟩)
  case h_13 => exact .inr (.inr ⟨.c, rfl, rfl⟩)
  case h_14 => exact .inr (.inr ⟨.d, rfl, rfl⟩)
  case h_15 => exact .inr (.inr ⟨.e, rfl, rfl⟩)
  case h_16 => exact .inr (.inr ⟨.f, rfl, rfl⟩)
  case h_17 => exact .inr (.inr ⟨.g, rfl, rfl⟩)
  case h_18 => exact .inr (.inr ⟨.a, rfl, rfl⟩)
  case h_19 => exact .inr (.inr ⟨.b, rfl, rfl⟩)

/-- No line of the opcode map has a byte of the illegal space (R76). -/
theorem decodeCommand_of_illegal {c : Byte} (h : inIllegalSpace c = true) (operands : List Byte) :
    decodeCommand c operands = .error (.illegal c) := by
  unfold decodeCommand
  split
  case h_20 => rfl
  all_goals cases h

/-- Every byte outside the illegal space has a line of the opcode map (R77). -/
theorem decodeCommand_of_legal {c : Byte} (h : inIllegalSpace c = false) (operands : List Byte) :
    ∃ i, decodeCommand c operands = .ok i := by
  unfold decodeCommand
  split
  case h_20 =>
    simp only [imp_false, ← BitVec.toNat_inj, BitVec.toNat_ofNat] at *
    simp only [inIllegalSpace, Bool.or_eq_false_iff, Bool.and_eq_false_imp, decide_eq_true_eq, decide_eq_false_iff_not,
      beq_eq_false_iff_ne] at h
    omega
  all_goals exact ⟨_, rfl⟩

/-- Settles O4: the opcode map's answer for the first byte, folded. -/
theorem illegalSpaceIsRejected : Obligations.IllegalSpaceIsRejected :=
  fun _ operands => ⟨fun h => decodeCommand_of_illegal h operands, fun h => decodeCommand_of_legal h operands⟩

/-- Settles O6: each word, evaluated. -/
theorem writtenWordsDecode : Obligations.WrittenWordsDecode := by
  unfold Obligations.WrittenWordsDecode
  and_intros <;> rfl

/-! ### The operands of a note (R71, R73) -/

theorem length_encodeModifier (m : Modifier) : (encodeModifier m).length = modifierLength m := by
  cases m <;> rfl

/-- The lookahead takes no other byte than the three modifier bytes. -/
theorem modifierOf_of_not_isModifierByte {b : Byte} (h : isModifierByte b = false) : modifierOf b = .natural := by
  simp only [isModifierByte, Bool.or_eq_false_iff, beq_eq_false_iff_ne] at h
  obtain ⟨⟨hhash, hplus⟩, hminus⟩ := h
  rw [modifierOf, if_neg hhash, if_neg hplus, if_neg hminus]

/-- The byte of a modifier is the one the lookahead took. -/
theorem encodeModifier_modifierOf (b : Byte) (h : modifierOf b ≠ .natural) : encodeModifier (modifierOf b) = [b] := by
  unfold modifierOf at h ⊢
  split_ifs at h ⊢ with hhash hplus hminus
  · rw [hhash]; rfl
  · rw [hplus]; rfl
  · rw [hminus]; rfl
  · exact absurd rfl h

/-- The decoder reads the operands back: where a note has no modifier, its digit is no modifier byte, so the lookahead
leaves it. -/
theorem decodeNote_encode {m : Modifier} {digit : Byte} (h : noteWellFormed m digit = true)
    (note : Modifier → Byte → Instr) (rest : List Byte) :
    decodeNote note (encodeModifier m ++ digit :: rest) = note m digit := by
  rw [noteWellFormed, Bool.and_eq_true] at h
  obtain ⟨hfolded, hmodifier⟩ := h
  have hdigit : fold digit = digit := fold_of_isFolded hfolded
  cases m with
  | natural =>
    have hb : isModifierByte digit = false := by simpa using hmodifier
    have hfirst : operandByte (digit :: rest) 0 = digit := hdigit
    rw [decodeNote, encodeModifier, List.nil_append, hfirst, modifierOf_of_not_isModifierByte hb]
    exact congrArg (note .natural) hfirst
  | hash => exact congrArg (note .hash) hdigit
  | plus => exact congrArg (note .plus) hdigit
  | minus => exact congrArg (note .minus) hdigit

/-- The modifier and the digit that the decoder reads are the folded bytes it takes. -/
theorem encode_decodedOperands {m : Modifier} {operands : List Byte} (hm : modifierOf (operandByte operands 0) = m)
    (h : 1 + modifierLength m ≤ operands.length) :
    encodeModifier m ++ [operandByte operands (modifierLength m)] =
      (operands.take (1 + modifierLength m)).map fold := by
  obtain ⟨b, rest, rfl⟩ : ∃ b rest, operands = b :: rest := List.exists_cons_of_length_pos (by omega)
  by_cases hn : m = .natural
  · subst hn
    rfl
  · have hfirst : encodeModifier m = [fold b] := by
      rw [← hm] at hn ⊢
      exact encodeModifier_modifierOf _ hn
    have hone : modifierLength m = 1 := by rw [← length_encodeModifier, hfirst]; rfl
    rw [hone] at h ⊢
    obtain ⟨d, rest, rfl⟩ : ∃ d rest', rest = d :: rest' :=
      List.exists_cons_of_length_pos (Nat.le_of_succ_le_succ h)
    rw [hfirst]
    rfl

/-! ### The round trip -/

theorem decode_encode_note {l : Letter} {m : Modifier} {digit : Byte}
    (h : (noteInstr l m digit).wellFormed = true) (rest : List Byte) :
    decode (encode (noteInstr l m digit) ++ rest) = .ok (noteInstr l m digit) := by
  rw [wellFormed_noteInstr] at h
  rw [encode_noteInstr, List.cons_append, List.append_assoc, List.singleton_append, decode, fold_letterByte,
    decodeCommand_letterByte, decodeNote_encode h]

/-- Settles O1: each command's first byte selects its own line, and its operand bytes are folded already. -/
theorem decodeInvertsEncode : Obligations.DecodeInvertsEncode := by
  intro i rest h
  have digit {b : Byte} (command : Byte → Instr) (hb : isFolded b = true) :
      Except.ok (ε := Reject) (command (fold b)) = .ok (command b) := by rw [fold_of_isFolded hb]
  cases i with
  | endText | wsHt | wsLf | wsVt | wsFf | wsCr | wsSp | octUp | octDn => rfl
  | oct b => exact digit .oct h
  | tempo b => exact digit .tempo h
  | rest b => exact digit .rest h
  | noteC m b => exact decode_encode_note (l := .c) h rest
  | noteD m b => exact decode_encode_note (l := .d) h rest
  | noteE m b => exact decode_encode_note (l := .e) h rest
  | noteF m b => exact decode_encode_note (l := .f) h rest
  | noteG m b => exact decode_encode_note (l := .g) h rest
  | noteA m b => exact decode_encode_note (l := .a) h rest
  | noteB m b => exact decode_encode_note (l := .b) h rest

/-- Settles O3: the encoding is the folded command byte, then the folded operand bytes that the decoder took. -/
theorem encodeInvertsDecode : Obligations.EncodeInvertsDecode := by
  intro bytes i h hlen
  cases bytes with
  | nil => cases h
  | cons c operands =>
    rcases decodeCommand_ok h with ⟨hone, henc⟩ | ⟨htwo, henc⟩ | ⟨l, hc, rfl⟩
    · rw [henc, hone]
      rfl
    · rw [htwo] at hlen ⊢
      obtain ⟨b, rest, rfl⟩ : ∃ b rest, operands = b :: rest :=
        List.exists_cons_of_length_pos (Nat.le_of_succ_le_succ hlen)
      rw [henc]
      rfl
    · rw [decodeNote, length_noteInstr] at hlen ⊢
      rw [encode_noteInstr, encode_decodedOperands rfl (Nat.le_of_succ_le_succ hlen), List.take_succ_cons,
        List.map_cons, hc]

end Sys2Proof.Machine

/-! PROOFS. Progress: from a state of the invariant with a written text, no step of the block ends in a fault or a
refusal (30_encoding.md R77, 42_renderer.md R162). The table lookups come first, then the commands, the scan and the
samples. -/

namespace Sys2Proof.Machine

/-! ### What a valid configuration gives the lookups (R12, R41, R94, R99, R100) -/

theorem parametersInRange_of_configValid {c : Config} (h : configValid c = true) : parametersInRange c = true := by
  simp only [configValid, Bool.and_eq_true] at h
  obtain ⟨⟨⟨⟨hrange, -⟩, -⟩, -⟩, -⟩ := h
  exact hrange

/-- The duration table has an entry for each digit, and ten times an entry fits CNT (R12). -/
theorem lenTable_of_configValid {c : Config} (h : configValid c = true) :
    c.len.length = 10 ∧ ∀ l ∈ c.len, l.toNat * 10 ≤ 2 ^ 32 - 1 := by
  have hrange := parametersInRange_of_configValid h
  simp only [parametersInRange, Bool.and_eq_true, decide_eq_true_eq, beq_iff_eq, List.all_eq_true] at hrange
  obtain ⟨⟨⟨⟨⟨⟨-, hlength⟩, hentries⟩, -⟩, -⟩, -⟩, -⟩ := hrange
  exact ⟨hlength, fun l hl => (hentries l hl).2⟩

theorem tableBits_of_configValid {c : Config} (h : configValid c = true) : c.tableBits ≤ 31 := by
  have hrange := parametersInRange_of_configValid h
  simp only [parametersInRange, Bool.and_eq_true, decide_eq_true_eq] at hrange
  omega

/-- WT_ROM has N_LEVELS tables of TABLE_SIZE entries in [-1, 1] (R94). -/
theorem waveTables_of_configValid {c : Config} (h : configValid c = true) :
    c.wtRom.length = c.nLevels ∧ ∀ t ∈ c.wtRom, t.length = tableSize c ∧ ∀ e ∈ t, f32InUnit e = true := by
  simp only [configValid, Bool.and_eq_true] at h
  obtain ⟨⟨-, htables⟩, -⟩ := h
  simp only [waveTablesOk, waveTableOk, Bool.and_eq_true, beq_iff_eq, List.all_eq_true] at htables
  obtain ⟨hlevels, htables⟩ := htables
  refine ⟨hlevels, fun t ht => ?_⟩
  obtain ⟨⟨⟨hsize, hunit⟩, -⟩, -⟩ := htables t ht
  exact ⟨hsize, hunit⟩

/-- NOTE_RATE has an entry for each note (R99). -/
theorem length_noteRate (c : Config) : (buildRoms c).noteRate.length = noteCount := by
  simp [buildRoms, noteRates]

/-- A legal digit has an entry in LEN (R12, R72). -/
theorem len_of_digit {c : Config} (h : configValid c = true) {d : Nat} (hd : d ≤ 9) : ∃ l, c.len[d]? = some l := by
  have hlength := (lenTable_of_configValid h).1
  exact ⟨_, List.getElem?_eq_getElem (by omega)⟩

/-- `Dur` fits CNT (R12, R23, R115). -/
theorem duration_lt {s : State} (hs : s.Inv) {d : Nat} {l : Word} (h : s.cfg.len[d]? = some l) :
    duration s l < 2 ^ 32 := by
  have hten := (lenTable_of_configValid hs.cfgValid).2 l (List.mem_of_getElem? h)
  have htempo : s.tempo.toNat + 1 ≤ 10 := Nat.succ_le_succ hs.tempoLegal
  calc duration s l ≤ l.toNat * 10 := Nat.mul_le_mul_left _ htempo
    _ < 2 ^ 32 := by omega

/-! ### The note index (R122) -/

/-- The clamp moves an index that is off by one back into NOTE_RATE. -/
theorem nudge_bounds {idx : Int} (hlo : -1 ≤ idx) (hhi : idx ≤ maxNote + 1) :
    0 ≤ nudge idx ∧ nudge idx ≤ maxNote := by
  have hmax : (maxNote : Int) = 59 := rfl
  unfold nudge
  split_ifs <;> omega

theorem semitone_le (l : Letter) : semitone l ≤ 11 := by cases l <;> decide

theorem modifierDelta_bounds (m : Modifier) : -1 ≤ modifierDelta m ∧ modifierDelta m ≤ 1 := by cases m <;> decide

/-- The notes of the legal octaves lie in NOTE_RATE. -/
theorem noteIndex_bounds (l : Letter) (m : Modifier) {o : Nat} (ho : o ≤ maxOctave) :
    0 ≤ noteIndex l m o ∧ noteIndex l m o ≤ maxNote := by
  have hsemi := semitone_le l
  obtain ⟨hlo, hhi⟩ := modifierDelta_bounds m
  have hmax : (maxNote : Int) = 59 := rfl
  have hoct : o ≤ 4 := ho
  apply nudge_bounds <;> simp only [notesPerOctave] <;> omega

/-- The note index of a legal octave has an entry in NOTE_RATE (R99). -/
theorem noteRate_of_octave {s : State} (hs : s.Inv) (l : Letter) (m : Modifier) :
    ∃ rate, s.rom.noteRate[(noteIndex l m s.oct.toNat).toNat]? = some rate := by
  have hlength : s.rom.noteRate.length = 60 := by rw [hs.romBuilt, length_noteRate]; rfl
  have hmax : (maxNote : Int) = 59 := rfl
  have hindex := noteIndex_bounds l m hs.octLegal
  exact ⟨_, List.getElem?_eq_getElem (by omega)⟩

/-! ### The commands -/

/-- The end of an event with a legal digit (R122, R124). -/
theorem playEvent_total {s : State} (hs : s.Inv) {d : Nat} (hd : d ≤ 9) (rate : Word) (n : Nat) :
    ∃ t, playEvent d rate n s = .next t := by
  obtain ⟨l, hl⟩ := len_of_digit hs.cfgValid hd
  exact ⟨_, playEvent_next.2 ⟨l, hl, duration_lt hs hl, rfl⟩⟩

theorem noteEvent_total {s : State} (hs : s.Inv) (l : Letter) (m : Modifier) (digit : Byte) :
    ∃ t, noteEvent l m digit s = .next t := by
  unfold noteEvent
  split
  · exact ⟨_, rfl⟩
  · split
    · exact ⟨_, rfl⟩
    · next d hd =>
      obtain ⟨-, hdigit, rfl⟩ := readDigit_ok.1 hd
      obtain ⟨rate, hrate⟩ := noteRate_of_octave hs l m
      simp only [hrate]
      exact playEvent_total hs (digitValue_le hdigit) _ _

/-- Every command answers a next state: an error is one (R114, R184). -/
theorem exec_total {s : State} (hs : s.Inv) (i : Instr) : ∃ t, exec i s = .next t := by
  cases i with
  | endText | wsHt | wsLf | wsVt | wsFf | wsCr | wsSp | octUp | octDn => exact ⟨_, rfl⟩
  | oct digit =>
    simp only [exec, execOct]
    split <;> exact ⟨_, rfl⟩
  | tempo digit =>
    simp only [exec, execTempo]
    split <;> exact ⟨_, rfl⟩
  | rest digit =>
    simp only [exec, execRest]
    split
    · exact ⟨_, rfl⟩
    · next d hd =>
      obtain ⟨-, hdigit, rfl⟩ := readDigit_ok.1 hd
      exact playEvent_total hs (digitValue_le hdigit) _ _
  | noteC m digit => exact noteEvent_total hs .c m digit
  | noteD m digit => exact noteEvent_total hs .d m digit
  | noteE m digit => exact noteEvent_total hs .e m digit
  | noteF m digit => exact noteEvent_total hs .f m digit
  | noteG m digit => exact noteEvent_total hs .g m digit
  | noteA m digit => exact noteEvent_total hs .a m digit
  | noteB m digit => exact noteEvent_total hs .b m digit

/-! ### The scan (R113) -/

theorem State.TextWritten.bytesWritten {s : State} (hw : s.TextWritten) (n : Nat) : bytesWritten s n = true := by
  induction n with
  | zero => rfl
  | succ n ih =>
    rw [Machine.bytesWritten, ih, Bool.true_and, Bool.or_eq_true, pastEnd_eq_true]
    exact (Nat.lt_or_ge _ _).symm.imp_right (hw _)

/-- A text is as written after a step as before it, where the step keeps the text and NLEN. -/
theorem State.TextWritten.of_keeps {s t : State} (hw : s.TextWritten) (h : KeepsProgram s t) : t.TextWritten := by
  intro a ha
  rw [h.nlen] at ha
  rw [textByte, h.text]
  exact hw a ha

/-- The decoder is total on the bytes at POS: it rejects a command byte by name or answers a command (R77). -/
theorem decode_commandBytes (s : State) :
    (∃ c, decode (commandBytes s) = .error (.illegal c)) ∨ ∃ i, decode (commandBytes s) = .ok i := by
  obtain ⟨hillegal, hlegal⟩ := illegalSpaceIsRejected ((textByte s s.pos.toNat).getD 0) (commandBytes s).tail
  cases hc : inIllegalSpace (fold ((textByte s s.pos.toNat).getD 0)) with
  | true => exact .inl ⟨_, hillegal hc⟩
  | false => exact .inr (hlegal hc)

/-- One iteration of the scan stops only where the iterations after it do. -/
theorem scanCommand_total {next : State → Host.Outcome State Fault Refusal} {s : State} (hs : s.Inv)
    (hw : s.TextWritten)
    (hnext : ∀ i u, s.pos.toNat < s.nlen.toNat → exec i s = .next u → u.state ≠ .error →
      i.endsScan = false → ∃ t, next u = .next t) :
    ∃ t, scanCommand next s = .next t := by
  unfold scanCommand
  split
  · exact ⟨_, rfl⟩
  · next hp =>
    rw [pastEnd_eq_true, not_le] at hp
    rcases decode_commandBytes s with ⟨c, hc⟩ | ⟨i, hi⟩
    · simp only [hc, hw.bytesWritten, if_true]
      exact ⟨_, rfl⟩
    · obtain ⟨u, hu⟩ := exec_total hs i
      simp only [hi, hw.bytesWritten, if_true, hu, afterCommand]
      split_ifs with herror hends
      · exact ⟨_, rfl⟩
      · exact ⟨_, rfl⟩
      · exact hnext i u hp hu herror (by simpa using hends)

/-- The scan answers a next state: an induction on the bytes left (R113). -/
theorem scan_total {s : State} (hs : s.Inv) (hb : s.state = .busy) (hw : s.TextWritten) : ∃ t, scan s = .next t := by
  generalize hn : s.nlen.toNat - s.pos.toNat = n
  induction n using Nat.strong_induction_on generalizing s with
  | _ n ih =>
    rw [scan_unfold]
    refine scanCommand_total hs hw fun i u hp he hu hends => ?_
    rcases exec_cases he with hr | hc
    · exact absurd hr.state_eq hu
    · have hi : i ≠ .endText := by rintro rfl; cases hends
      exact ih _ (hn ▸ hc.measure_lt hends hp) (hc.inv he hi hs hb hp) (hc.state_eq.trans hb)
        (hw.of_keeps hc.keepsMemory.toKeepsProgram) rfl

theorem tickStep_total {s : State} (hs : s.Inv) (hb : s.state = .busy) (hw : s.TextWritten) :
    ∃ t, tickStep s = .next t := by
  rw [tickStep_eq]
  split
  · exact ⟨_, rfl⟩
  · exact scan_total (sustain_inv hs) hb hw

/-! ### The samples (R98, R152, R153) -/

/-- The index of a phase is inside the table (R8, R98). -/
theorem tableIndex_lt {c : Config} (h : configValid c = true) (p : Word) : tableIndex c p < tableSize c := by
  have hbits := tableBits_of_configValid h
  refine Nat.div_lt_of_lt_mul ?_
  calc p.toNat < 2 ^ 32 := p.isLt
    _ = 2 ^ fracBits c * tableSize c := by
      rw [fracBits, tableSize, ← Nat.pow_add, Nat.sub_add_cancel (by omega)]

/-- The next index wraps inside the table (R98). -/
theorem nextIndex_lt (c : Config) (i : Nat) : nextIndex c i < tableSize c :=
  Nat.mod_lt _ (Nat.two_pow_pos _)

/-- Every index of a built table holds an entry in [-1, 1] (R94). -/
theorem waveEntry_of_lt {s : State} (hc : configValid s.cfg = true) (hrom : s.rom = buildRoms s.cfg) {k i : Nat}
    (hk : k < s.cfg.nLevels) (hi : i < tableSize s.cfg) : ∃ e, waveEntry s k i = some e ∧ f32InUnit e = true := by
  obtain ⟨hlevels, htables⟩ := waveTables_of_configValid hc
  have hbuilt : s.rom.wtRom = s.cfg.wtRom := by rw [hrom]; rfl
  have hk : k < s.cfg.wtRom.length := by rwa [hlevels]
  obtain ⟨hsize, hunit⟩ := htables _ (List.getElem_mem hk)
  have hi : i < s.cfg.wtRom[k].length := by rwa [hsize]
  refine ⟨s.cfg.wtRom[k][i], ?_, hunit _ (List.getElem_mem hi)⟩
  rw [waveEntry, hbuilt, List.getElem?_eq_getElem hk, Option.bind_some, List.getElem?_eq_getElem hi]

/-- `Sample` never leaves the table (R98). -/
theorem sampleAt_total {s : State} (hc : configValid s.cfg = true) (hrom : s.rom = buildRoms s.cfg) {k : Nat}
    (hk : k < s.cfg.nLevels) (p : Word) : ∃ x, sampleAt s p k = .next x := by
  obtain ⟨a, ha, hau⟩ := waveEntry_of_lt hc hrom hk (tableIndex_lt hc p)
  obtain ⟨b, hb, hbu⟩ := waveEntry_of_lt hc hrom hk (nextIndex_lt s.cfg (tableIndex s.cfg p))
  exact ⟨_, sampleAt_next.2 ⟨a, b, ha, hb, hau, hbu, rfl⟩⟩

theorem silentStep_total (s : State) : ∃ t, silentStep s = .next t := by
  unfold silentStep
  split <;> exact ⟨_, rfl⟩

theorem voicedStep_total {s : State} (hs : s.Inv) : ∃ t, voicedStep s = .next t := by
  obtain ⟨x, hx⟩ := sampleAt_total hs.cfgValid hs.romBuilt hs.lvlLegal s.phase
  simp only [voicedStep, hx]
  split <;> exact ⟨_, rfl⟩

/-! ### The block's step -/

/-- The block's own step answers a next state (R150, R162). -/
theorem blockStep_total {s : State} (hs : s.Inv) (hw : s.TextWritten) : ∃ t, blockStep s = .next t := by
  unfold blockStep
  split
  · next hb _ => exact tickStep_total hs hb hw
  · split
    · exact silentStep_total s
    · exact voicedStep_total hs
  · exact ⟨_, rfl⟩
  · exact ⟨_, rfl⟩
  · exact ⟨_, rfl⟩

/-- Settles O55: with no host move pending the step is the block's own. -/
theorem validBlockNeverStops : Obligations.ValidBlockNeverStops := by
  intro s hs hw hinbox
  rw [step_of_noMove hinbox]
  exact blockStep_total hs hw

end Sys2Proof.Machine

/-! PROOFS. The built tables THR and NOTE_RATE (40_wavetable.md R93, R97, R99): each entry is the floor of its formula,
THR strictly increases up to its sentinel, and SelectLevel finds the lowest level that a rate fits. -/

namespace Sys2Proof.Machine

/-! ### Narrowing a table to 32 bits -/

/-- A table whose entries fit 32 bits keeps them when it is narrowed. -/
theorem narrow_getElem?_iff {l : List Nat} (h : ∀ x ∈ l, x < 2 ^ 32) {i : Nat} {w : Word} :
    (l.map (BitVec.ofNat 32))[i]? = some w ↔ l[i]? = some w.toNat := by
  rw [List.getElem?_map, Option.map_eq_some_iff]
  constructor
  · rintro ⟨x, hx, rfl⟩
    rw [hx, BitVec.toNat_ofNat, Nat.mod_eq_of_lt (h x (List.mem_of_getElem? hx))]
  · intro hx
    exact ⟨_, hx, by simp⟩

theorem exists_narrowed {l : List Nat} (h : ∀ x ∈ l, x < 2 ^ 32) {i x : Nat} (hx : l[i]? = some x) :
    ∃ w : Word, (l.map (BitVec.ofNat 32))[i]? = some w ∧ w.toNat = x := by
  have hw : (BitVec.ofNat 32 x).toNat = x := Nat.mod_eq_of_lt (h x (List.mem_of_getElem? hx))
  exact ⟨_, (narrow_getElem?_iff h).2 (by rw [hw, hx]), hw⟩

/-! ### THR (R93) -/

theorem pairwise_of_strictlyIncreasing {l : List Nat} (h : strictlyIncreasing l = true) : l.Pairwise (· < ·) := by
  rw [← List.isChain_iff_pairwise]
  induction l using strictlyIncreasing.induct with
  | case1 => exact .nil
  | case2 a => exact .singleton a
  | case3 a b rest ih =>
    simp only [strictlyIncreasing, Bool.and_eq_true, decide_eq_true_eq] at h
    exact .cons_cons h.1 (ih h.2)

/-- R100 (a), before THR is narrowed. -/
theorem thresholds_increasing {c : Config} (h : configValid c = true) : (thresholds c).Pairwise (· < ·) := by
  simp only [configValid, Bool.and_eq_true] at h
  obtain ⟨⟨⟨⟨-, hincreasing⟩, -⟩, -⟩, -⟩ := h
  exact pairwise_of_strictlyIncreasing hincreasing

/-- Each threshold fits 32 bits: the sentinel is the last of them, and so the largest. -/
theorem thresholds_lt {c : Config} (h : configValid c = true) : ∀ t ∈ thresholds c, t < 2 ^ 32 := by
  have hincreasing := thresholds_increasing h
  rw [thresholds, List.pairwise_append] at hincreasing
  obtain ⟨-, -, hbelow⟩ := hincreasing
  intro t ht
  rcases List.mem_append.1 ht with hlevel | hlast
  · exact (hbelow t hlevel thrSentinel (List.mem_singleton_self _)).trans (by decide)
  · rw [List.mem_singleton.1 hlast]
    decide

theorem thresholds_getElem?_level {c : Config} {k : Nat} (hk : k + 1 < c.nLevels) :
    (thresholds c)[k]? = some (thresholdOf c k) := by
  have hk : k < c.nLevels - 1 := by omega
  rw [thresholds, List.getElem?_append_left (by simpa using hk), List.getElem?_map, List.getElem?_range hk]
  rfl

theorem thr_getElem?_last (c : Config) : (buildRoms c).thr[c.nLevels - 1]? = some 0xFFFFFFFF := by
  simp [buildRoms, thresholds, thrSentinel]

/-- The quotient of natural numbers in `thresholdOf` is the floor of the rational formula. -/
theorem thresholdOf_eq_floor (c : Config) (k : Nat) :
    (thresholdOf c k : ℤ) = ⌊(c.baseFreq.num : ℚ) / c.baseFreq.den * 2 ^ k * 2 ^ 32 / c.sampleRate⌋ := by
  rw [thresholdOf, Int.natCast_ediv, ← Rat.floor_intCast_div_natCast]
  congr 1
  push_cast
  ring

/-- Settles O40: the formula holds below the last level, and narrowing keeps the order of R100 (a). -/
theorem thresholdFormula : Obligations.ThresholdFormula := by
  intro c h
  have hfit := thresholds_lt h
  refine ⟨fun k hk => ?_, thr_getElem?_last c, fun k t u ht hu => ?_⟩
  · obtain ⟨t, ht, hvalue⟩ := exists_narrowed hfit (thresholds_getElem?_level hk)
    exact ⟨t, ht, by rw [hvalue, thresholdOf_eq_floor]⟩
  · obtain ⟨hk, htk⟩ := List.getElem?_eq_some_iff.1 ((narrow_getElem?_iff hfit).1 ht)
    obtain ⟨hk', huk⟩ := List.getElem?_eq_some_iff.1 ((narrow_getElem?_iff hfit).1 hu)
    rw [← htk, ← huk]
    exact List.pairwise_iff_getElem.1 (thresholds_increasing h) k (k + 1) hk hk' k.lt_succ_self

/-! ### SelectLevel (R96, R97) -/

/-- Where some threshold is at least the rate, SelectLevel answers the lowest level with such a threshold. -/
theorem selectLevel_lowest {thr : List Word} {r : Word} (h : ∃ t ∈ thr, r.toNat ≤ t.toNat) :
    (∃ t, thr[selectLevel thr r]? = some t ∧ r.toNat ≤ t.toNat) ∧
      ∀ k < selectLevel thr r, ∃ t, thr[k]? = some t ∧ t.toNat < r.toNat := by
  have hlt : thr.findIdx (fun t => decide (r.toNat ≤ t.toNat)) < thr.length :=
    List.findIdx_lt_length.2 (by simpa using h)
  have hlevel : selectLevel thr r = thr.findIdx (fun t => decide (r.toNat ≤ t.toNat)) := by
    rw [selectLevel]
    omega
  rw [hlevel]
  refine ⟨⟨_, List.getElem?_eq_getElem hlt, ?_⟩, fun k hk => ⟨_, List.getElem?_eq_getElem (hk.trans hlt), ?_⟩⟩
  · exact of_decide_eq_true (List.findIdx_getElem (w := hlt))
  · exact not_le.1 (of_decide_eq_false (List.not_of_lt_findIdx hk))

/-- Settles O30: the sentinel of the last level is at least every rate. -/
theorem selectLevelGuarantee : Obligations.SelectLevelGuarantee := by
  intro c r h _
  obtain ⟨hlevels, -⟩ := ranges_of_configValid h
  have hlength := length_thr (c := c) (by omega)
  have hsentinel : r.toNat ≤ (0xFFFFFFFF : Word).toNat := Nat.le_of_lt_succ r.isLt
  have hlt := selectLevel_lt (thr := (buildRoms c).thr) (by omega) r
  exact ⟨hlength ▸ hlt, selectLevel_lowest ⟨_, List.mem_of_getElem? (thr_getElem?_last c), hsentinel⟩⟩

/-! ### NOTE_RATE (R99) -/

/-- The bits found so far keep the root below the bound, and the answer is the largest root unless it is the largest
number that the bits can hold. -/
theorem twelfthRoot_spec (num den bits : Nat) {acc : Nat} (h : acc ^ 12 * den ≤ num) :
    twelfthRoot num den bits acc ^ 12 * den ≤ num ∧
      (twelfthRoot num den bits acc + 1 < acc + 2 ^ bits → num < (twelfthRoot num den bits acc + 1) ^ 12 * den) := by
  induction bits generalizing acc with
  | zero => exact ⟨h, fun hlt => absurd hlt (lt_irrefl _)⟩
  | succ bits ih =>
    rw [twelfthRoot]
    split
    · next hset =>
      obtain ⟨hle, hmax⟩ := ih hset
      exact ⟨hle, fun hlt => hmax (by rw [Nat.pow_succ] at hlt; omega)⟩
    · next hclear =>
      obtain ⟨hle, hmax⟩ := ih h
      refine ⟨hle, fun _ => ?_⟩
      rcases Nat.lt_or_ge (twelfthRoot num den bits acc + 1) (acc + 2 ^ bits) with hlt | hge
      · exact hmax hlt
      · calc num < (acc + 2 ^ bits) ^ 12 * den := not_le.1 hclear
          _ ≤ (twelfthRoot num den bits acc + 1) ^ 12 * den := Nat.mul_le_mul_right _ (Nat.pow_le_pow_left hge 12)

/-- R100 (b). -/
theorem noteRates_bounds {c : Config} (h : configValid c = true) : ∀ r ∈ noteRates c, 1 ≤ r ∧ r < 2 ^ 32 := by
  simp only [configValid, Bool.and_eq_true, List.all_eq_true, decide_eq_true_eq] at h
  obtain ⟨⟨⟨-, hrates⟩, -⟩, -⟩ := h
  exact fun r hr => ⟨(hrates r hr).1, Nat.lt_succ_of_le (hrates r hr).2⟩

theorem noteRates_getElem? (c : Config) {n : Nat} (hn : n < noteCount) : (noteRates c)[n]? = some (noteRateOf c n) := by
  rw [noteRates, List.getElem?_map, List.getElem?_range hn]
  rfl

/-- The floor of a real number is settled by its twelfth power. -/
theorem floor_eq_of_pow_twelve {x : ℝ} {num den r : Nat} (hx : 0 ≤ x) (hden : 0 < den) (h : x ^ 12 * den = num)
    (hle : r ^ 12 * den ≤ num) (hlt : num < (r + 1) ^ 12 * den) : ⌊x⌋ = r := by
  have hden : (0 : ℝ) < den := by exact_mod_cast hden
  rw [Int.floor_eq_iff]
  constructor
  · have hpow : (r : ℝ) ^ 12 * den ≤ x ^ 12 * den := by rw [h]; exact_mod_cast hle
    exact (pow_le_pow_iff_left₀ (by positivity) hx (by norm_num)).1 (le_of_mul_le_mul_right hpow hden)
  · have hpow : x ^ 12 * den < ((r : ℝ) + 1) ^ 12 * den := by rw [h]; exact_mod_cast hlt
    exact (pow_lt_pow_iff_left₀ hx (by positivity) (by norm_num)).1 (lt_of_mul_lt_mul_right hpow hden.le)

/-- The twelfth power of the formula of R99 is the ratio whose root `noteRateOf` finds. -/
theorem noteFormula_pow {c : Config} {f : ℝ} (n : Nat) (hrate : 1 ≤ c.sampleRate)
    (hf : f ^ 12 * c.note0Pow12.den = c.note0Pow12.num) :
    (f * (2 : ℝ) ^ ((n : ℝ) / 12) * 2 ^ 32 / c.sampleRate) ^ 12 * ((c.note0Pow12.den * c.sampleRate ^ 12 : ℕ) : ℝ) =
      ((c.note0Pow12.num * 2 ^ n * 2 ^ 384 : ℕ) : ℝ) := by
  have hroot : ((2 : ℝ) ^ ((n : ℝ) / 12)) ^ 12 = 2 ^ n := by
    rw [← Real.rpow_natCast, ← Real.rpow_mul (by norm_num), ← Real.rpow_natCast]
    congr 1
    push_cast
    ring
  have hrate : (c.sampleRate : ℝ) ≠ 0 := by exact_mod_cast (by omega : c.sampleRate ≠ 0)
  have hscale : ((2 : ℝ) ^ 32) ^ 12 = 2 ^ 384 := (pow_mul 2 32 12).symm
  simp only [Nat.cast_mul, Nat.cast_pow, Nat.cast_ofNat]
  rw [div_pow, mul_pow, mul_pow, hroot, hscale, ← hf]
  generalize (2 : ℝ) ^ 384 = scale
  field_simp

/-- The entries of NOTE_RATE are exact: the 33 bits of the root exceed every rate that R100 (b) allows. -/
theorem noteRateOf_eq_floor {c : Config} (h : configValid c = true) {n : Nat} (hn : n < noteCount) {f : ℝ} (hpos : 0 < f)
    (hf : f ^ 12 * c.note0Pow12.den = c.note0Pow12.num) :
    (noteRateOf c n : ℤ) = ⌊f * (2 : ℝ) ^ ((n : ℝ) / 12) * 2 ^ 32 / c.sampleRate⌋ := by
  have hrange := parametersInRange_of_configValid h
  simp only [parametersInRange, Bool.and_eq_true, decide_eq_true_eq] at hrange
  have hrate : 1 ≤ c.sampleRate := by omega
  have hden : 0 < c.note0Pow12.den * c.sampleRate ^ 12 := Nat.mul_pos (by omega) (by positivity)
  obtain ⟨-, hfit⟩ := noteRates_bounds h _ (List.mem_of_getElem? (noteRates_getElem? c hn))
  obtain ⟨hle, hmax⟩ := twelfthRoot_spec (c.note0Pow12.num * 2 ^ n * 2 ^ 384) (c.note0Pow12.den * c.sampleRate ^ 12) 33
    (acc := 0) (by rw [zero_pow (by decide), zero_mul]; exact Nat.zero_le _)
  exact (floor_eq_of_pow_twelve (by positivity) hden (noteFormula_pow n hrate hf) hle
    (hmax (by rw [noteRateOf] at hfit; omega))).symm

/-- Settles O39: R100 (b) makes the entry fit 32 bits, and `noteRateOf_eq_floor` says that it is the floor. -/
theorem noteTableFormula : Obligations.NoteTableFormula := by
  intro c n f h hn hpos hf
  have hbounds := noteRates_bounds h
  have hentry := noteRates_getElem? c hn
  obtain ⟨r, hr, hvalue⟩ := exists_narrowed (fun x hx => (hbounds x hx).2) hentry
  refine ⟨r, hr, ?_, ?_⟩
  · rw [hvalue]
    exact (hbounds _ (List.mem_of_getElem? hentry)).1
  · rw [hvalue]
    exact noteRateOf_eq_floor h hn hpos hf

end Sys2Proof.Machine

/-! PROOFS. The samples of the wavetable bank (40_wavetable.md R91, R94, R98): the indices that Sample looks up, the
interpolation at fraction 0, and the WT_ROM of the reset state as the reference of R91. The last two rest on the exact
round trip of a finite binary32 through its value. -/

namespace Sys2Proof.Machine

/-! ### The lookups of Sample (R98) -/

theorem nextIndex_last (c : Config) : nextIndex c (tableSize c - 1) = 0 := by
  have hpos : 1 ≤ tableSize c := Nat.one_le_two_pow
  rw [nextIndex, Nat.sub_add_cancel hpos, Nat.mod_self]

theorem nextIndex_of_ne_last {c : Config} {i : Nat} (hlt : i < tableSize c) (hne : i ≠ tableSize c - 1) :
    nextIndex c i = i + 1 :=
  Nat.mod_eq_of_lt (by omega)

/-- Settles O31: both indices are below TABLE_SIZE, where R94 gives the entries. -/
theorem sampleLookupsInRange : Obligations.SampleLookupsInRange := by
  intro s p k hc hrom hk
  have hindex := tableIndex_lt hc p
  obtain ⟨a, ha, hau⟩ := waveEntry_of_lt hc hrom hk hindex
  obtain ⟨b, hb, hbu⟩ := waveEntry_of_lt hc hrom hk (nextIndex_lt s.cfg (tableIndex s.cfg p))
  exact ⟨hindex, fun hlast => hlast ▸ nextIndex_last s.cfg, nextIndex_of_ne_last hindex,
    a, b, ha, hb, hau, hbu, sampleAt_next.2 ⟨a, b, ha, hb, hau, hbu, rfl⟩⟩

/-! ### A finite binary32 from its value (00_scope.md R19) -/

/-- Rounding is exact on a significand of 24 bits: the converse of `magnitudeOf_pattern`. -/
theorem f32RoundMagnitude_pattern {k r : Nat} (hr : r < 2 ^ 24) (hk : k = 0 ∨ 2 ^ 23 ≤ r)
    (hfinite : k * 2 ^ 23 + r < 0x7F800000) : f32RoundMagnitude (r * 2 ^ k) 149 = k * 2 ^ 23 + r := by
  have hshift : f32Shift (r * 2 ^ k) 149 = k := by
    rcases hk with rfl | hnormal
    · have hlog : Nat.log2 r < 24 ∨ r = 0 := by
        rcases Nat.eq_zero_or_pos r with h0 | hpos
        · exact .inr h0
        · exact .inl ((Nat.log2_lt hpos.ne').2 hr)
      rcases hlog with hlog | rfl
      · simp only [f32Shift, Nat.pow_zero, Nat.mul_one]
        omega
      · rfl
    · have hlog : Nat.log2 (r * 2 ^ k) = 23 + k := by
        have hpos := Nat.two_pow_pos k
        rw [Nat.log2_eq_iff (Nat.mul_pos (by omega) hpos).ne', Nat.pow_add, Nat.add_right_comm, Nat.pow_add]
        exact ⟨Nat.mul_le_mul_right _ hnormal, Nat.mul_lt_mul_of_pos_right hr hpos⟩
      rw [f32Shift, hlog]
      omega
  have hround : roundHalfEven (r * 2 ^ k) k = r := by
    have hpos := Nat.two_pow_pos k
    rw [roundHalfEven, Nat.mul_mod_left, Nat.mul_div_cancel _ hpos, if_neg (by omega)]
  rw [f32RoundMagnitude, hshift, hround]
  omega

/-- Rounding the magnitude of a finite pattern answers the pattern. -/
theorem f32RoundMagnitude_magnitudeOf {n : Nat} (hfinite : n < 0x7F800000) :
    f32RoundMagnitude (magnitudeOf n) 149 = n := by
  obtain ⟨k, r, hr, hk, rfl⟩ : ∃ k r, r < 2 ^ 24 ∧ (k = 0 ∨ 2 ^ 23 ≤ r) ∧ n = k * 2 ^ 23 + r := by
    rcases Nat.lt_or_ge n (2 ^ 23) with hsub | hnormal
    · exact ⟨0, n, by omega, .inl rfl, by omega⟩
    · exact ⟨n / 2 ^ 23 - 1, 2 ^ 23 + n % 2 ^ 23, by omega, .inr (by omega), by omega⟩
  rw [magnitudeOf_pattern hr.le hk, f32RoundMagnitude_pattern hr hk hfinite]

theorem f32Round_sign_magnitude {x : Word} (hfinite : x.toNat % 2 ^ 31 < 0x7F800000) :
    f32Round (f32Neg x) (f32Magnitude x) 149 = x := by
  rw [f32Round, f32Magnitude_eq, f32RoundMagnitude_magnitudeOf hfinite]
  apply BitVec.eq_of_toNat_eq
  have hlt := x.isLt
  rw [BitVec.toNat_ofNat, f32Neg, BitVec.msb_eq_decide]
  simp only [decide_eq_true_eq]
  split <;> omega

theorem natAbs_f32Exact (x : Word) : (f32Exact x).natAbs = f32Magnitude x := by
  unfold f32Exact
  split
  · rw [Int.natAbs_neg, Int.natAbs_natCast]
  · exact Int.natAbs_natCast _

theorem f32Exact_eq_zero_iff {x : Word} : f32Exact x = 0 ↔ f32Magnitude x = 0 := by
  rw [← natAbs_f32Exact, Int.natAbs_eq_zero]

theorem f32Exact_neg_iff {x : Word} (h : f32Magnitude x ≠ 0) : f32Exact x < 0 ↔ f32Neg x = true := by
  unfold f32Exact
  split
  · next hneg => exact iff_of_true (by omega) hneg
  · next hneg => exact iff_of_false (by omega) hneg

theorem finite_of_f32InUnit {x : Word} (h : f32InUnit x = true) : x.toNat % 2 ^ 31 < 0x7F800000 := by
  have hle : x.toNat % 2 ^ 31 ≤ 0x3F800000 := of_decide_eq_true h
  omega

/-! ### Binary32 zeros -/

theorem f32Round_zero (neg : Bool) (scale : Nat) : f32Round neg 0 scale = if neg then 0x80000000 else 0 := by
  have hzero : f32RoundMagnitude 0 scale = 0 := by simp [f32RoundMagnitude, f32Shift, roundHalfEven]
  rw [f32Round, hzero]
  cases neg <;> rfl

/-- The zeros are +0.0 and -0.0. -/
theorem eq_zero_of_f32Magnitude {x : Word} (hfinite : x.toNat % 2 ^ 31 < 0x7F800000) (h : f32Magnitude x = 0) :
    x = 0 ∨ x = 0x80000000 := by
  rw [← f32Round_sign_magnitude hfinite, h, f32Round_zero]
  cases f32Neg x
  · exact .inl rfl
  · exact .inr rfl

/-- A product with a zero is a zero. -/
theorem f32Mul_magnitude_eq_zero {x y : Word} (h : f32Magnitude x = 0 ∨ f32Magnitude y = 0) :
    f32Magnitude (f32Mul x y) = 0 := by
  rw [f32Mul, Nat.mul_eq_zero.2 h, f32Round_zero]
  split <;> rfl

/-- A zero added to a value that is no zero leaves its pattern. -/
theorem f32Add_zero {x z : Word} (hfinite : x.toNat % 2 ^ 31 < 0x7F800000) (hx : f32Magnitude x ≠ 0)
    (hz : f32Magnitude z = 0) : f32Add x z = x := by
  have hsign : decide (f32Exact x < 0) = f32Neg x := by
    rw [Bool.eq_iff_iff, decide_eq_true_eq, f32Exact_neg_iff hx]
  rw [f32Add, f32Exact_eq_zero_iff.2 hz, add_zero, if_neg (mt f32Exact_eq_zero_iff.1 hx), hsign, natAbs_f32Exact,
    f32Round_sign_magnitude hfinite]

/-- A sum of zeros is -0.0 only where both are. -/
theorem f32Add_zeros {x z : Word} (hx : f32Magnitude x = 0) (hz : f32Magnitude z = 0) :
    f32Add x z = if f32Neg x && f32Neg z then 0x80000000 else 0 := by
  rw [f32Add, f32Exact_eq_zero_iff.2 hx, f32Exact_eq_zero_iff.2 hz, if_pos (add_zero 0), f32Round_zero]

/-! ### Interpolation at fraction 0 (R98) -/

theorem weight_of_zero_fraction {c : Config} {p : Word} (h : phaseFraction c p = 0) : f32Magnitude (weight c p) = 0 := by
  have hzero : f32OfNat 0 = 0 := by rw [f32OfNat, Nat.zero_mul, f32Round_zero]; rfl
  rw [weight, h, hzero]
  exact f32Mul_magnitude_eq_zero (.inl rfl)

/-- Settles O32: the weighted difference is a zero, and only the sum of two zeros can change a sign. -/
theorem zeroFractionGivesEntry : Obligations.ZeroFractionGivesEntry := by
  intro c p a b ha _ hp
  have hfinite := finite_of_f32InUnit ha
  have hdiff : f32Magnitude (f32Mul (f32Sub b a) (weight c p)) = 0 :=
    f32Mul_magnitude_eq_zero (.inr (weight_of_zero_fraction hp))
  rw [interpolate]
  constructor
  · intro hne
    by_cases hzero : f32Magnitude a = 0
    · obtain rfl := (eq_zero_of_f32Magnitude hfinite hzero).resolve_right hne
      exact f32Add_zeros hzero hdiff
    · exact f32Add_zero hfinite hzero hdiff
  · rintro rfl
    rw [f32Add_zeros rfl hdiff]
    split
    · exact .inr rfl
    · exact .inl rfl

/-! ### The reference table (R91, R94) -/

/-- Finite patterns of one value are equal up to the sign of a zero. -/
theorem pattern_eq_of_f32Exact_eq {v w : Word} (hv : v.toNat % 2 ^ 31 < 0x7F800000) (hw : w.toNat % 2 ^ 31 < 0x7F800000)
    (h : f32Exact w = f32Exact v) : w.toNat % 2 ^ 31 = v.toNat % 2 ^ 31 := by
  have hmagnitude := congrArg Int.natAbs h
  rw [natAbs_f32Exact, natAbs_f32Exact, f32Magnitude_eq, f32Magnitude_eq] at hmagnitude
  rw [← f32RoundMagnitude_magnitudeOf hw, hmagnitude, f32RoundMagnitude_magnitudeOf hv]

/-- A finite pattern of the same value is as near. -/
theorem IsNearestBinary32.of_f32Exact_eq {x : ℝ} {v w : Word} (h : IsNearestBinary32 x v)
    (hw : w.toNat % 2 ^ 31 < 0x7F800000) (he : f32Exact w = f32Exact v) : IsNearestBinary32 x w := by
  obtain ⟨hv, hnearest⟩ := h
  have hparity : w.toNat % 2 = v.toNat % 2 := by
    have := pattern_eq_of_f32Exact_eq hv hw he
    omega
  refine ⟨hw, fun u hu => ?_⟩
  rw [he, hparity]
  exact hnearest u hu

/-- With WT_TOL 0, an accepted WT_ROM is the R91 table itself. -/
theorem waveEntry_nearest_of_exact {s : State} (hc : configValid s.cfg = true) (hrom : s.rom = buildRoms s.cfg)
    (htol : s.cfg.wtTol.num = 0) {k : Nat} (hk : k < s.cfg.nLevels) :
    ∃ raw m, IsRawWave s.cfg k raw ∧ IsWavePeak s.cfg raw m ∧
      ∀ i < tableSize s.cfg, ∃ e, waveEntry s k i = some e ∧ IsNearestBinary32 (raw i / m) e := by
  have hrange := parametersInRange_of_configValid hc
  simp only [parametersInRange, Bool.and_eq_true, decide_eq_true_eq] at hrange
  have hden : (0 : ℝ) < s.cfg.wtTol.den := by exact_mod_cast (by omega : 0 < s.cfg.wtTol.den)
  obtain ⟨raw, m, hraw, hpeak, hentries⟩ := nearReference_of_configValid hc k hk
  refine ⟨raw, m, hraw, hpeak, fun i hi => ?_⟩
  obtain ⟨v, e, hnearest, hentry, hdist⟩ := hentries i hi
  obtain ⟨e', hentry', hunit⟩ := waveEntry_of_lt hc hrom hk hi
  have hbuilt : s.rom.wtRom = s.cfg.wtRom := by rw [hrom]; rfl
  obtain rfl : e' = e := by
    rw [waveEntry, hbuilt, hentry] at hentry'
    exact (Option.some.inj hentry').symm
  have hexact : f32Exact e' = f32Exact v := by
    rw [htol, Nat.cast_zero, zero_mul] at hdist
    have habs := nonpos_of_mul_nonpos_left hdist hden
    exact_mod_cast sub_eq_zero.1 (abs_nonpos_iff.1 habs)
  exact ⟨e', hentry', hnearest.of_f32Exact_eq (finite_of_f32InUnit hunit) hexact⟩

/-- Settles O60: REF has WT_TOL 0. -/
theorem resetWavetableIsReference : Obligations.ResetWavetableIsReference :=
  fun _ hk => waveEntry_nearest_of_exact (s := State.reset) refConfig_valid rfl rfl hk

end Sys2Proof.Machine

/-! PROOFS. What each command does (41_sequencer.md R114 to R131): the commands without operands, then the digit, the
commands that read one, and the notes. -/

namespace Sys2Proof.Machine

/-! ### The commands without operands (R116 to R119) -/

/-- Settles O7: END's row of the opcode map and its two writes. -/
theorem endSetsDone : Obligations.EndSetsDone := ⟨fun _ => rfl, rfl, fun _ => rfl⟩

/-- Settles O8: each of the six rows skips one byte. -/
theorem whitespaceSkips : Obligations.WhitespaceSkips := by
  intro b i h
  simp only [List.mem_cons, Prod.mk.injEq, List.not_mem_nil, or_false] at h
  rcases h with ⟨rfl, rfl⟩ | ⟨rfl, rfl⟩ | ⟨rfl, rfl⟩ | ⟨rfl, rfl⟩ | ⟨rfl, rfl⟩ | ⟨rfl, rfl⟩
  all_goals exact ⟨fun _ => rfl, rfl, fun _ => rfl⟩

/-- Settles O9: below 4 the octave has room for one more in its 3 bits. -/
theorem octaveUpClamps : Obligations.OctaveUpClamps := by
  refine ⟨fun _ => rfl, rfl, fun s hoct => ⟨if s.oct.toNat < maxOctave then s.oct + 1 else s.oct, ?_, rfl⟩⟩
  have hmax : maxOctave = 4 := rfl
  split_ifs <;> bv_omega

/-- Settles O10: above 0 the subtraction does not wrap. -/
theorem octaveDownClamps : Obligations.OctaveDownClamps := by
  refine ⟨fun _ => rfl, rfl, fun s => ⟨if 0 < s.oct.toNat then s.oct - 1 else s.oct, ?_, rfl⟩⟩
  split_ifs <;> bv_omega

/-! ### The digit (R72, R114) -/

theorem toNat_digitByte {d : Nat} (hd : d ≤ 9) : (digitByte d).toNat = 0x30 + d := by
  rw [digitByte, BitVec.toNat_ofNat]
  omega

/-- A digit byte in range is read as its value. -/
theorem readDigit_digitByte {a hi d : Nat} {s : State} (ha : a < s.nlen.toNat) (hd : d ≤ hi) (hhi : hi ≤ 9)
    (cmd : Byte) :
    readDigit a hi cmd (digitByte d) s = .ok d := by
  have hbyte := toNat_digitByte (hd.trans hhi)
  exact readDigit_ok.2 ⟨ha, isDigit_iff.2 (by omega), by rw [digitValue, hbyte]; omega⟩

/-- The error entry of R184 at `n` bytes past POS. -/
def errorAhead (code : ErrorCode) (n : Nat) (byte cmd : Byte) (s : State) : State :=
  { s with
    errCode := code
    errPos := s.pos + BitVec.ofNat 32 n
    errByte := byte
    errCmd := cmd
    pos := s.pos + BitVec.ofNat 32 n
    state := .error }

theorem raiseError_ahead (code : ErrorCode) (n : Nat) (byte cmd : Byte) (s : State) :
    raiseError code (s.pos.toNat + n) byte cmd s = errorAhead code n byte cmd s := by
  rw [raiseError, BitVec.ofNat_add, BitVec.ofNat_toNat, BitVec.setWidth_eq, errorAhead]

/-- A digit at or past NLEN raises NO_TERMINATOR. -/
theorem readDigit_pastEnd {n : Nat} {s : State} (h : s.nlen.toNat ≤ s.pos.toNat + n) (hi : Nat) (cmd b : Byte) :
    readDigit (s.pos.toNat + n) hi cmd b s = .error (errorAhead .noTerminator n 0 cmd s) :=
  readDigit_error.2 (.inl ⟨h, (raiseError_ahead _ _ _ _ _).symm⟩)

/-- A byte below NLEN that is no digit in range raises RANGE_ERROR. -/
theorem readDigit_outOfRange {n hi : Nat} {b : Byte} {s : State} (h : s.pos.toNat + n < s.nlen.toNat)
    (hb : b.toNat < 0x30 ∨ 0x30 + hi < b.toNat) (cmd : Byte) :
    readDigit (s.pos.toNat + n) hi cmd b s = .error (errorAhead .rangeError n b cmd s) := by
  have hdigit : isDigit hi b = false := by
    rw [Bool.eq_false_iff, Ne, isDigit_iff]
    omega
  exact readDigit_error.2 (.inr ⟨h, hdigit, (raiseError_ahead _ _ _ _ _).symm⟩)

/-! ### OCT, TEMPO and REST (R120, R121, R124) -/

/-- Settles O11: the digit is read, then OCT is written. -/
theorem octaveSetCompletes : Obligations.OctaveSetCompletes := by
  intro s d hd hp
  have hmax : maxOctave = 4 := rfl
  simp only [exec, execOct, readDigit_digitByte hp (hmax ▸ hd) (by omega)]
  rfl

/-- Settles O12: the digit is read, then TEMPO is written. -/
theorem tempoSetCompletes : Obligations.TempoSetCompletes := by
  intro s d hd hp
  simp only [exec, execTempo, readDigit_digitByte hp hd le_rfl]
  rfl

/-- LEN has no zero duration (R12). -/
theorem one_le_len {c : Config} (h : configValid c = true) {d : Nat} {l : Word} (hl : c.len[d]? = some l) :
    1 ≤ l.toNat := by
  have hrange := parametersInRange_of_configValid h
  simp only [parametersInRange, Bool.and_eq_true, decide_eq_true_eq, beq_iff_eq, List.all_eq_true] at hrange
  obtain ⟨⟨⟨⟨⟨-, hentries⟩, -⟩, -⟩, -⟩, -⟩ := hrange
  exact (hentries l (List.mem_of_getElem? hl)).1

/-- The end of an event with a legal digit: CNT is the exact product, which fits 32 bits and is not 0 (R115). -/
theorem playEvent_of_digit {s : State} (hs : s.Inv) {d : Nat} (hd : d ≤ 9) (rate : Word) (n : Nat) :
    ∃ len cnt : Word, s.cfg.len[d]? = some len ∧ cnt.toNat = len.toNat * (s.tempo.toNat + 1) ∧ 1 ≤ cnt.toNat ∧
      playEvent d rate n s = .next { s with cnt := cnt, rate := rate, pos := s.pos + BitVec.ofNat 32 n } := by
  obtain ⟨len, hlen⟩ := len_of_digit hs.cfgValid hd
  have hlt := duration_lt hs hlen
  have hcnt : (BitVec.ofNat 32 (duration s len)).toNat = len.toNat * (s.tempo.toNat + 1) := Nat.mod_eq_of_lt hlt
  refine ⟨len, _, hlen, hcnt, ?_, playEvent_next.2 ⟨len, hlen, hlt, rfl⟩⟩
  rw [hcnt]
  exact Nat.mul_pos (one_le_len hs.cfgValid hlen) (Nat.succ_pos _)

/-- Settles O13: the digit is read, then a silent event is played. -/
theorem restCompletes : Obligations.RestCompletes := by
  intro s d hs hd hp
  obtain ⟨len, cnt, hlen, hcnt, hpos, hplay⟩ := playEvent_of_digit hs hd 0 2
  refine ⟨len, cnt, hlen, hcnt, hpos, ?_⟩
  simp only [exec, execRest, readDigit_digitByte hp hd le_rfl]
  exact hplay

/-- The three commands of format FD: a digit that cannot be read ends the command in its error (R114). -/
theorem exec_of_readDigit_error {command : Byte → Instr} {cmd : Byte} {hi : Nat}
    (hmem : (command, cmd, hi) ∈ [(Instr.oct, (0x4F : Byte), 4), (Instr.tempo, 0x54, 9), (Instr.rest, 0x52, 9)])
    {s t : State} {b : Byte} (h : readDigit (s.pos.toNat + 1) hi cmd b s = .error t) :
    exec (command b) s = .next t := by
  simp only [List.mem_cons, Prod.mk.injEq, List.not_mem_nil, or_false] at hmem
  rcases hmem with ⟨rfl, rfl, rfl⟩ | ⟨rfl, rfl, rfl⟩ | ⟨rfl, rfl, rfl⟩
  · have h : readDigit (s.pos.toNat + 1) maxOctave 0x4F b s = .error t := h
    simp only [exec, execOct, h]
  · simp only [exec, execTempo, h]
  · simp only [exec, execRest, h]

/-- Settles O14: each error is the digit's. -/
theorem digitCommandErrors : Obligations.DigitCommandErrors := fun _ cmd hi hmem _ b =>
  ⟨fun hend => exec_of_readDigit_error hmem (readDigit_pastEnd hend hi cmd b),
    fun hlt hb => exec_of_readDigit_error hmem (readDigit_outOfRange hlt hb cmd)⟩

/-! ### The pitch (R122) -/

/-- The clamp as one choice: an index that is moved up from below 0 is not above MAX_NOTE. -/
theorem nudge_eq (idx : Int) : nudge idx = if idx < 0 then idx + 1 else if 59 < idx then idx - 1 else idx := by
  have hmax : (maxNote : Int) = 59 := rfl
  unfold nudge
  split_ifs <;> omega

/-- The note index of R122 as one choice. -/
theorem noteIndex_eq {l : Letter} {m : Modifier} {o : Nat} {raw : Int}
    (hraw : raw = semitone l + modifierDelta m + 12 * o) :
    noteIndex l m o = if raw < 0 then raw + 1 else if 59 < raw then raw - 1 else raw := by
  rw [← nudge_eq, hraw, mul_comm (12 : Int)]
  rfl

/-- Settles O17: the named corners are evaluated; the index is the clamp's, and it ends in the table. -/
theorem pitchClampSaturates : Obligations.PitchClampSaturates :=
  ⟨rfl, rfl, rfl, rfl, rfl, fun l m _ _ ho hraw => ⟨noteIndex_eq hraw, noteIndex_bounds l m ho⟩⟩

/-! ### The notes (R122, R125 to R131) -/

/-- No note is silent (R100 (b)). -/
theorem one_le_noteRate {s : State} (hs : s.Inv) {i : Nat} {rate : Word} (h : s.rom.noteRate[i]? = some rate) :
    1 ≤ rate.toNat := by
  have hbounds := noteRates_bounds hs.cfgValid
  rw [hs.romBuilt] at h
  exact (hbounds _ (List.mem_of_getElem? ((narrow_getElem?_iff fun r hr => (hbounds r hr).2).1 h))).1

/-- A note whose digit is read plays its event. -/
theorem noteEvent_of_digit {l : Letter} {m : Modifier} {b : Byte} {s : State} {d : Nat} {rate : Word}
    (hp : s.pos.toNat + 1 < s.nlen.toNat)
    (hdigit : readDigit (s.pos.toNat + 1 + modifierLength m) 9 (letterByte l) b s = .ok d)
    (hrate : s.rom.noteRate[(noteIndex l m s.oct.toNat).toNat]? = some rate) :
    noteEvent l m b s = playEvent d rate (2 + modifierLength m) s := by
  rw [noteEvent, pastEnd_eq_false.2 hp]
  simp [hdigit, hrate]

/-- A note whose lookahead is past the text raises NO_TERMINATOR there. -/
theorem noteEvent_pastEnd {s : State} (h : s.nlen.toNat ≤ s.pos.toNat + 1) (l : Letter) (m : Modifier) (b : Byte) :
    noteEvent l m b s = .next (errorAhead .noTerminator 1 0 (letterByte l) s) := by
  rw [noteEvent, if_pos (pastEnd_eq_true.2 h), raiseError_ahead]

/-- A note whose digit cannot be read ends in that error. -/
theorem noteEvent_of_readDigit_error {l : Letter} {m : Modifier} {b : Byte} {s t : State}
    (hp : s.pos.toNat + 1 < s.nlen.toNat)
    (h : readDigit (s.pos.toNat + (1 + modifierLength m)) 9 (letterByte l) b s = .error t) :
    noteEvent l m b s = .next t := by
  rw [← Nat.add_assoc] at h
  rw [noteEvent, pastEnd_eq_false.2 hp]
  simp [h]

theorem modifierLength_of_ne_natural {m : Modifier} (h : m ≠ .natural) : modifierLength m = 1 := by
  cases m with
  | natural => exact absurd rfl h
  | hash | plus | minus => rfl

/-- Settles O15: the digit is read, the index lies in NOTE_RATE, and the event is played at the rate there. -/
theorem noteCompletes : Obligations.NoteCompletes := by
  intro s l m d hs hd hp
  obtain ⟨rate, hrate⟩ := noteRate_of_octave hs l m
  obtain ⟨len, cnt, hlen, hcnt, hpos, hplay⟩ := playEvent_of_digit hs hd rate (2 + modifierLength m)
  obtain ⟨hlo, hhi⟩ := noteIndex_bounds l m hs.octLegal
  have hmax : (maxNote : Int) = 59 := rfl
  refine ⟨_, (noteIndex l m s.oct.toNat).toNat, len, cnt, rate, rfl, ?_, by omega, hrate, one_le_noteRate hs hrate,
    hlen, hcnt, hpos, ?_⟩
  · rw [Int.toNat_of_nonneg hlo, noteIndex_eq rfl]
  · rw [exec_noteInstr, noteEvent_of_digit (by omega) (readDigit_digitByte hp hd le_rfl _) hrate, hplay]

/-- Settles O16: the lookahead fetch comes before the digit fetch, and that before the digit check. -/
theorem noteErrorPriority : Obligations.NoteErrorPriority := by
  intro s l m b
  rw [exec_noteInstr]
  refine ⟨fun hend => noteEvent_pastEnd hend l m b, fun hm hend => ?_, fun hlt hb => ?_⟩
  · have hlen : 1 + modifierLength m = 2 := by rw [modifierLength_of_ne_natural hm]
    exact noteEvent_of_readDigit_error (by omega) (hlen ▸ readDigit_pastEnd hend.le 9 (letterByte l) b)
  · exact noteEvent_of_readDigit_error (by omega) (readDigit_outOfRange (Nat.add_assoc _ _ _ ▸ hlt) hb (letterByte l))

end Sys2Proof.Machine

/-! PROOFS. The tick as a step (41_sequencer.md R111 to R113, 42_renderer.md R151): a sustained tick, the terminal
check, and one command of the scan. -/

namespace Sys2Proof.Machine

/-! ### The tick as a step -/

/-- Where a tick is due and the host makes no move, the step is the tick (R150). -/
theorem step_of_tickDue {s : State} (hb : s.state = .busy) (hdue : s.rstate = .needTick) (hinbox : s.inbox = []) :
    step s = tickStep s := by
  rw [step_of_noMove hinbox, blockStep, hb, hdue]

/-- Settles O21: CNT stays above 0 in sustain, so the tick ends there. -/
theorem sustainedTick : Obligations.SustainedTick := by
  intro s hb hdue hdone hinbox hcnt
  have hsustain : sustain s = { s with cnt := s.cnt - 1 } := by
    rw [sustain, if_neg (by bv_omega)]
  rw [step_of_tickDue hb hdue hinbox, tickStep_eq, if_pos (.inl hcnt), hsustain]
  exact congrArg _ (finishTick_of_not_done _ hdone)

/-- Settles O22: the terminal check ends the tick before the scan. -/
theorem tickAfterDone : Obligations.TickAfterDone := by
  intro s hb hdue hdone hinbox
  rw [step_of_tickDue hb hdue hinbox, tickStep_eq, if_pos (.inr hdone)]
  exact congrArg _ (finishTick_of_done (sustain s) hdone)

/-! ### One command of the scan -/

/-- A tick with no event left counts CNT down to 0 and scans (R111 to R113). -/
theorem step_of_atCommand {s : State} (h : s.AtCommand) : step s = scan { s with cnt := 0 } := by
  have hcnt := h.noEvent
  have hsustain : sustain s = { s with cnt := 0 } := by
    have : (if s.cnt = 0 then 0 else s.cnt - 1) = 0 := by
      split <;> bv_omega
    rw [sustain, this]
  have hscan : ¬(1 < s.cnt.toNat ∨ s.done = true) := by simp [h.notDone, h.noEvent]
  rw [step_of_tickDue h.busy h.tickDue h.noMove, tickStep_eq, if_neg hscan, hsustain]

/-- Whether the text is written does not depend on CNT. -/
theorem bytesWritten_withCnt (s : State) (cnt : Word) (n : Nat) :
    bytesWritten { s with cnt := cnt } n = bytesWritten s n := by
  induction n with
  | zero => rfl
  | succ n ih => exact congrArg (· && _) ih

/-- The scan runs the decoded command, then what `afterCommand` says (R113). -/
theorem scan_of_decode_ok {s : State} {i : Instr} (hp : s.pos.toNat < s.nlen.toNat)
    (hi : decode (commandBytes s) = .ok i) (hw : bytesWritten s i.length = true) :
    scan s = afterCommand i scan (exec i s) := by
  rw [scan_unfold, scanCommand, pastEnd_eq_false.2 hp]
  simp [hi, hw]

/-- The scan raises SYNTAX_ERROR at an illegal command byte (R132). -/
theorem scan_of_decode_illegal {s : State} {c : Byte} (hp : s.pos.toNat < s.nlen.toNat)
    (hc : decode (commandBytes s) = .error (.illegal c)) (hw : bytesWritten s 1 = true) :
    scan s = .next (raiseError .syntaxError s.pos.toNat c c s) := by
  rw [scan_unfold, scanCommand, pastEnd_eq_false.2 hp]
  simp [hc, hw]

/-- After a command that completes and does not end the scan, the block is again about to parse a command. -/
theorem Completed.atCommand {i : Instr} {s t : State} (hc : Completed i s t) (hends : i.endsScan = false)
    (hs : s.AtCommand) : t.AtCommand := by
  obtain ⟨hcnt, -, hdone⟩ := hc.event hends
  have hrstate : t.rstate = s.rstate := by rw [hc.same]
  have hinbox : t.inbox = s.inbox := by rw [hc.same]
  exact ⟨hc.state_eq.trans hs.busy, hrstate.trans hs.tickDue, hdone.trans hs.notDone, hcnt ▸ hs.noEvent,
    hinbox.trans hs.noMove⟩

/-- Settles O23: one iteration of the scan; a command that lets it go on leaves a state whose own tick scans from
there, since CNT is 0 already. -/
theorem stepRunsDecodedInstruction : Obligations.StepRunsDecodedInstruction := by
  intro s i hs hp hi hw
  have hstep : step s = afterCommand i scan (exec i { s with cnt := 0 }) :=
    (step_of_atCommand hs).trans
      (scan_of_decode_ok (s := { s with cnt := 0 }) hp hi ((bytesWritten_withCnt s 0 _).trans hw))
  refine ⟨decodedCommandIsWellFormed _ _ hi, fun r hr => by rw [hstep, hr]; rfl, fun t ht => ?_⟩
  simp only [hstep, ht, afterCommand]
  refine ⟨fun herror => if_pos herror, fun herror hends => ?_, fun herror hends => ?_⟩
  · rw [if_neg herror, if_pos hends]
  · have hc : Completed i { s with cnt := 0 } t := (exec_cases ht).resolve_left fun hr => herror hr.state_eq
    have hcnt : t.cnt = 0 := (hc.event hends).1
    have hat : t.AtCommand := hc.atCommand hends { hs with noEvent := Nat.zero_le 1 }
    refine ⟨hat, ?_⟩
    rw [if_neg herror, if_neg (by simp [hends]), step_of_atCommand hat, ← hcnt]

/-- Settles O24: a byte of the illegal space has no line of the opcode map; the error position is POS. -/
theorem illegalByteRaisesSyntaxError : Obligations.IllegalByteRaisesSyntaxError := by
  intro s b hs hp hb hillegal
  have hdecode : decode (commandBytes s) = .error (.illegal (fold b)) := by
    rw [commandBytes, hb]
    exact (illegalSpaceIsRejected b _).1 hillegal
  have hwritten : bytesWritten s 1 = true := by
    simp [bytesWritten, hb]
  rw [step_of_atCommand hs, scan_of_decode_illegal (s := { s with cnt := 0 }) hp hdecode
    ((bytesWritten_withCnt s 0 1).trans hwritten)]
  simp [raiseError]

end Sys2Proof.Machine

/-! PROOFS. The length of an event (41_sequencer.md R134, 42_renderer.md R159): what the sample steps of one tick
write in all, then the ticks of one event. -/

namespace Sys2Proof.Machine

/-! ### Runs -/

/-- The first step of a run. -/
theorem run_succ {s u : State} (h : step s = .next u) (n : Nat) :
    Host.Core.run core (n + 1) s = Host.Core.run core n u := by
  have h : core.step s = .next u := h
  simp only [Host.Core.run, h]

/-- A run that answers a state took its first step. -/
theorem run_succ_next {n : Nat} {s t : State} (h : Host.Core.run core (n + 1) s = .next t) :
    ∃ u, step s = .next u ∧ Host.Core.run core n u = .next t := by
  simp only [Host.Core.run] at h
  split at h
  · next u hu => exact ⟨u, hu, h⟩
  · cases h
  · cases h

/-- A run goes on from the state its first steps reach. -/
theorem run_add {m : Nat} {s t : State} (h : Host.Core.run core m s = .next t) (n : Nat) :
    Host.Core.run core (m + n) s = Host.Core.run core n t := by
  induction m generalizing s with
  | zero => cases h; rw [Nat.zero_add]
  | succ m ih =>
    obtain ⟨u, hu, hrest⟩ := run_succ_next h
    rw [Nat.succ_add, run_succ hu, ih hrest]

/-- A run keeps the invariant, as each step does. -/
theorem run_inv {n : Nat} {s t : State} (hs : s.Inv) (h : Host.Core.run core n s = .next t) : t.Inv := by
  induction n generalizing s with
  | zero => cases h; exact hs
  | succ n ih =>
    obtain ⟨u, hu, hrest⟩ := run_succ_next h
    exact ih (stepKeepsInvariant s u hs hu) hrest

/-! ### The samples of a tick -/

/-- `s` after `n` sample steps of one tick that left `sink` (R152 to R154); a silent step adds RATE = 0 to PHASE. -/
def emitted (n : Nat) (sink : Memory 16) (s : State) : State :=
  { s with
    sink := sink
    outCount := s.outCount + BitVec.ofNat 32 n
    phase := s.phase + BitVec.ofNat 32 n * s.rate
    subcnt := s.subcnt + BitVec.ofNat 32 n
    rstate := if s.subcnt.toNat + n = s.cfg.tickSamples then .needTick else s.rstate }

/-- Within a tick SUBCNT does not wrap: TICK_SAMPLES fits 32 bits (R29). -/
theorem subcnt_add_toNat {s : State} (hs : s.Inv) {n : Nat} (h : s.subcnt.toNat + n ≤ s.cfg.tickSamples) :
    (s.subcnt + BitVec.ofNat 32 n).toNat = s.subcnt.toNat + n := by
  obtain ⟨-, -, -, -, htick⟩ := ranges_of_configValid hs.cfgValid
  bv_omega

/-- Below the limit OUT_COUNT does not wrap: the limit fits 32 bits (R56). -/
theorem outCount_add_toNat {s : State} {n : Nat} (h : s.outCount.toNat + n ≤ outputLimit s.cfg) :
    (s.outCount + BitVec.ofNat 32 n).toNat = s.outCount.toNat + n := by
  have hlimit := outputLimit_le s.cfg
  bv_omega

theorem emitted_emitted {s : State} (hs : s.Inv) {m : Nat} (h : s.subcnt.toNat + m < s.cfg.tickSamples) (n : Nat)
    (sink sink' : Memory 16) : emitted n sink' (emitted m sink s) = emitted (m + n) sink' s := by
  have hsub := subcnt_add_toNat hs h.le
  simp only [emitted, hsub, if_neg h.ne, BitVec.ofNat_add, BitVec.add_mul, BitVec.add_assoc, Nat.add_assoc]

/-- A sample step with room in the sink (R152, R153). -/
theorem step_of_atSample {s : State} (hs : s.Inv) (h : s.AtSample) (hroom : s.outCount.toNat < outputLimit s.cfg) :
    ∃ v, step s = .next (emitted 1 (Memory.write s.sink s.outCount.toNat v) s) := by
  have hfull : ¬ sinkFull s = true := by
    rw [sinkFull_iff]
    exact hroom.ne
  have hsub : (s.subcnt + 1).toNat = s.subcnt.toNat + 1 :=
    subcnt_add_toNat (n := 1) hs (hs.emitLegal h.busy h.emitting)
  simp only [step_of_noMove h.noMove, blockStep, h.busy, h.emitting]
  by_cases hrate : s.rate = 0
  · have hphase : s.phase + BitVec.ofNat 32 1 * s.rate = s.phase := by simp [hrate]
    rw [if_pos hrate, silentStep, if_neg hfull]
    exact ⟨0, by simp only [countSample, appendSample, emitted, hsub, hphase]; rfl⟩
  · have hphase : s.phase + BitVec.ofNat 32 1 * s.rate = s.phase + s.rate := by simp
    obtain ⟨x, hx⟩ := sampleAt_total hs.cfgValid hs.romBuilt hs.lvlLegal s.phase
    simp only [if_neg hrate, voicedStep, hx, if_neg hfull]
    exact ⟨quantize x, by simp only [countSample, advancePhase, appendSample, emitted, hsub, hphase]; rfl⟩

/-- The sample steps of one tick: an induction on their number. -/
theorem run_samples {s : State} (hs : s.Inv) (h : s.AtSample) {n : Nat}
    (hn : s.subcnt.toNat + n ≤ s.cfg.tickSamples) (hroom : s.outCount.toNat + n ≤ outputLimit s.cfg) :
    ∃ sink, Host.Core.run core n s = .next (emitted n sink s) := by
  induction n with
  | zero =>
    have hlt := hs.emitLegal h.busy h.emitting
    exact ⟨s.sink, by simp [Host.Core.run, emitted, hlt.ne]⟩
  | succ n ih =>
    obtain ⟨sink, hrun⟩ := ih (by omega) (by omega)
    have hlt : s.subcnt.toNat + n < s.cfg.tickSamples := hn
    have hat : (emitted n sink s).AtSample :=
      ⟨h.busy, (if_neg hlt.ne).trans h.emitting, h.noMove⟩
    have hcount : (emitted n sink s).outCount.toNat = s.outCount.toNat + n :=
      outCount_add_toNat (by omega)
    obtain ⟨v, hstep⟩ := step_of_atSample (run_inv hs hrun) hat (hcount ▸ hroom)
    rw [emitted_emitted hs hlt] at hstep
    exact ⟨_, (run_add hrun 1).trans (run_succ hstep 0)⟩

/-! ### The ticks of an event -/

/-- `s` at the first sample of an event, after `ticks` ticks that left `sink` and `lvl`: CNT is 1 and the tick that
parses the next command is due (R134). -/
def eventPlayed (ticks : Nat) (sink : Memory 16) (lvl : BitVec 5) (s : State) : State :=
  { emitted (ticks * s.cfg.tickSamples) sink s with
    cnt := 1
    lvl := lvl
    subcnt := BitVec.ofNat 32 s.cfg.tickSamples
    rstate := .needTick }

/-- The tick step between two ticks of an event (R111). -/
def nextTick (s : State) : State :=
  { s with
    cnt := s.cnt - 1
    lvl := if s.rate = 0 then s.lvl else BitVec.ofNat 5 (selectLevel s.rom.thr s.rate)
    subcnt := 0
    rstate := .emit }

/-- One whole tick brings the block to the next tick step. -/
theorem run_tick {s : State} (hs : s.Inv) (h : s.AtSample) (hsub : s.subcnt = 0)
    (hroom : s.outCount.toNat + s.cfg.tickSamples ≤ outputLimit s.cfg) :
    ∃ sink, Host.Core.run core s.cfg.tickSamples s = .next (emitted s.cfg.tickSamples sink s) ∧
      (emitted s.cfg.tickSamples sink s).rstate = .needTick := by
  have hzero : s.subcnt.toNat + s.cfg.tickSamples = s.cfg.tickSamples := by simp [hsub]
  obtain ⟨sink, hrun⟩ := run_samples hs h hzero.le hroom
  exact ⟨sink, hrun, if_pos hzero⟩

/-- Before the last tick of an event, a whole tick and the tick step after it. -/
theorem run_tick_sustained {s : State} (hs : s.Inv) (h : s.AtSample) (hsub : s.subcnt = 0) (hcnt : 2 ≤ s.cnt.toNat)
    (hroom : s.outCount.toNat + s.cfg.tickSamples ≤ outputLimit s.cfg) :
    ∃ sink, Host.Core.run core (s.cfg.tickSamples + 1) s = .next (nextTick (emitted s.cfg.tickSamples sink s)) := by
  obtain ⟨sink, hrun, hdue⟩ := run_tick hs h hsub hroom
  have hstep := sustainedTick (emitted s.cfg.tickSamples sink s) h.busy hdue (hs.not_done h.busy) h.noMove hcnt
  exact ⟨sink, (run_add hrun 1).trans (run_succ hstep 0)⟩

/-- The ticks of an event: an induction on CNT. -/
theorem run_event {k : Nat} {s : State} (hs : s.Inv) (h : s.AtSample) (hsub : s.subcnt = 0)
    (hcnt : s.cnt.toNat = k + 1) (hroom : s.outCount.toNat + (k + 1) * s.cfg.tickSamples ≤ outputLimit s.cfg) :
    ∃ sink lvl, Host.Core.run core ((k + 1) * s.cfg.tickSamples + k) s = .next (eventPlayed (k + 1) sink lvl s) := by
  induction k generalizing s with
  | zero =>
    obtain ⟨sink, hrun, hdue⟩ := run_tick hs h hsub (by omega)
    have hone : s.cnt = 1 := BitVec.eq_of_toNat_eq hcnt
    refine ⟨sink, s.lvl, ?_⟩
    simp only [Nat.zero_add, Nat.one_mul, Nat.add_zero, hrun, eventPlayed, ← hdue, ← hone]
    simp [emitted, hsub]
  | succ k ih =>
    have hticks : (k + 1 + 1) * s.cfg.tickSamples = s.cfg.tickSamples + (k + 1) * s.cfg.tickSamples := by ring
    have hsteps : (k + 1 + 1) * s.cfg.tickSamples + (k + 1) =
        s.cfg.tickSamples + 1 + ((k + 1) * s.cfg.tickSamples + k) := by ring
    obtain ⟨sink, hrun⟩ := run_tick_sustained hs h hsub (by omega) (by omega)
    have hcnt' : (s.cnt - 1).toNat = k + 1 := by bv_omega
    have hroom' : (s.outCount + BitVec.ofNat 32 s.cfg.tickSamples).toNat + (k + 1) * s.cfg.tickSamples ≤
        outputLimit s.cfg := by
      rw [outCount_add_toNat (by omega)]
      omega
    obtain ⟨sink', lvl, hrest⟩ := ih (run_inv hs hrun) ⟨h.busy, rfl, h.noMove⟩ rfl hcnt' hroom'
    refine ⟨sink', lvl, ?_⟩
    rw [hsteps, run_add hrun]
    refine hrest.trans ?_
    simp only [eventPlayed, emitted, nextTick, hticks, BitVec.ofNat_add, BitVec.add_mul, BitVec.add_assoc]

/-- Settles O36: OUT_COUNT does not wrap below the limit, and the other registers are as `eventPlayed` says. -/
theorem eventLastsItsDuration : Obligations.EventLastsItsDuration := by
  intro s hs h hsub hcnt hroom
  obtain ⟨k, hk⟩ : ∃ k, s.cnt.toNat = k + 1 := Nat.exists_eq_add_of_le' hcnt
  have hofNat : BitVec.ofNat 32 (s.cnt.toNat * s.cfg.tickSamples) = s.cnt * BitVec.ofNat 32 s.cfg.tickSamples := by
    rw [BitVec.ofNat_mul, BitVec.ofNat_toNat, BitVec.setWidth_eq]
  obtain ⟨sink, lvl, hrun⟩ := run_event hs h hsub hk (hk ▸ hroom)
  rw [← hk, ← Nat.sub_eq_of_eq_add hk] at hrun
  refine ⟨_, hrun, ?_, rfl, rfl, rfl, rfl, rfl, ?_, ?_⟩
  · exact ⟨h.busy, rfl, hs.not_done h.busy, le_rfl, h.noMove⟩
  · exact outCount_add_toNat hroom
  · exact congrArg (fun n => s.phase + n * s.rate) hofNat

end Sys2Proof.Machine

/-! PROOFS. The sample steps (42_renderer.md R152 to R154): which sample a step emits, and what the sink holds after the
sample steps of one tick. -/

namespace Sys2Proof.Machine

/-! ### One sample -/

/-- The sample that a sample step appends: 0 for silence, the quantized interpolation at PHASE for a voice. -/
theorem sample_of_step {s : State} {v : Sample} (h : s.AtSample)
    (hstep : step s = .next (emitted 1 (Memory.write s.sink s.outCount.toNat v) s)) :
    (s.rate = 0 ∧ v = 0) ∨ (s.rate ≠ 0 ∧ ∃ x, sampleAt s s.phase s.lvl.toNat = .next x ∧ v = quantize x) := by
  have same {t : State} {w : Sample} (ht : emitted 1 (Memory.write s.sink s.outCount.toNat v) s = t)
      (hsink : t.sink = Memory.write s.sink s.outCount.toNat w) : v = w := by
    have hread := congrArg (Memory.read · s.outCount.toNat) ((congrArg State.sink ht).trans hsink)
    simpa [emitted] using hread
  have noError {t : State} (ht : emitted 1 (Memory.write s.sink s.outCount.toNat v) s = t) : t.state ≠ .error := by
    rw [← ht]
    exact fun herror => by cases h.busy.symm.trans herror
  rw [step_of_noMove h.noMove] at hstep
  rcases blockStep_next hstep with ⟨hb, -⟩ | ⟨-, hdue, -⟩ | ⟨-, -, hrate, hsilent⟩ | ⟨-, -, hrate, hvoiced⟩
  · exact absurd h.busy hb
  · cases h.emitting.symm.trans hdue
  · rcases silentStep_next hsilent with ⟨-, ht⟩ | ⟨-, ht⟩
    · exact absurd rfl (noError ht)
    · exact .inl ⟨hrate, same ht rfl⟩
  · obtain ⟨x, hx, ⟨-, ht⟩ | ⟨-, ht⟩⟩ := voicedStep_next hvoiced
    · exact absurd rfl (noError ht)
    · exact .inr ⟨hrate, x, hx, same ht rfl⟩

/-- Settles O27: with RATE 0 the sample is 0, and PHASE moves by 0. -/
theorem silentSampleStep : Obligations.SilentSampleStep := by
  intro s hs h hrate hroom
  obtain ⟨v, hstep⟩ := step_of_atSample hs h (lt_of_le_of_ne hs.countLegal hroom)
  obtain ⟨-, rfl⟩ | ⟨hne, -⟩ := sample_of_step h hstep
  · refine ⟨_, Memory.read_write_same _ _ _, fun j hj => Memory.read_write_other _ _ j _ hj, ?_⟩
    simp [hstep, emitted, hrate, h.emitting]
  · exact absurd hrate hne

/-- Settles O28: the sample is the interpolation that `Sample` answers at PHASE, quantized. -/
theorem voicedSampleStep : Obligations.VoicedSampleStep := by
  intro s hs h hrate hroom
  obtain ⟨v, hstep⟩ := step_of_atSample hs h (lt_of_le_of_ne hs.countLegal hroom)
  obtain ⟨hzero, -⟩ | ⟨-, x, hx, rfl⟩ := sample_of_step h hstep
  · exact absurd hzero hrate
  · obtain ⟨a, b, ha, hb, -, -, rfl⟩ := sampleAt_next.1 hx
    have hphase : s.phase + s.rate = BitVec.ofNat 32 ((s.phase.toNat + s.rate.toNat) % 2 ^ 32) :=
      BitVec.eq_of_toNat_eq (by simp)
    refine ⟨a, b, _, ha, hb, Memory.read_write_same _ _ _, fun j hj => Memory.read_write_other _ _ j _ hj, ?_⟩
    rw [hstep, ← hphase]
    simp [emitted, h.emitting, interpolate, weight, phaseFraction]

/-! ### The samples of a tick -/

/-- `sink` is the sink of `s` with `n` samples from OUT_COUNT on, all zero in silence. -/
structure HoldsSamples (s : State) (n : Nat) (sink : Memory 16) : Prop where
  below : ∀ j, j < s.outCount.toNat → Memory.read sink j = Memory.read s.sink j
  above : ∀ j, s.outCount.toNat + n ≤ j → Memory.read sink j = Memory.read s.sink j
  samples : ∀ j, s.outCount.toNat ≤ j → j < s.outCount.toNat + n →
    ∃ v, Memory.read sink j = some v ∧ (s.rate = 0 → v = 0)

theorem HoldsSamples.zero (s : State) : HoldsSamples s 0 s.sink :=
  ⟨fun _ _ => rfl, fun _ _ => rfl, fun _ _ _ => by omega⟩

/-- One more sample, at the index after the last one. -/
theorem HoldsSamples.succ {s : State} {n : Nat} {sink : Memory 16} (h : HoldsSamples s n sink) {v : Sample}
    (hv : s.rate = 0 → v = 0) : HoldsSamples s (n + 1) (Memory.write sink (s.outCount.toNat + n) v) where
  below j hj := (Memory.read_write_other _ _ j v (by omega)).trans (h.below j hj)
  above j hj := (Memory.read_write_other _ _ j v (by omega)).trans (h.above j (by omega))
  samples j hlo hhi := by
    rw [Memory.read_write]
    split
    · exact ⟨v, rfl, hv⟩
    · exact h.samples j hlo (by omega)

/-- The sample steps of one tick and what they leave in the sink: an induction on their number. -/
theorem run_samples_sink {s : State} (hs : s.Inv) (h : s.AtSample) {n : Nat}
    (hn : s.subcnt.toNat + n ≤ s.cfg.tickSamples) (hroom : s.outCount.toNat + n ≤ outputLimit s.cfg) :
    ∃ sink, Host.Core.run core n s = .next (emitted n sink s) ∧ HoldsSamples s n sink := by
  induction n with
  | zero =>
    have hlt := hs.emitLegal h.busy h.emitting
    exact ⟨s.sink, by simp [Host.Core.run, emitted, hlt.ne], .zero s⟩
  | succ n ih =>
    obtain ⟨sink, hrun, hsamples⟩ := ih (by omega) (by omega)
    have hlt : s.subcnt.toNat + n < s.cfg.tickSamples := hn
    have hat : (emitted n sink s).AtSample := ⟨h.busy, (if_neg hlt.ne).trans h.emitting, h.noMove⟩
    have hcount : (emitted n sink s).outCount.toNat = s.outCount.toNat + n := outCount_add_toNat (by omega)
    obtain ⟨v, hstep⟩ := step_of_atSample (run_inv hs hrun) hat (hcount ▸ hroom)
    have hv : s.rate = 0 → v = 0 := fun hrate =>
      (sample_of_step hat hstep).elim And.right fun hvoiced => absurd hrate hvoiced.1
    rw [emitted_emitted hs hlt, hcount] at hstep
    exact ⟨_, (run_add hrun 1).trans (run_succ hstep 0), hsamples.succ hv⟩

/-- Settles O35: the sample steps of the whole tick, from SUBCNT = 0. -/
theorem tickEmitsTickSamples : Obligations.TickEmitsTickSamples := by
  intro s hs h hsub hroom
  have hwhole : s.subcnt.toNat + s.cfg.tickSamples = s.cfg.tickSamples := by simp [hsub]
  obtain ⟨sink, hrun, hbelow, habove, hsamples⟩ := run_samples_sink hs h hwhole.le hroom
  refine ⟨sink, hrun.trans ?_, hbelow, habove, hsamples⟩
  simp [emitted, hsub]

end Sys2Proof.Machine

/-! PROOFS. Every render ends (42_renderer.md R158, 70_reset_and_hazards.md R210): a sample step fills the sink, which is
bounded, and a tick step leads to a sample step or to the end. -/

namespace Sys2Proof.Machine

/-! ### The tick step -/

/-- The render has ended (R158). -/
def Ended (s : State) : Prop := s.state = .done ∨ s.state = .error

/-- The end of a tick: the render has ended, or a sample is due (R151). -/
theorem finishTick_outcome {s : State} (hb : s.state = .busy) :
    Ended (finishTick s) ∨ ((finishTick s).state = .busy ∧ (finishTick s).rstate = .emit) := by
  cases hdone : s.done with
  | true => exact .inl (.inl (by simp [hdone]))
  | false => exact .inr ⟨by simp [hdone, hb], by simp [hdone]⟩

theorem tickStep_outcome {s t : State} (hb : s.state = .busy) (h : tickStep s = .next t) :
    Ended t ∨ (t.state = .busy ∧ t.rstate = .emit) := by
  rw [tickStep_eq] at h
  split at h
  · cases h
    exact finishTick_outcome hb
  · refine scan_induction (P := fun _ t => Ended t ∨ (t.state = .busy ∧ t.rstate = .emit))
      ?pastText ?illegal ?raised ?event ?more (s := sustain s) hb h
    case pastText => exact fun _ _ _ => .inl (.inr rfl)
    case illegal => exact fun _ _ _ _ _ => .inl (.inr rfl)
    case raised => exact fun _ _ _ _ _ _ _ hr => .inl (.inr hr.state_eq)
    case event => exact fun _ _ _ hb _ _ _ hc _ => finishTick_outcome (hc.state_eq.trans hb)
    case more => exact fun _ _ _ _ _ _ _ _ _ _ ih => ih

/-! ### The host's moves -/

theorem scan_inbox {s t : State} (hb : s.state = .busy) (h : scan s = .next t) : t.inbox = s.inbox := by
  refine scan_induction (P := fun s t => t.inbox = s.inbox) ?pastText ?illegal ?raised ?event ?more hb h
  case pastText => exact fun _ _ _ => rfl
  case illegal => exact fun _ _ _ _ _ => rfl
  case raised => exact fun _ _ _ _ _ _ _ ⟨_, _, _, _, hraised, _⟩ => hraised ▸ rfl
  case event => exact fun _ _ u _ _ _ _ hc _ => (finishTick_inbox u).trans (by rw [hc.same])
  case more => exact fun _ _ _ _ _ _ _ _ hc _ ih => ih.trans (by rw [hc.same])

/-- The block makes no move of the host (R64; log 6). -/
theorem blockStep_inbox {s t : State} (h : blockStep s = .next t) : t.inbox = s.inbox := by
  rcases blockStep_next h with ⟨-, rfl⟩ | ⟨hb, -, ht⟩ | ⟨-, -, -, ht⟩ | ⟨-, -, -, ht⟩
  · rfl
  · rw [tickStep_eq] at ht
    split at ht
    · cases ht
      exact finishTick_inbox _
    · exact scan_inbox (s := sustain s) hb ht
  · rcases silentStep_next ht with ⟨-, rfl⟩ | ⟨-, rfl⟩ <;> rfl
  · obtain ⟨x, -, ⟨-, rfl⟩ | ⟨-, rfl⟩⟩ := voicedStep_next ht <;> rfl

/-! ### The measure -/

/-- A bound on the steps left: a tick step before each sample that the sink still has room for. -/
def stepsLeft (s : State) : Nat :=
  2 * (outputLimit s.cfg - s.outCount.toNat) + if s.rstate = .needTick then 1 else 0

/-- A tick step that does not end the render brings it to a sample. -/
theorem tickStep_stepsLeft {s t : State} (hb : s.state = .busy) (hdue : s.rstate = .needTick)
    (h : tickStep s = .next t) : Ended t ∨ (t.state = .busy ∧ stepsLeft t < stepsLeft s) := by
  have hkeep := tickStep_keepsMemory hb h
  refine (tickStep_outcome hb h).imp_right fun ⟨hbusy, hemit⟩ => ⟨hbusy, ?_⟩
  simp [stepsLeft, hkeep.cfg, hkeep.outCount, hdue, hemit]

/-- A sample takes room in the sink. -/
theorem Appends.stepsLeft_lt {s t : State} {v : Sample} (h : Appends v s t) (hs : s.Inv) (hemit : s.rstate = .emit) :
    stepsLeft t < stepsLeft s := by
  have hne : s.outCount.toNat ≠ outputLimit s.cfg := fun e => by simpa [sinkFull_iff.2 e] using h.room
  have hle := hs.countLegal
  have hcount := outCount_succ_toNat hle h.room
  simp only [stepsLeft, h.cfg, h.outCount, hcount, hemit, reduceCtorEq, if_false]
  split <;> omega

/-- Every step of a running render ends it or brings its end nearer. -/
theorem blockStep_stepsLeft {s t : State} (hs : s.Inv) (hb : s.state = .busy) (h : blockStep s = .next t) :
    Ended t ∨ (t.state = .busy ∧ stepsLeft t < stepsLeft s) := by
  rcases blockStep_next h with ⟨hidle, -⟩ | ⟨-, hdue, ht⟩ | ⟨-, hemit, -, ht⟩ | ⟨-, hemit, -, ht⟩
  · exact absurd hb hidle
  · exact tickStep_stepsLeft hb hdue ht
  · rcases silentStep_next ht with ⟨-, rfl⟩ | ⟨hroom, rfl⟩
    · exact .inl (.inr rfl)
    · exact .inr ⟨hb, Appends.stepsLeft_lt (v := 0) ⟨⟨rfl, rfl, rfl, rfl⟩, hroom, rfl, rfl⟩ hs hemit⟩
  · obtain ⟨x, -, ⟨-, rfl⟩ | ⟨hroom, rfl⟩⟩ := voicedStep_next ht
    · exact .inl (.inr rfl)
    · exact .inr ⟨hb, Appends.stepsLeft_lt (v := quantize x) ⟨⟨rfl, rfl, rfl, rfl⟩, hroom, rfl, rfl⟩ hs hemit⟩

/-- Settles O56: an induction on `stepsLeft`; no step stops the block, and none writes its text. -/
theorem everyRenderEnds : Obligations.EveryRenderEnds := by
  intro s hs hw hinbox hb
  generalize hn : stepsLeft s = n
  induction n using Nat.strong_induction_on generalizing s with
  | _ n ih =>
    obtain ⟨u, hstep⟩ := validBlockNeverStops s hs hw hinbox
    have hblock : blockStep s = .next u := (step_of_noMove hinbox).symm.trans hstep
    rcases blockStep_stepsLeft hs hb hblock with hended | ⟨hbusy, hlt⟩
    · exact ⟨1, u, run_succ hstep 0, hended⟩
    · obtain ⟨k, t, hrun, hended⟩ := ih _ (hn ▸ hlt) u (blockStep_inv hs hblock)
        (hw.of_keeps (blockStep_keepsProgram hblock)) ((blockStep_inbox hblock).trans hinbox) hbusy rfl
      exact ⟨k + 1, t, (run_succ hstep k).trans hrun, hended⟩

end Sys2Proof.Machine

/-! PROOFS. The ends of a render and its start (42_renderer.md R151, R157). -/

namespace Sys2Proof.Machine

/-- Settles O26: the command at POS is END, and DONE ends the tick. -/
theorem nulEndsRender : Obligations.NulEndsRender := by
  intro s hs hp hnul
  have hdecode : decode (commandBytes s) = .ok .endText := by
    rw [commandBytes, hnul]
    exact endSetsDone.1 _
  have hwritten : bytesWritten s Instr.endText.length = true := by
    simp [Instr.length, bytesWritten, hnul]
  obtain ⟨-, -, hrun⟩ := stepRunsDecodedInstruction s .endText hs hp hdecode hwritten
  obtain ⟨-, hend, -⟩ := hrun { s with cnt := 0, done := true, rate := 0 } rfl
  rw [hend (by simp [hs.busy]) rfl, finishTick_of_done _ rfl]

/-- Settles O41: CTRL is in the window, and without SOFT_RESET its bit 0 is START. -/
theorem startBeginsRender : Obligations.StartBeginsRender := by
  intro s value rest h hstart hreset
  have hstep : step s = .next (startRender { s with inbox := rest }) := by
    rw [step_writeRegister h (by decide)]
    show Host.Outcome.next (writeControl value _) = _
    simp only [writeControl, hreset, hstart, Bool.false_eq_true, if_false, if_true]
  rw [hstep]
  exact ⟨fun hb => congrArg _ (if_pos hb), fun hb => congrArg _ (if_neg hb)⟩

end Sys2Proof.Machine

/-! PROOFS. The PCM quantizer (42_renderer.md R155): rounding the scaled sample does not take it past ±32767. -/

namespace Sys2Proof.Machine

/-! ### Rounding and bounds (00_scope.md R19) -/

/-- The rounded significand has 24 bits, or is 2^24 after a carry. -/
theorem roundHalfEven_le (m scale : Nat) : roundHalfEven m (f32Shift m scale) ≤ 2 ^ 24 := by
  have hlt : m < 2 ^ (24 + f32Shift m scale) := by
    rcases Nat.eq_zero_or_pos m with rfl | hpos
    · positivity
    · exact (Nat.log2_lt hpos.ne').1 (by unfold f32Shift; omega)
  have hquot : m / 2 ^ f32Shift m scale < 2 ^ 24 := by
    rw [Nat.div_lt_iff_lt_mul (by positivity), ← Nat.pow_add]
    exact hlt
  unfold roundHalfEven
  split <;> omega

/-- A value below 2^127 rounds to a finite pattern. -/
theorem f32RoundMagnitude_finite {m scale : Nat} (hs : 149 ≤ scale) (hm : m < 2 ^ (scale + 127)) :
    f32RoundMagnitude m scale < 0x7F800000 := by
  have hlog : Nat.log2 m < scale + 127 := by
    rcases Nat.eq_zero_or_pos m with rfl | hpos
    · simp
    · exact (Nat.log2_lt hpos.ne').2 hm
  have hround := roundHalfEven_le m scale
  have hshift : f32Shift m scale - (scale - 149) ≤ 252 := by
    unfold f32Shift
    omega
  unfold f32RoundMagnitude
  omega

/-- Rounding does not take a value past a binary32 value that bounds it: the nearest is at least as near. -/
theorem magnitudeOf_round_le {m scale n : Nat} (hs : 149 ≤ scale) (hfinite : f32RoundMagnitude m scale < 0x7F800000)
    (hm : m ≤ magnitudeOf n * 2 ^ (scale - 149)) : magnitudeOf (f32RoundMagnitude m scale) ≤ magnitudeOf n := by
  obtain ⟨hnear, -⟩ := f32RoundMagnitude_nearest hs hfinite n
  have hm : (m : ℤ) ≤ magnitudeOf n * 2 ^ (scale - 149) := by exact_mod_cast hm
  rw [abs_of_nonneg (sub_nonneg.2 hm)] at hnear
  have hscaled := (sub_le_sub_iff_right _).1 ((le_abs_self _).trans hnear)
  exact_mod_cast le_of_mul_le_mul_right hscaled (by positivity)

/-- The magnitude of a rounded value, whatever its sign. -/
theorem f32Magnitude_round (neg : Bool) (m scale : Nat) :
    f32Magnitude (f32Round neg m scale) = magnitudeOf (f32RoundMagnitude m scale) := by
  have hle : f32RoundMagnitude m scale ≤ 0x7F800000 := min_le_left _ _
  have hpattern : (f32Round neg m scale).toNat % 2 ^ 31 = f32RoundMagnitude m scale := by
    rw [f32Round, BitVec.toNat_ofNat]
    split <;> omega
  rw [f32Magnitude_eq, hpattern]

/-- A binary32 in [-1, 1] has at most the magnitude of 1.0. -/
theorem f32Magnitude_le_of_inUnit {x : Word} (h : f32InUnit x = true) : f32Magnitude x ≤ 2 ^ 149 := by
  have hle : x.toNat % 2 ^ 31 ≤ 0x3F800000 := of_decide_eq_true h
  rw [f32Magnitude_eq, magnitudeOf]
  generalize x.toNat % 2 ^ 31 = n at hle
  split
  · omega
  · rcases Nat.lt_or_ge (n / 2 ^ 23) 127 with hlt | hge
    · calc (2 ^ 23 + n % 2 ^ 23) * 2 ^ (n / 2 ^ 23 - 1) ≤ 2 ^ 24 * 2 ^ 125 :=
            Nat.mul_le_mul (by omega) (Nat.pow_le_pow_right (by decide) (by omega))
        _ = 2 ^ 149 := by norm_num
    · have hone : n = 0x3F800000 := by omega
      subst hone
      decide

/-! ### The quantizer (R155) -/

theorem f32Magnitude_amp : f32Magnitude (f32OfNat amp) = 32767 * 2 ^ 149 := by decide

/-- The scaled sample stays within AMP: 32767.0 is a binary32. -/
theorem f32Magnitude_scaled_le {x : Word} (h : f32InUnit x = true) :
    f32Magnitude (f32Mul x (f32OfNat amp)) ≤ 32767 * 2 ^ 149 := by
  have hpattern : magnitudeOf 0x46FFFE00 = 32767 * 2 ^ 149 := by decide
  have hproduct : f32Magnitude x * f32Magnitude (f32OfNat amp) ≤ 32767 * 2 ^ 149 * 2 ^ 149 := by
    rw [f32Magnitude_amp, Nat.mul_comm]
    exact Nat.mul_le_mul_left _ (f32Magnitude_le_of_inUnit h)
  have hrange : 32767 * 2 ^ 149 * 2 ^ 149 < 2 ^ (298 + 127) := by
    rw [show 298 + 127 = 127 + 149 + 149 from rfl, Nat.pow_add, Nat.pow_add 2 127 149]
    have hpos := Nat.two_pow_pos 149
    generalize 2 ^ 149 = unit at hpos ⊢
    gcongr
    norm_num
  have hfinite := f32RoundMagnitude_finite (by decide) (hproduct.trans_lt hrange)
  rw [f32Mul, f32Magnitude_round, ← hpattern]
  exact magnitudeOf_round_le (by decide) hfinite (by rw [hpattern]; exact hproduct)

/-- Settles O33: the integer part of the scaled sample is within AMP, so neither guard is reached. -/
theorem quantizeStaysSymmetric : Obligations.QuantizeStaysSymmetric := by
  intro x h
  have htrunc : (f32Trunc (f32Mul x (f32OfNat amp))).natAbs ≤ 32767 := by
    rw [f32Trunc, Int.natAbs_tdiv, natAbs_f32Exact]
    exact Nat.div_le_of_le_mul ((f32Magnitude_scaled_le h).trans_eq (Nat.mul_comm _ _))
  rw [quantizeInt]
  omega

/-- Settles O34: each corner, evaluated. -/
theorem quantizeCorners : Obligations.QuantizeCorners := by
  unfold Obligations.QuantizeCorners
  and_intros <;> decide +kernel

end Sys2Proof.Machine

/-! PROOFS. The errors and the quiescent states (60_exceptions.md R183 to R185, R196): what an error entry writes, and
when the block's own step writes nothing. -/

namespace Sys2Proof.Machine

/-- Settles O20: a command that does not complete ends in the error entry of R184. -/
theorem commandErrorEntry : Obligations.CommandErrorEntry := by
  intro i s t hne h herror
  rcases exec_cases h with ⟨code, p, byte, cmd, rfl, -, hcode⟩ | hc
  · refine ⟨code, BitVec.ofNat 32 p, byte, cmd, ?_, rfl⟩
    rcases hcode with ⟨hterm, hbyte, -⟩ | ⟨hrange, -⟩
    · exact .inr ⟨hterm, hbyte⟩
    · exact .inl hrange
  · exact absurd (hc.state_eq.symm.trans herror) hne

/-- An error entry at POS leaves POS as it was (R184). -/
theorem raiseError_at_pos (code : ErrorCode) (byte cmd : Byte) (s : State) :
    raiseError code s.pos.toNat byte cmd s =
      { s with errCode := code, errPos := s.pos, errByte := byte, errCmd := cmd, state := .error } := by
  rw [raiseError, BitVec.ofNat_toNat, BitVec.setWidth_eq]

/-! ### The full sink (R185) -/

theorem silentStep_of_full {s : State} (hfull : sinkFull s = true) : silentStep s = .next (outputOverflow s) :=
  if_pos hfull

/-- A voiced step computes its sample first, which the invariant makes possible, and then finds the sink full (R153). -/
theorem voicedStep_of_full {s : State} (hs : s.Inv) (hfull : sinkFull s = true) :
    voicedStep s = .next (outputOverflow s) := by
  obtain ⟨x, hx⟩ := sampleAt_total hs.cfgValid hs.romBuilt hs.lvlLegal s.phase
  simp only [voicedStep, hx]
  exact if_pos hfull

theorem step_of_atSample_full {s : State} (hs : s.Inv) (h : s.AtSample) (hfull : sinkFull s = true) :
    step s = .next (outputOverflow s) := by
  simp only [step_of_noMove h.noMove, blockStep, h.busy, h.emitting]
  by_cases hrate : s.rate = 0
  · rw [if_pos hrate, silentStep_of_full hfull]
  · rw [if_neg hrate, voicedStep_of_full hs hfull]

/-- Settles O29: the limit of the statement is `outputLimit`, and the overflow is an error entry at POS. -/
theorem fullSinkRaisesOverflow : Obligations.FullSinkRaisesOverflow := by
  intro s hs h hcount
  rw [step_of_atSample_full hs h (sinkFull_iff.2 hcount), outputOverflow, raiseError_at_pos]

/-! ### The end of the text (R183) -/

theorem scan_of_pastEnd {s : State} (hp : s.nlen.toNat ≤ s.pos.toNat) :
    scan s = .next (raiseError .noTerminator s.pos.toNat 0 0 s) := by
  rw [scan_unfold, scanCommand, if_pos (pastEnd_eq_true.2 hp)]

/-- Settles O25: the tick scans with CNT at 0, and the command fetch is past the text. -/
theorem missingTerminatorRaisesError : Obligations.MissingTerminatorRaisesError := by
  intro s h hp
  rw [step_of_atCommand h, scan_of_pastEnd (s := { s with cnt := 0 }) hp, raiseError_at_pos]

/-! ### The quiescent states (R196) -/

/-- Outside BUSY the block takes no step of its own (R150). -/
theorem blockStep_of_not_busy {s : State} (h : s.state ≠ .busy) : blockStep s = .next s := by
  unfold blockStep
  split
  case h_1 hb _ | h_2 hb _ => exact absurd hb h
  case h_3 | h_4 | h_5 => rfl

/-- Settles O51: with no host move pending the step is the block's own. -/
theorem quiescentBlockKeepsState : Obligations.QuiescentBlockKeepsState := by
  intro s hidle hinbox
  rw [step_of_noMove hinbox, blockStep_of_not_busy hidle]

end Sys2Proof.Machine

/-! PROOFS. The resets (70_reset_and_hazards.md R200, R201): the hardware reset as a step, and SOFT_RESET. -/

namespace Sys2Proof.Machine

/-! ### Hardware reset (R200) -/

section
variable {s : State} {c : Config} {rest : List HostMove}

/-- A valid configuration gives the registers of R44 and the built tables; the memories outside the block stay (R43; log
22). -/
theorem step_hardwareReset (h : s.inbox = .hardwareReset c :: rest) (hc : configValid c = true) :
    step s = .next { State.powerOn c with text := s.text, sink := s.sink, inbox := rest, hostData := s.hostData } := by
  rw [step_of_move h]
  exact if_pos hc

/-- A configuration that R100 does not take is refused (log 12). -/
theorem step_hardwareReset_refused (h : s.inbox = .hardwareReset c :: rest) (hc : ¬ configValid c = true) :
    step s = .refused .invalidConfiguration := by
  rw [step_of_move h]
  exact if_neg hc

end

/-- Settles O59: every valid configuration meets R94 (d) over the reals, so this one is not valid. -/
theorem hardwareResetRefusesFarTables : Obligations.HardwareResetRefusesFarTables :=
  fun _ _ _ h hfar => step_hardwareReset_refused h fun hc => hfar (nearReference_of_configValid hc)

/-- Settles O49: the state after reset holds the values written out, and the tables of Build. -/
theorem hardwareResetBuilds : Obligations.HardwareResetBuilds :=
  fun _ _ _ h => ⟨step_hardwareReset h, fun hc => step_hardwareReset_refused h (ne_true_of_eq_false hc)⟩

/-! ### SOFT_RESET (R201) -/

/-- Bit 1 of CTRL is looked at before bit 0 (R35). -/
theorem writeControl_softReset {value : Word} (hreset : value.getLsbD 1 = true) (s : State) :
    writeControl value s = softReset s :=
  if_pos hreset

/-- Settles O42: CTRL is in the window, and its bit 1 resets the registers whatever STATE and bit 0 are. -/
theorem softResetResetsRegisters : Obligations.SoftResetResetsRegisters := by
  intro s value rest h hreset
  rw [step_writeRegister h (by decide)]
  exact congrArg Host.Outcome.next (writeControl_softReset hreset { s with inbox := rest })

end Sys2Proof.Machine
